-- ==== Sys2Proof/Word.lean ====
section
/-! DEFINITION. The word types of the block: the 32-bit bus word, the byte of the point buffer and the
256-bit coordinate. -/

namespace Sys2Proof

/-- The one bus word, and the one command word: 32 bits (R53, R68). -/
abbrev Word := BitVec 32

/-- One byte of the point buffer `PB` (R24). -/
abbrev Byte := BitVec 8

/-- A point coordinate or the scalar: 256 bits (R22, R23). -/
abbrev Coord := BitVec 256

end Sys2Proof
end

