-- ==== Sys2Proof/Config.lean ====
section
/-! DEFINITION. The parameters a particular block is built with (R8, R19 and the table "Parameters left
OPEN" of 92_eei_decisions.md). They are data that no step changes; a state carries them, so a statement over
all states holds for every choice of them. The block has no free value: the spec leaves none open. -/

namespace Sys2Proof

/-- The implementation parameters of R8, D3, D7 and D24. -/
structure Config where
  /-- `MAXWORDS = MAXBITS / 32`. Storing the word count makes `MAXBITS` a multiple of 32 by construction. -/
  maxWords : Nat
  /-- `MM_BASE`, the bus address of the register window (R47). -/
  mmBase : Nat
  /-- `MM_IRQ`, the platform's interrupt line that the output `IRQ` drives (R145). -/
  mmIrq : Nat
  deriving DecidableEq, Repr

/-- `MAXBITS`, the width of A, B, E, M and D (R8). -/
def Config.maxBits (c : Config) : Nat := 32 * c.maxWords

/-- The parameters of the reset state: the spec's default `MAXBITS = 4096` (R8). `MM_BASE` and `MM_IRQ` have
no default in the spec; 0 is a DESIGN CHOICE (assumption 2), unsafe for a statement about this one state only. -/
def Config.default : Config := { maxWords := 128, mmBase := 0, mmIrq := 0 }

end Sys2Proof
end

