-- ==== Sys2Proof/Syntax.lean ====
section
/-! DEFINITION. The commands: one constructor per row of spec/opcode_table.json. A command word has no
register number and no immediate (R69); the only operand field is MODSEL, and only the nine commands of
`MODCMDS` use it (R70, R71). -/

namespace Sys2Proof

/-- The four values of MODSEL (R71): the field prime, the group order, the user modulus, and the reserved
value 3. -/
inductive ModSel where
  | p
  | n
  | user
  | reserved
  deriving DecidableEq, Repr

/-- The sixteen commands (R70). -/
inductive Instr where
  | nop
  | setmod
  | montmul (ms : ModSel)
  | tomont (ms : ModSel)
  | frommont (ms : ModSel)
  | modmul (ms : ModSel)
  | modadd (ms : ModSel)
  | modsub (ms : ModSel)
  | modred (ms : ModSel)
  | modexp (ms : ModSel)
  | modinv (ms : ModSel)
  | ecadd
  | ecmul
  | ecmulLadder
  | compress
  | decompress
  deriving DecidableEq, Repr

/-- The MODSEL operand of a command of `MODCMDS`; `none` for the seven commands that ignore the field (R70). -/
def Instr.modsel? : Instr → Option ModSel
  | .nop => none
  | .setmod => none
  | .montmul ms => some ms
  | .tomont ms => some ms
  | .frommont ms => some ms
  | .modmul ms => some ms
  | .modadd ms => some ms
  | .modsub ms => some ms
  | .modred ms => some ms
  | .modexp ms => some ms
  | .modinv ms => some ms
  | .ecadd => none
  | .ecmul => none
  | .ecmulLadder => none
  | .compress => none
  | .decompress => none

end Sys2Proof
end

