-- ==== Sys2Proof/WellFormed.lean ====
section
/-! DEFINITION. The checks on data that the types alone do not make: the MODSEL a command may carry and the
range of the parameters. -/

namespace Sys2Proof

/-- A command's encoding rule allows `MODSEL ∈ {0, 1, 2}` for the commands that use it (R85 to R91, R98,
R99). The reserved value still decodes and runs: it completes with BAD_MODSEL (R76). -/
def Instr.wf (i : Instr) : Bool := i.modsel? != some ModSel.reserved

/-- `256 ≤ MAXBITS ≤ 4096` and `MM_BASE` aligned to 4 KiB (R8). -/
def Config.wf (c : Config) : Bool :=
  decide (8 ≤ c.maxWords) && decide (c.maxWords ≤ 128) && decide (c.mmBase % 4096 = 0)

end Sys2Proof
end

