-- ==== Sys2Proof/Decode.lean ====
section
/-! DEFINITION. Decoding and encoding of the one format, the 32-bit command word (R68 to R77). -/

namespace Sys2Proof

/-- A field of a 32-bit word: `x` with its bit 0 at bit `lo`, and 0 in every other bit. -/
def placeAt {w : Nat} (lo : Nat) (x : BitVec w) : Word := x.setWidth 32 <<< lo

/-- Bit 0, START (R68). -/
def Word.start (v : Word) : Bool := v.getLsbD 0

/-- Bits 15:8, OPC (R68). -/
def Word.opc (v : Word) : BitVec 8 := v.extractLsb' 8 8

/-- Bits 17:16, MODSEL (R68). -/
def Word.modsel (v : Word) : BitVec 2 := v.extractLsb' 16 2

/-- Bit 31, SRST (R68). -/
def Word.srst (v : Word) : Bool := v.getLsbD 31

/-- Why a word is not a command. -/
inductive DecodeReject where
  /-- SRST = 1: the write is a soft reset and every other field is ignored (R68). -/
  | softReset
  /-- START = 0 and SRST = 0: the write only stores OPC and MODSEL (R77). -/
  | notStarted
  /-- `ILLEGAL`: OPC is one of the 240 values that R70 does not list (R74). -/
  | illegalOpcode (opc : BitVec 8)
  deriving DecidableEq, Repr

/-- The MODSEL encoding (R71). -/
def ModSel.ofBits (b : BitVec 2) : ModSel :=
  match b.toNat with
  | 0 => .p
  | 1 => .n
  | 2 => .user
  | _ => .reserved

/-- The MODSEL field of each value (R71). -/
def ModSel.bits : ModSel → BitVec 2
  | .p => 0
  | .n => 1
  | .user => 2
  | .reserved => 3

/-- R74's `Decode`, with the operand field attached: total on the 256 values of OPC, looking only at OPC to
choose the command. -/
def decodeCommand (opc : BitVec 8) (ms : BitVec 2) : Except DecodeReject Instr :=
  match opc.toNat with
  | 0x00 => .ok .nop
  | 0x01 => .ok .setmod
  | 0x02 => .ok (.montmul (ModSel.ofBits ms))
  | 0x03 => .ok (.tomont (ModSel.ofBits ms))
  | 0x04 => .ok (.frommont (ModSel.ofBits ms))
  | 0x05 => .ok (.modmul (ModSel.ofBits ms))
  | 0x06 => .ok (.modadd (ModSel.ofBits ms))
  | 0x07 => .ok (.modsub (ModSel.ofBits ms))
  | 0x08 => .ok (.modred (ModSel.ofBits ms))
  | 0x09 => .ok (.modexp (ModSel.ofBits ms))
  | 0x0A => .ok (.modinv (ModSel.ofBits ms))
  | 0x10 => .ok .ecadd
  | 0x11 => .ok .ecmul
  | 0x12 => .ok .ecmulLadder
  | 0x18 => .ok .compress
  | 0x19 => .ok .decompress
  | _ => .error (.illegalOpcode opc)

/-- The command a CTRL word issues (R68, R72, R76): total on the 2^32 words. The reserved bits 7:1 and 30:18
are ignored (R75). -/
def decode (v : Word) : Except DecodeReject Instr :=
  if Word.srst v then .error .softReset
  else if Word.start v then decodeCommand (Word.opc v) (Word.modsel v)
  else .error .notStarted

/-- The OPC of each command, from the opcode map (R70). -/
def Instr.opc : Instr → BitVec 8
  | .nop => 0x00
  | .setmod => 0x01
  | .montmul _ => 0x02
  | .tomont _ => 0x03
  | .frommont _ => 0x04
  | .modmul _ => 0x05
  | .modadd _ => 0x06
  | .modsub _ => 0x07
  | .modred _ => 0x08
  | .modexp _ => 0x09
  | .modinv _ => 0x0A
  | .ecadd => 0x10
  | .ecmul => 0x11
  | .ecmulLadder => 0x12
  | .compress => 0x18
  | .decompress => 0x19

/-- The MODSEL field a command is encoded with: its operand, and 0 where the field is ignored (R79's
`mmcmd OP` is `mmcmd OP, P`). -/
def Instr.modselField (i : Instr) : BitVec 2 :=
  match i.modsel? with
  | some ms => ms.bits
  | none => 0

/-- `(MODSEL << 16) | (OPC << 8) | 1` (R68). -/
def encode (i : Instr) : Word := placeAt 16 i.modselField ||| placeAt 8 i.opc ||| 1#32

/-- The command this decoder reads from a table word. A command is one bus word, so no byte order enters
(R52); bits at and above `nbits` are 0. -/
def decodeTableWord (nbits w : Nat) : Option Instr :=
  match decode (BitVec.ofNat 32 (w % 2 ^ nbits)) with
  | .ok i => some i
  | .error _ => none

end Sys2Proof
end

