-- ==== Sys2Proof/Machine/State.lean ====
section
/-! DEFINITION. The state of the block as plain data (R18), the outside events still to come, the reasons a
step can stop, and the reset state (R156). -/

namespace Sys2Proof.Machine

/-- The eight values ERRCODE can take (R133). The codes 0x06 to 0x0F and 0x12 to 0xFF are never written. -/
inductive ErrCode where
  | none
  | illegalOpcode
  | badModsel
  | modNotReady
  | modZero
  | modEven
  | invalidEncoding
  | identityNoEncoding
  deriving DecidableEq, Repr

/-- `MCONST`, the prepared user modulus and its radix exponent (R42). -/
structure MConst where
  muser : Nat
  luser : Nat
  deriving DecidableEq, Repr

/-- The wide operand registers (R20). -/
inductive WideReg where
  | A
  | B
  | E
  | M
  | D
  deriving DecidableEq, Repr

/-- The 256-bit registers (R22, R23). -/
inductive CoordReg where
  | PX
  | PY
  | QX
  | QY
  | RX
  | RY
  | K
  deriving DecidableEq, Repr

/-- A row of the register map, without its reserved ranges (R48). -/
inductive RegName where
  | ID
  | CFG
  | CTRL
  | STATUS
  | INT_EN
  | INT_STAT
  | MLEN
  | PFLAGS
  | PBLEN
  | wide (r : WideReg)
  | coord (r : CoordReg)
  | PB
  deriving DecidableEq, Repr

/-- What happens next, as data: a host bus access, the engine's turn, or the reset input (R16, R19, R73, R155).
A size is the access width in bits and an address is a full bus address, because the block refuses every width
but 32 and decodes the address itself (R53, R129). -/
inductive Event where
  | read (size addr : Nat)
  | write (size addr : Nat) (v : Word)
  | engine
  | hardReset
  deriving DecidableEq, Repr

/-- A point operand or result `(X, Y, INF)` (R17, R105). -/
structure Point where
  x : Coord
  y : Coord
  inf : Bool
  deriving DecidableEq, Repr

/-- The state: the parameters, every element of R18's tuple, and the host side. -/
structure State where
  /-- The parameters of R8 and R19; no step changes them. -/
  cfg : Config
  /-- A, `MAXBITS` bits: the first operand (R20). A natural number, because its width is a parameter and every
  command reads it as one; the invariant bounds it. -/
  a : Nat
  /-- B, `MAXBITS` bits: the second operand (R20). -/
  b : Nat
  /-- E, `MAXBITS` bits: the exponent (R20). -/
  e : Nat
  /-- M, `MAXBITS` bits: the user modulus (R20). -/
  m : Nat
  /-- D, `MAXBITS` bits: the destination of the modular commands (R20). -/
  d : Nat
  /-- PX, PY: point P (R22). -/
  px : Coord
  py : Coord
  /-- QX, QY: point Q (R22). -/
  qx : Coord
  qy : Coord
  /-- RX, RY: the result point R (R22). -/
  rx : Coord
  ry : Coord
  /-- K, the scalar (R23). -/
  k : Coord
  /-- PB[0..64], the point buffer (R24). -/
  pb : Vector Byte 65
  /-- PBLEN, bits 6:0 (R39). -/
  pblen : BitVec 7
  /-- PFLAGS: PINF, QINF, RINF (R38). -/
  pinf : Bool
  qinf : Bool
  rinf : Bool
  /-- CTRL.OPC and CTRL.MODSEL (R28). -/
  opc : BitVec 8
  modsel : BitVec 2
  /-- STATUS.BUSY (R30). -/
  busy : Bool
  /-- STATUS.DONE (R31). -/
  done : Bool
  /-- STATUS.ERR and STATUS.ERRCODE (R32). -/
  err : Bool
  errcode : ErrCode
  /-- STATUS.WERR (R33). -/
  werr : Bool
  /-- STATUS.MRDY (R34). -/
  mrdy : Bool
  /-- INT_EN.DONE_IE (R35). -/
  doneIe : Bool
  /-- INT_STAT.DONE_IP (R36). -/
  doneIp : Bool
  /-- MLEN, the limb count SETMOD wrote (R37). -/
  mlen : BitVec 8
  /-- LATCH_OPC and LATCH_MODSEL, the command in flight (R44). -/
  latchOpc : BitVec 8
  latchModsel : BitVec 2
  /-- MCONST; `none` is the spec's "invalid" (R42). -/
  mconst : Option MConst
  /-- The model's own field, DESIGN CHOICE (assumption 1): what the outside does next, oldest first (R19, R63). -/
  schedule : List Event
  /-- The model's own field, DESIGN CHOICE (assumption 1): the word the last bus read returned, if any (R57). -/
  reply : Option Word
  deriving DecidableEq, Repr

/-- Why the machine stops. Both stops are the host program's, never a command's (R141, R142). -/
inductive Fault where
  /-- Raised by a bus access whose width is not 32 bits or whose offset is not a multiple of 4 (R53, R57, R58).
  The spec makes it a fault of the host program that is never cleared. Safe. -/
  | busError (addr : Nat)
  /-- Raised by a bus access to an address outside the 4 KiB window, where the block has no register (R47,
  R129). DESIGN CHOICE (assumption 5). Safe: a platform would send such an access elsewhere. -/
  | outsideWindow (addr : Nat)
  deriving DecidableEq, Repr

/-- Why an instruction has no meaning. -/
inductive Refusal where
  /-- Raised by an arm of `exec` whose instruction has no meaning yet; no arm is in that state. Safe. -/
  | notModelled (mnemonic : String)
  deriving DecidableEq, Repr

/-- Every element of the block's state at its reset value (R156), with the given parameters and host side,
which are not the block's to reset. -/
def State.resetWith (c : Config) (events : List Event) (lastReply : Option Word) : State where
  cfg := c
  a := 0
  b := 0
  e := 0
  m := 0
  d := 0
  px := 0
  py := 0
  qx := 0
  qy := 0
  rx := 0
  ry := 0
  k := 0
  pb := Vector.replicate 65 0
  pblen := 0
  pinf := false
  qinf := false
  rinf := false
  opc := 0
  modsel := 0
  busy := false
  done := false
  err := false
  errcode := .none
  werr := false
  mrdy := false
  doneIe := false
  doneIp := false
  mlen := 0
  latchOpc := 0
  latchModsel := 0
  mconst := none
  schedule := events
  reply := lastReply

/-- The state after reset: the default parameters, no outside event to come and no reply yet. Every value but
those of `cfg.mmBase`, `cfg.mmIrq`, `schedule` and `reply` is the spec's (R156). -/
def State.reset : State := State.resetWith Config.default [] none

end Sys2Proof.Machine
end

