-- ==== Sys2Proof/Machine/Bits.lean ====
section
/-! DEFINITION. Bit lengths, 32-bit words of wide numbers, and big-endian bytes (R13, R14, R49 to R51). -/

namespace Sys2Proof.Machine

/-- `bitlen(v)`: the least `k` with `v < 2^k` (R13). -/
def bitlen (v : Nat) : Nat := if v = 0 then 0 else Nat.log2 v + 1

/-- `X[32j+31 : 32j]`, word `j` of a wide number (R49, R50). -/
def wordOf (x j : Nat) : Word := BitVec.ofNat 32 (x / 2 ^ (32 * j))

/-- `X` with word `j` set to `v` (R49): the words below `j`, then `v`, then the words above `j`. -/
def setWord (x j : Nat) (v : Word) : Nat :=
  x % 2 ^ (32 * j) + v.toNat * 2 ^ (32 * j) + x / 2 ^ (32 * j + 32) * 2 ^ (32 * j + 32)

/-- Byte lane `k` of a bus word: bits `8k+7 : 8k` (R51). -/
def lane (v : Word) (k : Nat) : Byte := v.extractLsb' (8 * k) 8

/-- `PB[i]`, and 0 at an index past the buffer, where the lane is reserved (R51). -/
def pbByte (pb : Vector Byte 65) (i : Nat) : Byte := if h : i < 65 then pb[i] else 0

/-- The bus word `j` of the point buffer: lane `k` holds `PB[4j + k]` (R51). -/
def pbWord (pb : Vector Byte 65) (j : Nat) : Word :=
  placeAt 0 (pbByte pb (4 * j)) ||| placeAt 8 (pbByte pb (4 * j + 1)) ||| placeAt 16 (pbByte pb (4 * j + 2))
    ||| placeAt 24 (pbByte pb (4 * j + 3))

/-- The point buffer after a bus write of `v` to its word `j` (R51). Irreducible, so that comparing two states
does not run through the 65 bytes; the kernel still evaluates it. -/
@[irreducible] def setPbWord (pb : Vector Byte 65) (j : Nat) (v : Word) : Vector Byte 65 :=
  Vector.ofFn fun i : Fin 65 => if i.val / 4 = j then lane v (i.val % 4) else pb[i]

/-- The point buffer after COMPRESS: the 33 bytes of the encoding, then the bytes 33 to 64 as they were (R122).
Irreducible for the same reason. -/
@[irreducible] def compressedPb (b : Vector Byte 33) (pb : Vector Byte 65) : Vector Byte 65 :=
  Vector.ofFn fun i : Fin 65 => if h : i.val < 33 then b[i.val] else pb[i]

/-- Byte `i` of `be32(x)`, the 32-byte big-endian encoding of `x` (R14). -/
def be32Byte (x i : Nat) : Byte := BitVec.ofNat 8 (x / 256 ^ (31 - i))

/-- `be(b)`, the unsigned integer whose big-endian encoding is `b` (R14). -/
def be (b : List Byte) : Nat := b.foldl (fun acc x => 256 * acc + x.toNat) 0

/-- `be(PB[start .. start+31])` (R123). -/
def beField (pb : Vector Byte 65) (start : Nat) : Nat := be ((pb.toList.drop start).take 32)

end Sys2Proof.Machine
end

