-- ==== Sys2Proof/Machine/Field.lean ====
section
/-! DEFINITION. The constants and the modular arithmetic the commands are defined by (R9 to R12, R80). -/

namespace Sys2Proof.Machine

/-- `p`, the secp256k1 field prime (R9). -/
def fieldP : Nat := 0xFFFFFFFFFFFFFFFFFFFFFFFFFFFFFFFFFFFFFFFFFFFFFFFFFFFFFFFEFFFFFC2F

/-- `n`, the order of the base point (R9). -/
def orderN : Nat := 0xFFFFFFFFFFFFFFFFFFFFFFFFFFFFFFFEBAAEDCE6AF48A03BBFD25E8CD0364141

/-- `a mod m` for any integer `a`: the least nonnegative residue (R12). -/
def residue (a : Int) (m : Nat) : Nat := (a % (m : Int)).toNat

/-- Square-and-multiply from the least significant exponent bit, one bit a pass. -/
def powModLoop (m : Nat) : Nat → Nat → Nat → Nat → Nat
  | 0, acc, _, _ => acc
  | passes + 1, acc, base, e =>
    powModLoop m passes (if e % 2 = 1 then acc * base % m else acc) (base * base % m) (e / 2)

/-- `(a ^ e) mod m`, computed so that it can be run; `powMod_eq` says that it is that power (R98). -/
def powMod (a e m : Nat) : Nat := powModLoop m (bitlen e) (1 % m) (a % m) e

/-- The radix exponent of a loaded modulus, `L(M) = 32 · ⌈bitlen(M) / 32⌉` (R11). -/
def radixBits (m : Nat) : Nat := 32 * ((bitlen m + 31) / 32)

/-- `Rinv`, the inverse of `2^l` modulo an odd `m`, as a power of `(m + 1) / 2`, the inverse of 2; it is 0 for
`m = 1` (R80). -/
def radixInv (m l : Nat) : Nat := powMod ((m + 1) / 2) l m

/-- The Fermat power `a^(m−2) mod m`, and 0 for `m = 1` (R99). -/
def fermatInv (a m : Nat) : Nat := if m = 1 then 0 else powMod a (m - 2) m

/-- `fred(x) = x mod p` (R17). -/
def fred (x : Nat) : Nat := x % fieldP

/-- `finv(a) = fred(a)^(p−2) mod p`, so `finv(0) = 0` (R107). -/
def finv (a : Nat) : Nat := fermatInv (fred a) fieldP

end Sys2Proof.Machine
end

