-- ==== Sys2Proof/Machine/Curve.lean ====
section
/-! DEFINITION. The affine group law, the two scalar multiplications and the point codec, as functions of
points and bytes (R105 to R108, R113, R116, R121, R123). -/

namespace Sys2Proof.Machine

/-- The identity as the engine writes it, `O = (0, 0, 1)` (R38). -/
def identityPoint : Point := { x := 0, y := 0, inf := true }

/-- The slope of `ecadd`'s doubling and general cases, over reduced coordinates (R108). -/
def ecSlope (x1 y1 x2 y2 : Nat) : Nat :=
  if x1 = x2 ∧ y1 = y2 then 3 * x1 ^ 2 * finv (2 * y1 % fieldP) % fieldP
  else residue ((y1 : Int) - y2) fieldP * finv (residue ((x1 : Int) - x2) fieldP) % fieldP

/-- The point a slope gives: `x3 = s² − x1 − x2`, `y3 = s·(x1 − x3) − y1`, both modulo `p` (R108). -/
def ecChord (s x1 y1 x2 : Nat) : Point :=
  let x3 := residue ((s : Int) ^ 2 - x1 - x2) fieldP
  let y3 := residue ((s : Int) * ((x1 : Int) - x3) - y1) fieldP
  { x := BitVec.ofNat 256 x3, y := BitVec.ofNat 256 y3, inf := false }

/-- `ecadd` of two affine points, over the reduced coordinates (R106, R108). -/
def ecaddAffine (x1 y1 x2 y2 : Nat) : Point :=
  if x1 = x2 ∧ y1 = (fieldP - y2) % fieldP then identityPoint
  else ecChord (ecSlope x1 y1 x2 y2) x1 y1 x2

/-- `ecadd(P, Q)` (R108). An identity operand is answered with a verbatim copy of the other operand. -/
def ecadd (P Q : Point) : Point :=
  if P.inf then
    if Q.inf then identityPoint else { x := Q.x, y := Q.y, inf := false }
  else if Q.inf then { x := P.x, y := P.y, inf := false }
  else ecaddAffine (fred P.x.toNat) (fred P.y.toNat) (fred Q.x.toNat) (fred Q.y.toNat)

/-- The point operand as both multiplications start from it: the identity in its one form, else verbatim
(R113, R116). -/
def ecOperand (P : Point) : Point :=
  if P.inf then identityPoint else { x := P.x, y := P.y, inf := false }

/-- The passes of `ecmul` from bit `i` up: add when the bit is set, then double unconditionally (R113). -/
def ecmulLoop (k : Nat) : Nat → Nat → Point → Point → Point
  | 0, _, R, _ => R
  | passes + 1, i, R, T =>
    ecmulLoop k passes (i + 1) (if k.testBit i then ecadd R T else R) (ecadd T T)

/-- `ecmul(k, P)`: double-and-add, least significant bit first, over all 256 bits (R112, R113). -/
def ecmul (k : Nat) (P : Point) : Point := ecmulLoop k 256 0 identityPoint (ecOperand P)

/-- The passes of the ladder from bit `i − 1` down; both right-hand sides use the values from before the pass
(R116). -/
def ladderLoop (k : Nat) : Nat → Point → Point → Point
  | 0, R0, _ => R0
  | i + 1, R0, R1 =>
    if k.testBit i then ladderLoop k i (ecadd R0 R1) (ecadd R1 R1)
    else ladderLoop k i (ecadd R0 R0) (ecadd R0 R1)

/-- `ladder(k, P)`: the Montgomery ladder, most significant bit first (R116). -/
def ladder (k : Nat) (P : Point) : Point := ladderLoop k 256 identityPoint (ecOperand P)

/-- The prefix of a compressed encoding: the parity of `Y mod p` (R121). -/
def parityPrefix (y : Nat) : Byte := if fred y % 2 = 0 then 0x02 else 0x03

/-- Byte `i` of `encode((X, Y, 0))`: the prefix, then `be32(X mod p)` (R121). -/
def encodeByte (x y : Coord) (i : Nat) : Byte :=
  if i = 0 then parityPrefix y.toNat else be32Byte (fred x.toNat) (i - 1)

/-- `encode(R)`: the 33-byte compressed form; the identity has none (R121). -/
def encodePoint (R : Point) : Except ErrCode (Vector Byte 33) :=
  if R.inf then .error .identityNoEncoding
  else .ok (Vector.ofFn fun i : Fin 33 => encodeByte R.x R.y i.val)

/-- `(p + 1) / 4`, the square-root exponent (R10). -/
def sqrtExponent : Nat := (fieldP + 1) / 4

/-- The Y of a compressed encoding: `(X³ + 7)^((p+1)/4) mod p`, negated when its parity is not the prefix's
(R123). -/
def decodeY (x : Nat) (prefixByte : Byte) : Nat :=
  let y := powMod ((x ^ 3 + 7) % fieldP) sqrtExponent fieldP
  if y % 2 = prefixByte.toNat - 2 then y else (fieldP - y) % fieldP

/-- `decode(b)` for the string `PB[0 .. len−1]` (R123). Only the lengths 65 and 33 are read, so a length past
the buffer fails. -/
def decodePoint (len : Nat) (pb : Vector Byte 65) : Except ErrCode Point :=
  if len = 65 ∧ pb[0] = 0x04 then
    .ok { x := BitVec.ofNat 256 (beField pb 1), y := BitVec.ofNat 256 (beField pb 33), inf := false }
  else if len = 33 ∧ (pb[0] = 0x02 ∨ pb[0] = 0x03) then
    .ok { x := BitVec.ofNat 256 (beField pb 1),
          y := BitVec.ofNat 256 (decodeY (beField pb 1) pb[0]), inf := false }
  else .error .invalidEncoding

end Sys2Proof.Machine
end

