-- ==== Sys2Proof/Machine/Operands.lean ====
section
/-! DEFINITION. Where operands come from and where results go: the register accessors, the selected modulus
and the point operands (R20 to R24, R49, R50, R80, R82, R105). -/

namespace Sys2Proof.Machine

/-- The value of a wide register (R20). -/
def getWide (r : WideReg) (s : State) : Nat :=
  match r with
  | .A => s.a
  | .B => s.b
  | .E => s.e
  | .M => s.m
  | .D => s.d

/-- Write a whole wide register. -/
def setWide (r : WideReg) (x : Nat) (s : State) : State :=
  match r with
  | .A => { s with a := x }
  | .B => { s with b := x }
  | .E => { s with e := x }
  | .M => { s with m := x }
  | .D => { s with d := x }

/-- The value of a 256-bit register (R22, R23). -/
def getCoord (r : CoordReg) (s : State) : Coord :=
  match r with
  | .PX => s.px
  | .PY => s.py
  | .QX => s.qx
  | .QY => s.qy
  | .RX => s.rx
  | .RY => s.ry
  | .K => s.k

/-- Write a whole 256-bit register. -/
def setCoord (r : CoordReg) (x : Coord) (s : State) : State :=
  match r with
  | .PX => { s with px := x }
  | .PY => { s with py := x }
  | .QX => { s with qx := x }
  | .QY => { s with qy := x }
  | .RX => { s with rx := x }
  | .RY => { s with ry := x }
  | .K => { s with k := x }

/-- Point P as an operand (R105). -/
def pointP (s : State) : Point := { x := s.px, y := s.py, inf := s.pinf }

/-- Point Q as an operand (R105). -/
def pointQ (s : State) : Point := { x := s.qx, y := s.qy, inf := s.qinf }

/-- Point R as an operand (R105). -/
def pointR (s : State) : Point := { x := s.rx, y := s.ry, inf := s.rinf }

/-- Write a result point to RX, RY and RINF (R109, R114, R117). -/
def writeR (P : Point) (s : State) : State := { s with rx := P.x, ry := P.y, rinf := P.inf }

/-- Write a decoded point to PX, PY and PINF (R124). -/
def writeP (P : Point) (s : State) : State := { s with px := P.x, py := P.y, pinf := P.inf }

/-- `D <- zext_MAXBITS(r)` (R82). A result is below its modulus, so it fits: `step_keeps` proves it. -/
def writeD (r : Nat) (s : State) : State := { s with d := r }

/-- `PB[0..32] <- b`, `PBLEN <- 33`, and `PB[33..64]` unchanged (R122). -/
def writeCompressed (b : Vector Byte 33) (s : State) : State :=
  { s with pb := compressedPb b s.pb, pblen := 33 }

/-- SETMOD's destinations: `MCONST <- (M, L)`, `MRDY <- 1`, `MLEN <- L / 32` (R84). -/
def writeModulus (m l : Nat) (s : State) : State :=
  { s with
    mconst := some { muser := m, luser := l }
    mrdy := true
    mlen := BitVec.ofNat 8 (l / 32) }

/-- `(Msel, Lsel)` after the checks of R73, in their order: BAD_MODSEL, then MOD_NOT_READY (R80, R81). MCONST
is "invalid" exactly when MRDY = 0, so the last line is never reached. -/
def selectModulus (ms : ModSel) (s : State) : Except ErrCode (Nat × Nat) :=
  match ms with
  | .p => .ok (fieldP, 256)
  | .n => .ok (orderN, 256)
  | .reserved => .error .badModsel
  | .user =>
    if s.mrdy then
      match s.mconst with
      | some c => .ok (c.muser, c.luser)
      | none => .error .modNotReady
    else .error .modNotReady

end Sys2Proof.Machine
end

