-- ==== Sys2Proof/Machine/Flags.lean ====
section
/-! DEFINITION. The control and status words as the bus reads them, the error codes and the interrupt output
(R26 to R40, R133). Every reserved bit reads 0 (R56). -/

namespace Sys2Proof.Machine

/-- The number of each error (R133). -/
def ErrCode.code : ErrCode → BitVec 8
  | .none => 0x00
  | .illegalOpcode => 0x01
  | .badModsel => 0x02
  | .modNotReady => 0x03
  | .modZero => 0x04
  | .modEven => 0x05
  | .invalidEncoding => 0x10
  | .identityNoEncoding => 0x11

/-- ID: "MM", version 1.0 (R26). -/
def idWord : Word := 0x4D4D0100

/-- CFG: bits 15:0 read `MAXBITS` (R27). -/
def cfgWord (s : State) : Word := placeAt 0 (BitVec.ofNat 16 s.cfg.maxBits)

/-- CTRL: OPC in bits 15:8 and MODSEL in bits 17:16; START and SRST read 0 (R28). -/
def ctrlWord (s : State) : Word := placeAt 8 s.opc ||| placeAt 16 s.modsel

/-- STATUS: BUSY, DONE, ERR, WERR and MRDY in bits 0 to 4, ERRCODE in bits 15:8 (R29). -/
def statusWord (s : State) : Word :=
  placeAt 0 (BitVec.ofBool s.busy) ||| placeAt 1 (BitVec.ofBool s.done) ||| placeAt 2 (BitVec.ofBool s.err)
    ||| placeAt 3 (BitVec.ofBool s.werr) ||| placeAt 4 (BitVec.ofBool s.mrdy) ||| placeAt 8 s.errcode.code

/-- INT_EN: bit 0 is DONE_IE (R35). -/
def intEnWord (s : State) : Word := placeAt 0 (BitVec.ofBool s.doneIe)

/-- INT_STAT: bit 0 is DONE_IP (R36). -/
def intStatWord (s : State) : Word := placeAt 0 (BitVec.ofBool s.doneIp)

/-- MLEN: the limb count while MRDY = 1, and 0 while MRDY = 0 (R37). -/
def mlenWord (s : State) : Word := placeAt 0 (if s.mrdy then s.mlen else 0)

/-- PFLAGS: PINF, QINF and RINF in bits 0, 1 and 2 (R38). -/
def pflagsWord (s : State) : Word :=
  placeAt 0 (BitVec.ofBool s.pinf) ||| placeAt 1 (BitVec.ofBool s.qinf) ||| placeAt 2 (BitVec.ofBool s.rinf)

/-- PBLEN in bits 6:0 (R39). -/
def pblenWord (s : State) : Word := placeAt 0 s.pblen

/-- The interrupt output, `IRQ = DONE_IP AND DONE_IE` (R40). -/
def irq (s : State) : Bool := s.doneIp && s.doneIe

/-- The platform's interrupt line `line` as the block drives it: only the line `MM_IRQ` (R145). -/
def irqLine (s : State) (line : Nat) : Bool := decide (line = s.cfg.mmIrq) && irq s

end Sys2Proof.Machine
end

