-- ==== Sys2Proof/Machine/Ops.lean ====
section
/-! DEFINITION. The named operations of the block: the register map, the bus primitives, issue, completion,
the one error entry and the acknowledge, and the resets (R48 to R60, R72, R73, R144, R147, R155 to R157). -/

namespace Sys2Proof.Machine

/-- A row of the register map: base offset, number of words, name (R48). -/
structure MapRow where
  base : Nat
  words : Nat
  name : RegName
  deriving DecidableEq, Repr

/-- The register map, without its reserved ranges (R48). -/
def regMap : List MapRow :=
  [ ⟨0x000, 1, .ID⟩, ⟨0x004, 1, .CFG⟩, ⟨0x008, 1, .CTRL⟩, ⟨0x00C, 1, .STATUS⟩, ⟨0x010, 1, .INT_EN⟩,
    ⟨0x014, 1, .INT_STAT⟩, ⟨0x018, 1, .MLEN⟩, ⟨0x01C, 1, .PFLAGS⟩, ⟨0x020, 1, .PBLEN⟩,
    ⟨0x200, 128, .wide .A⟩, ⟨0x400, 128, .wide .B⟩, ⟨0x600, 128, .wide .E⟩, ⟨0x800, 128, .wide .M⟩,
    ⟨0xA00, 128, .wide .D⟩, ⟨0xC00, 8, .coord .PX⟩, ⟨0xC20, 8, .coord .PY⟩, ⟨0xC40, 8, .coord .QX⟩,
    ⟨0xC60, 8, .coord .QY⟩, ⟨0xC80, 8, .coord .RX⟩, ⟨0xCA0, 8, .coord .RY⟩, ⟨0xCC0, 8, .coord .K⟩,
    ⟨0xD00, 17, .PB⟩ ]

/-- The register and the word index an offset names; `none` for a reserved offset (R48). -/
def locate (off : Nat) : Option (RegName × Nat) :=
  match regMap.find? (fun r => decide (r.base ≤ off) && decide (off < r.base + 4 * r.words)) with
  | some r => some (r.name, (off - r.base) / 4)
  | none => none

/-! ### Reads -/

/-- Word `j` of a register, as `Read` gives it (R49 to R51, R26 to R39). A word at or past MAXWORDS reads 0. -/
def readReg (name : RegName) (j : Nat) (s : State) : Word :=
  match name with
  | .ID => idWord
  | .CFG => cfgWord s
  | .CTRL => ctrlWord s
  | .STATUS => statusWord s
  | .INT_EN => intEnWord s
  | .INT_STAT => intStatWord s
  | .MLEN => mlenWord s
  | .PFLAGS => pflagsWord s
  | .PBLEN => pblenWord s
  | .wide r => if j < s.cfg.maxWords then wordOf (getWide r s) j else 0
  | .coord r => wordOf (getCoord r s).toNat j
  | .PB => pbWord s.pb j

/-- `Read(off)` for an aligned offset: reserved offsets read 0 (R56, R57). -/
def readWindow (off : Nat) (s : State) : Word :=
  match locate off with
  | some (name, j) => readReg name j s
  | none => 0

/-! ### Resets -/

/-- Every element of the block's state at its reset value; the parameters and the host side are not the
block's (R156). Hard reset and soft reset are this one operation (R155, R157). -/
def resetBlock (s : State) : State := State.resetWith s.cfg s.schedule s.reply

/-! ### Issue and completion -/

/-- A CTRL write stores OPC and MODSEL (R57). -/
def storeCtrl (v : Word) (s : State) : State := { s with opc := Word.opc v, modsel := Word.modsel v }

/-- `IssueCommand()` (R72). -/
def issueCommand (s : State) : State :=
  { s with
    latchOpc := s.opc
    latchModsel := s.modsel
    busy := true
    done := false
    err := false
    errcode := .none }

/-- The status fields every completion writes, whatever its outcome (R73). -/
def finish (err : Bool) (code : ErrCode) (s : State) : State :=
  { s with err := err, errcode := code, busy := false, done := true, doneIp := true }

/-- Error entry, the one operation every error of a command takes: ERR and ERRCODE record it, the completion
fields are written as for a success, and nothing else changes (R73, R144). -/
def raiseEngineError (code : ErrCode) (s : State) : State := finish true code s

/-- Completion with outcome `Ok(W)`: `s` already holds the writes `W` (R73). -/
def completeOk (s : State) : State := finish false .none s

/-- The host's return from a completion: `mmack` clears DONE_IP and nothing else (R36, R147). -/
def acknowledge (s : State) : State := { s with doneIp := false }

/-- `Complete()` for an outcome: apply every register write at once, or record the error (R73). -/
def complete (outcome : Except ErrCode State) (s : State) : State :=
  match outcome with
  | .ok t => completeOk t
  | .error code => raiseEngineError code s

/-- The shape of the nine commands of `MODCMDS`: the checks, then one result written to D (R73, R81, R82).
`f` gives the result from `Msel` and `Lsel`. -/
def modCommand (ms : ModSel) (f : Nat → Nat → Nat) (s : State) : Except ErrCode State :=
  match selectModulus ms s with
  | .ok (m, l) => .ok (writeD (f m l) s)
  | .error code => .error code

/-! ### Writes -/

/-- A write dropped because BUSY = 1 changes nothing but WERR (R59). -/
def dropWrite (s : State) : State := { s with werr := true }

/-- `s` after an accepted write, or the dropped write while BUSY = 1 (R57, R59). -/
def unlessBusy (accept : State → State) (s : State) : State :=
  if s.busy then dropWrite s else accept s

/-- An accepted CTRL write without SRST: store the fields, then issue when START = 1 (R57). -/
def writeCtrl (v : Word) (s : State) : State :=
  if Word.start v then issueCommand (storeCtrl v s) else storeCtrl v s

/-- An accepted write to M invalidates the prepared modulus: MRDY reads 0, MCONST is invalid and MLEN reads 0
(R34, R37, R57, assumption 6). -/
def invalidateModulus (s : State) : State := { s with mrdy := false, mconst := none, mlen := 0 }

/-- An accepted write to word `j` of a wide register (R49, R57). -/
def writeWide (r : WideReg) (j : Nat) (v : Word) (s : State) : State :=
  if r = .M then invalidateModulus (setWide r (setWord (getWide r s) j v) s)
  else setWide r (setWord (getWide r s) j v) s

/-- An accepted write to word `j` of a 256-bit register (R50). -/
def writeCoord (r : CoordReg) (j : Nat) (v : Word) (s : State) : State :=
  setCoord r (BitVec.ofNat 256 (setWord (getCoord r s).toNat j v)) s

/-- An accepted PFLAGS write (R38). -/
def writePflags (v : Word) (s : State) : State :=
  { s with pinf := v.getLsbD 0, qinf := v.getLsbD 1, rinf := v.getLsbD 2 }

/-- An accepted PBLEN write keeps bits 6:0 (R39). -/
def writePblen (v : Word) (s : State) : State := { s with pblen := v.extractLsb' 0 7 }

/-- An accepted PB write (R51). -/
def writePb (j : Nat) (v : Word) (s : State) : State := { s with pb := setPbWord s.pb j v }

/-- A write of `v` to word `j` of a register, in the order of `BusWrite` (R57): the four writes that a busy
engine accepts, the ignored writes, then the writes that BUSY = 1 drops. -/
def writeReg (name : RegName) (j : Nat) (v : Word) (s : State) : State :=
  match name with
  | .CTRL => if Word.srst v then resetBlock s else unlessBusy (writeCtrl v) s
  | .INT_EN => { s with doneIe := v.getLsbD 0 }
  | .INT_STAT => if v.getLsbD 0 then acknowledge s else s
  | .STATUS => if v.getLsbD 3 then { s with werr := false } else s
  | .ID => s
  | .CFG => s
  | .MLEN => s
  | .wide r => if j < s.cfg.maxWords then unlessBusy (writeWide r j v) s else s
  | .coord r => unlessBusy (writeCoord r j v) s
  | .PFLAGS => unlessBusy (writePflags v) s
  | .PBLEN => unlessBusy (writePblen v) s
  | .PB => unlessBusy (writePb j v) s

/-- `BusWrite(off, v)` for an aligned 32-bit access: a reserved offset is ignored (R56, R57). -/
def writeWindow (off : Nat) (v : Word) (s : State) : State :=
  match locate off with
  | some (name, j) => writeReg name j v s
  | none => s

/-! ### Bus accesses -/

/-- The offset of a bus access, or why it is refused (R53, R57, R58, R129). The checks are on the access alone,
so a refused access changes no state. -/
def busOffset (c : Config) (size addr : Nat) : Except Fault Nat :=
  if c.mmBase ≤ addr ∧ addr < c.mmBase + 0x1000 then
    if (addr - c.mmBase) % 4 = 0 ∧ size = 32 then .ok (addr - c.mmBase) else .error (.busError addr)
  else .error (.outsideWindow addr)

/-- `BusRead` at a bus address: the word goes to the host and the block does not change (R55, R57). -/
def busRead (size addr : Nat) (s : State) : Host.Outcome State Fault Refusal :=
  match busOffset s.cfg size addr with
  | .ok off => .next { s with reply := some (readWindow off s) }
  | .error f => .fault f

/-- `BusWrite` at a bus address (R57). -/
def busWrite (size addr : Nat) (v : Word) (s : State) : Host.Outcome State Fault Refusal :=
  match busOffset s.cfg size addr with
  | .ok off => .next (writeWindow off v s)
  | .error f => .fault f

end Sys2Proof.Machine
end

