-- ==== Sys2Proof/Machine/Control.lean ====
section
/-! DEFINITION. The completion of NOP and SETMOD (R83, R84). -/

namespace Sys2Proof.Machine

/-- NOP succeeds and writes nothing (R83). -/
def execNop (s : State) : Host.Outcome State Fault Refusal := .next (complete (.ok s) s)

/-- SETMOD's outcome: MOD_ZERO before MOD_EVEN, else the prepared modulus (R84, R143). -/
def setmodOutcome (s : State) : Except ErrCode State :=
  if s.m = 0 then .error .modZero
  else if s.m % 2 = 0 then .error .modEven
  else .ok (writeModulus s.m (radixBits s.m) s)

/-- SETMOD prepares the user modulus from register M (R84). -/
def execSetmod (s : State) : Host.Outcome State Fault Refusal := .next (complete (setmodOutcome s) s)

end Sys2Proof.Machine
end

