-- ==== Sys2Proof/Machine/Modular.lean ====
section
/-! DEFINITION. The completion of the modular commands: MONTMUL, TOMONT, FROMMONT, MODMUL, MODADD, MODSUB,
MODRED (R85 to R91), MODEXP (R98) and MODINV (R99). -/

namespace Sys2Proof.Machine

/-- MONTMUL: `D <- (A · B · Rinv) mod Msel` (R85). -/
def execMontmul (ms : ModSel) (s : State) : Host.Outcome State Fault Refusal :=
  .next (complete (modCommand ms (fun m l => s.a * s.b * radixInv m l % m) s) s)

/-- TOMONT: `D <- (A · Rsel) mod Msel` (R86). -/
def execTomont (ms : ModSel) (s : State) : Host.Outcome State Fault Refusal :=
  .next (complete (modCommand ms (fun m l => s.a * 2 ^ l % m) s) s)

/-- FROMMONT: `D <- (A · Rinv) mod Msel` (R87). -/
def execFrommont (ms : ModSel) (s : State) : Host.Outcome State Fault Refusal :=
  .next (complete (modCommand ms (fun m l => s.a * radixInv m l % m) s) s)

/-- MODMUL: `D <- (A · B) mod Msel` (R88). -/
def execModmul (ms : ModSel) (s : State) : Host.Outcome State Fault Refusal :=
  .next (complete (modCommand ms (fun m _ => s.a * s.b % m) s) s)

/-- MODADD: `D <- (A + B) mod Msel` (R89). -/
def execModadd (ms : ModSel) (s : State) : Host.Outcome State Fault Refusal :=
  .next (complete (modCommand ms (fun m _ => (s.a + s.b) % m) s) s)

/-- MODSUB: `D <- (A − B) mod Msel`, the difference taken over the integers (R90). -/
def execModsub (ms : ModSel) (s : State) : Host.Outcome State Fault Refusal :=
  .next (complete (modCommand ms (fun m _ => residue ((s.a : Int) - s.b) m) s) s)

/-- MODRED: `D <- A mod Msel` (R91). -/
def execModred (ms : ModSel) (s : State) : Host.Outcome State Fault Refusal :=
  .next (complete (modCommand ms (fun m _ => s.a % m) s) s)

/-- MODEXP: `D <- (A ^ E) mod Msel`, with `A^0 = 1` for every A (R98, R100). -/
def execModexp (ms : ModSel) (s : State) : Host.Outcome State Fault Refusal :=
  .next (complete (modCommand ms (fun m _ => powMod s.a s.e m) s) s)

/-- MODINV: `D <- (A ^ (Msel − 2)) mod Msel`, and 0 when `Msel = 1`; E is not read (R99). -/
def execModinv (ms : ModSel) (s : State) : Host.Outcome State Fault Refusal :=
  .next (complete (modCommand ms (fun m _ => fermatInv s.a m) s) s)

end Sys2Proof.Machine
end

