-- ==== Sys2Proof/Machine/Points.lean ====
section
/-! DEFINITION. The completion of the curve commands: ECADD (R109), ECMUL (R114), ECMUL_LADDER (R117),
COMPRESS (R122) and DECOMPRESS (R124). -/

namespace Sys2Proof.Machine

/-- ECADD: `R <- ecadd(P, Q)`; it cannot fail (R109). -/
def execEcadd (s : State) : Host.Outcome State Fault Refusal :=
  .next (complete (.ok (writeR (ecadd (pointP s) (pointQ s)) s)) s)

/-- ECMUL: `R <- ecmul(K, P)`; it cannot fail (R114). -/
def execEcmul (s : State) : Host.Outcome State Fault Refusal :=
  .next (complete (.ok (writeR (ecmul s.k.toNat (pointP s)) s)) s)

/-- ECMUL_LADDER: `R <- ladder(K, P)`; it cannot fail (R117). -/
def execEcmulLadder (s : State) : Host.Outcome State Fault Refusal :=
  .next (complete (.ok (writeR (ladder s.k.toNat (pointP s)) s)) s)

/-- COMPRESS's outcome: the identity has no encoding (R122). -/
def compressOutcome (s : State) : Except ErrCode State :=
  match encodePoint (pointR s) with
  | .ok b => .ok (writeCompressed b s)
  | .error code => .error code

/-- COMPRESS: `PB[0..32] <- encode(R)` and `PBLEN <- 33` (R122). -/
def execCompress (s : State) : Host.Outcome State Fault Refusal := .next (complete (compressOutcome s) s)

/-- DECOMPRESS's outcome: a string `decode` rejects is INVALID_ENCODING (R124). -/
def decompressOutcome (s : State) : Except ErrCode State :=
  match decodePoint s.pblen.toNat s.pb with
  | .ok P => .ok (writeP P s)
  | .error code => .error code

/-- DECOMPRESS: `P <- decode(PB[0 .. PBLEN−1])` (R124). -/
def execDecompress (s : State) : Host.Outcome State Fault Refusal := .next (complete (decompressOutcome s) s)

end Sys2Proof.Machine
end

