-- ==== Sys2Proof/Machine/Dispatch.lean ====
section
/-! DEFINITION. The completion step of each command: one arm per constructor, one meaning per arm (R73). -/

namespace Sys2Proof.Machine

def exec (i : Instr) (s : State) : Host.Outcome State Fault Refusal :=
  match i with
  | .nop => Sys2Proof.Machine.execNop s
  | .setmod => Sys2Proof.Machine.execSetmod s
  | .montmul ms => Sys2Proof.Machine.execMontmul ms s
  | .tomont ms => Sys2Proof.Machine.execTomont ms s
  | .frommont ms => Sys2Proof.Machine.execFrommont ms s
  | .modmul ms => Sys2Proof.Machine.execModmul ms s
  | .modadd ms => Sys2Proof.Machine.execModadd ms s
  | .modsub ms => Sys2Proof.Machine.execModsub ms s
  | .modred ms => Sys2Proof.Machine.execModred ms s
  | .modexp ms => Sys2Proof.Machine.execModexp ms s
  | .modinv ms => Sys2Proof.Machine.execModinv ms s
  | .ecadd => Sys2Proof.Machine.execEcadd s
  | .ecmul => Sys2Proof.Machine.execEcmul s
  | .ecmulLadder => Sys2Proof.Machine.execEcmulLadder s
  | .compress => Sys2Proof.Machine.execCompress s
  | .decompress => Sys2Proof.Machine.execDecompress s

end Sys2Proof.Machine
end

