-- ==== Sys2Proof/Machine/Engine.lean ====
section
/-! DEFINITION. Who moves: the engine's completion step, and one event of the schedule (R16, R63, R73). -/

namespace Sys2Proof.Machine

/-- The engine's only step, for a command in flight: decode the latch and complete the command; an illegal OPC
completes with ILLEGAL_OPCODE before anything else is looked at (R73, R134). -/
def completeStep (s : State) : Host.Outcome State Fault Refusal :=
  match decodeCommand s.latchOpc s.latchModsel with
  | .ok i => exec i s
  | .error _ => .next (raiseEngineError .illegalOpcode s)

/-- The engine's turn: completion is enabled exactly when BUSY = 1; otherwise the block is idle (R73). -/
def engineStep (s : State) : Host.Outcome State Fault Refusal :=
  if s.busy then completeStep s else .next s

/-- One event, at a state it has been taken from (R63, R155). -/
def eventStep (ev : Event) (s : State) : Host.Outcome State Fault Refusal :=
  match ev with
  | .engine => engineStep s
  | .read size addr => busRead size addr s
  | .write size addr v => busWrite size addr v s
  | .hardReset => .next (resetBlock s)

/-- `s` with the command word `v` in flight and the engine's turn next: what an accepted CTRL write of `v`
leaves (R72). A word that is no command changes nothing. -/
def placeCommand (v : Word) (s : State) : State :=
  if Word.srst v || !Word.start v then s
  else { issueCommand (storeCtrl v s) with schedule := .engine :: s.schedule }

end Sys2Proof.Machine
end

