-- ==== Sys2Proof/Machine/Step.lean ====
section
/-! DEFINITION. One step of the block. -/

namespace Sys2Proof.Machine

/-- One step. The schedule names the agent that moves (R63, R73). With no event left a command in flight
completes, which is the progress R167 assumes, and an idle block stays as it is (assumptions 1 and 3). -/
def step (s : State) : Host.Outcome State Fault Refusal :=
  match s.schedule with
  | [] => engineStep s
  | ev :: rest => eventStep ev { s with schedule := rest }

/-- `s` with the table word `w` where a step finds its next command. The block has no instruction memory and
no program counter; the nearest thing to a fetched instruction is the command latch (R25, assumption 4). -/
def State.withFetchWord (s : State) (nbits w : Nat) : State :=
  placeCommand (BitVec.ofNat 32 (w % 2 ^ nbits)) s

end Sys2Proof.Machine
end

