-- ==== Sys2Proof/Machine/Program.lean ====
section
/-! DEFINITION. The host assembly notation: each pseudo-instruction as the bus accesses it stands for (R78,
R79). A host program is any sequence of accesses; what it decides from a read is its own control flow (R128). -/

namespace Sys2Proof.Machine

/-- `mmwr OFF, VAL` (R78). -/
def mmwr (c : Config) (off : Nat) (v : Word) : Event := .write 32 (c.mmBase + off) v

/-- `mmrd OFF` (R78). -/
def mmrd (c : Config) (off : Nat) : Event := .read 32 (c.mmBase + off)

/-- `mmcmd OP, MS` (R79). -/
def mmcmd (c : Config) (i : Instr) : Event := mmwr c 0x008 (encode i)

/-- `mmwait` when `polls` reads of STATUS come before the completion (R79). Without a command in flight the
engine's turn does nothing. -/
def mmwait (c : Config) (polls : Nat) : List Event :=
  List.replicate polls (mmrd c 0x00C) ++ [.engine, mmrd c 0x00C]

/-- `mmack` (R79). -/
def mmack (c : Config) : Event := mmwr c 0x014 1

/-- `mmsrst` (R79). -/
def mmsrst (c : Config) : Event := mmwr c 0x008 0x80000000

/-- The window base of a wide register (R48). -/
def wideBase : WideReg → Nat
  | .A => 0x200
  | .B => 0x400
  | .E => 0x600
  | .M => 0x800
  | .D => 0xA00

/-- The window base of a 256-bit register (R48). -/
def coordBase : CoordReg → Nat
  | .PX => 0xC00
  | .PY => 0xC20
  | .QX => 0xC40
  | .QY => 0xC60
  | .RX => 0xC80
  | .RY => 0xCA0
  | .K => 0xCC0

/-- `mmld REG, x` for a wide register: every word is written, zeros included (R79). -/
def mmldWide (c : Config) (r : WideReg) (x : Nat) : List Event :=
  (List.range c.maxWords).map fun j => mmwr c (wideBase r + 4 * j) (wordOf x j)

/-- `mmld REG, x` for a 256-bit register (R79). -/
def mmldCoord (c : Config) (r : CoordReg) (x : Nat) : List Event :=
  (List.range 8).map fun j => mmwr c (coordBase r + 4 * j) (wordOf x j)

/-- `mmrdreg REG` for a wide register (R79). -/
def mmrdregWide (c : Config) (r : WideReg) : List Event :=
  (List.range c.maxWords).map fun j => mmrd c (wideBase r + 4 * j)

/-- `mmrdreg REG` for a 256-bit register (R79). -/
def mmrdregCoord (c : Config) (r : CoordReg) : List Event :=
  (List.range 8).map fun j => mmrd c (coordBase r + 4 * j)

/-- Word `j` of a byte string as PB holds it; bytes past the end are 0 (R51, R79). -/
def stringWord (b : List Byte) (j : Nat) : Word :=
  placeAt 0 (b.getD (4 * j) 0) ||| placeAt 8 (b.getD (4 * j + 1) 0) ||| placeAt 16 (b.getD (4 * j + 2) 0)
    ||| placeAt 24 (b.getD (4 * j + 3) 0)

/-- `mmldpb s`: the 17 words of PB, then PBLEN (R79). -/
def mmldpb (c : Config) (b : List Byte) : List Event :=
  (List.range 17).map (fun j => mmwr c (0xD00 + 4 * j) (stringWord b j)) ++
    [mmwr c 0x020 (BitVec.ofNat 32 b.length)]

end Sys2Proof.Machine
end

