-- ==== Sys2Proof/Safety.lean ====
section
/-! DEFINITION. The terms claims use: the invariant of the block, what a lawful host does, whose turn it is, and
runs of several steps. -/

namespace Sys2Proof.Machine

/-- What every reachable state satisfies. -/
structure Inv (s : State) : Prop where
  /-- The parameters are in range (R8). -/
  cfg : s.cfg.wf = true
  /-- A wide register holds a number below `2^MAXBITS` (R20). -/
  wide : ∀ r : WideReg, getWide r s < 2 ^ s.cfg.maxBits
  /-- MRDY = 1 means that MCONST and MLEN hold the constants of the current, odd M (R34, R37, R42). -/
  ready : s.mrdy = true → s.m % 2 = 1 ∧ s.mconst = some { muser := s.m, luser := radixBits s.m } ∧
    s.mlen = BitVec.ofNat 8 (radixBits s.m / 32)
  /-- MRDY = 0 means that MCONST is invalid and MLEN is 0 (R37, R42). -/
  unready : s.mrdy = false → s.mconst = none ∧ s.mlen = 0
  /-- While BUSY = 1, STATUS shows DONE = 0, ERR = 0 and ERRCODE = 0 (R60). -/
  inFlight : s.busy = true → s.done = false ∧ s.err = false ∧ s.errcode = .none
  /-- ERR = 1 exactly when ERRCODE is an error (R32). -/
  errAgrees : s.err = true ↔ s.errcode ≠ .none
  /-- An error is only shown after a completion (R32). -/
  errDone : s.err = true → s.done = true

/-- An access the block serves: 32 bits, aligned, inside the window (R47, R53). -/
def served (c : Config) (size addr : Nat) : Prop :=
  size = 32 ∧ c.mmBase ≤ addr ∧ addr < c.mmBase + 0x1000 ∧ (addr - c.mmBase) % 4 = 0

/-- An event that a lawful host and platform produce. -/
def lawful (c : Config) : Event → Prop
  | .read size addr => served c size addr
  | .write size addr _ => served c size addr
  | .engine => True
  | .hardReset => True

/-- Every event still to come is lawful. -/
def SafeSchedule (s : State) : Prop := ∀ ev ∈ s.schedule, lawful s.cfg ev

/-- The next event is the engine's: it is scheduled, or nothing else is left to happen (R16, R73). -/
def engineTurn (s : State) : Prop := s.schedule = [] ∨ ∃ rest, s.schedule = .engine :: rest

/-- The next event is a write of `v` at offset `off`, with `rest` after it. -/
def hostWrites (s : State) (off : Nat) (v : Word) (rest : List Event) : Prop :=
  s.schedule = .write 32 (s.cfg.mmBase + off) v :: rest

/-- The next event is a read at offset `off`, with `rest` after it. -/
def hostReads (s : State) (off : Nat) (rest : List Event) : Prop :=
  s.schedule = .read 32 (s.cfg.mmBase + off) :: rest

/-- The next event resets the block: the reset input, or a CTRL write with SRST = 1 (R155). -/
def resetsNext (s : State) : Prop :=
  ∃ rest, s.schedule = .hardReset :: rest ∨ ∃ v : Word, v.getLsbD 31 = true ∧ hostWrites s 0x008 v rest

/-- `(Msel, Lsel)` is what MODSEL selects, when it selects a modulus (R80, R81). -/
def Selects (ms : ModSel) (s : State) (m l : Nat) : Prop :=
  (ms = .p ∧ m = fieldP ∧ l = 256) ∨ (ms = .n ∧ m = orderN ∧ l = 256) ∨
    (ms = .user ∧ s.mrdy = true ∧ s.mconst = some { muser := m, luser := l })

/-- A read, or a write that is not a soft reset: what a host may do while a command is in flight without
discarding it (R73). -/
def harmless (c : Config) : Event → Prop
  | .read size addr => served c size addr
  | .write size addr v => served c size addr ∧ ¬ (addr = c.mmBase + 0x008 ∧ v.getLsbD 31 = true)
  | .engine => False
  | .hardReset => False

/-- A START is accepted: the next event writes CTRL with SRST = 0 and START = 1, and no command is in flight
(R72). -/
def acceptsStart (s : State) : Prop :=
  s.busy = false ∧ ∃ (v : Word) (rest : List Event),
    v.getLsbD 31 = false ∧ v.getLsbD 0 = true ∧ hostWrites s 0x008 v rest

/-- The command in flight completes next (R73). -/
def completesNext (s : State) : Prop := s.busy = true ∧ engineTurn s

/-- The next event is an accepted write to a word of M (R34). -/
def writesModulusNext (s : State) : Prop :=
  s.busy = false ∧ ∃ (j : Nat) (v : Word) (rest : List Event),
    j < 128 ∧ j < s.cfg.maxWords ∧ hostWrites s (0x800 + 4 * j) v rest

/-- The next event is a write of 1 to INT_STAT bit 0 (R36). -/
def acknowledgesNext (s : State) : Prop :=
  ∃ (v : Word) (rest : List Event), v.getLsbD 0 = true ∧ hostWrites s 0x014 v rest

/-- The next event is a write of 1 to STATUS bit 3 (R33). -/
def clearsWerrNext (s : State) : Prop :=
  ∃ (v : Word) (rest : List Event), v.getLsbD 3 = true ∧ hostWrites s 0x00C v rest

/-- The offsets whose writes a busy engine drops: CTRL, PFLAGS, PBLEN, the existing words of A, B, E, M and D,
the point registers and K, and PB (R59). -/
def lockedOffset (c : Config) (off : Nat) : Prop :=
  off = 0x008 ∨ off = 0x01C ∨ off = 0x020 ∨
    (0x200 ≤ off ∧ off < 0xC00 ∧ off % 0x200 / 4 < c.maxWords) ∨ (0xC00 ≤ off ∧ off < 0xCE0) ∨
    (0xD00 ≤ off ∧ off < 0xD44)

/-- The offsets with no register: the ranges R48 marks reserved, and the words past MAXWORDS (R56). -/
def reservedOffset (c : Config) (off : Nat) : Prop :=
  (0x024 ≤ off ∧ off < 0x200) ∨ (0x200 ≤ off ∧ off < 0xC00 ∧ c.maxWords ≤ off % 0x200 / 4) ∨
    (0xCE0 ≤ off ∧ off < 0xD00) ∨ (0xD44 ≤ off ∧ off < 0x1000)

/-- A write to a locked offset while BUSY = 1, other than a soft reset (R59). -/
def dropsWriteNext (s : State) : Prop :=
  s.busy = true ∧ ∃ (off : Nat) (v : Word) (rest : List Event), off % 4 = 0 ∧ lockedOffset s.cfg off ∧
    ¬ (off = 0x008 ∧ v.getLsbD 31 = true) ∧ hostWrites s off v rest

/-- The reserved bits of the register at an offset (R26 to R39, R51). -/
def reservedBits (off : Nat) : Word :=
  if off = 0x004 then 0xFFFF0000
  else if off = 0x008 then 0x7FFC00FE
  else if off = 0x00C then 0xFFFF00E0
  else if off = 0x010 then 0xFFFFFFFE
  else if off = 0x014 then 0xFFFFFFFE
  else if off = 0x018 then 0xFFFFFF00
  else if off = 0x01C then 0xFFFFFFF8
  else if off = 0x020 then 0xFFFFFF80
  else if off = 0xD40 then 0xFFFFFF00
  else 0

/-- The 240 values of OPC that are no command (R74). -/
def illegalOpc (opc : BitVec 8) : Prop :=
  (0x0B ≤ opc.toNat ∧ opc.toNat ≤ 0x0F) ∨ (0x13 ≤ opc.toNat ∧ opc.toNat ≤ 0x17) ∨ 0x1A ≤ opc.toNat

/-- `be(PB[start .. start+31])` as R14 writes it: the sum of the bytes times their powers of 256. -/
def bytesValue (pb : Vector Byte 65) (start : Nat) : Nat :=
  ((List.range 32).map fun i => (pbByte pb (start + i)).toNat * 256 ^ (31 - i)).sum

/-- `s` with the status a successful completion leaves (R73). -/
def succeeded (s : State) : State :=
  { s with err := false, errcode := .none, busy := false, done := true, doneIp := true }

/-- `s` with the status a failing completion leaves (R73, R144). -/
def failed (code : ErrCode) (s : State) : State :=
  { s with err := true, errcode := code, busy := false, done := true, doneIp := true }

/-- `r` is `Rinv` for the modulus `m` and the radix `2^l` (R80). -/
def IsRadixInverse (m l r : Nat) : Prop := r < m ∧ 2 ^ l * r % m = 1 % m

/-- A point of the secp256k1 curve with reduced coordinates, or the identity as the engine writes it (R38,
R111). -/
def OnCurve (P : Point) : Prop :=
  P = identityPoint ∨ (P.inf = false ∧ P.x.toNat < fieldP ∧ P.y.toNat < fieldP ∧
    P.y.toNat ^ 2 % fieldP = (P.x.toNat ^ 3 + 7) % fieldP)

/-- `G`, the secp256k1 base point. The block does not hold it: software loads it like any other point (R9). -/
def baseG : Point :=
  { x := 0x79BE667EF9DCBBAC55A06295CE870B07029BFCDB2DCE28D959F2815B16F81798,
    y := 0x483ADA7726A3C4655DA4FBFC0E1108A8FD17B448A68554199C47D08FFB10D4B8, inf := false }

/-- `k` steps, stopping at the first fault or refusal: `Host.Core.run` of this machine. -/
def run : Nat → State → Host.Outcome State Fault Refusal
  | 0, s => .next s
  | k + 1, s =>
    match step s with
    | .next t => run k t
    | .fault f => .fault f
    | .refused r => .refused r

end Sys2Proof.Machine
end

