-- ==== Sys2Proof/Certificates/Slice0/Obligations.lean ====
section
/-! DEFINITION. The statements for the provers. -/

open Sys2Proof Sys2Proof.Machine

/-! ### Encoding and decoding -/

/-- Command words that R68 and the command rules write out decode to the commands they stand for. -/
def Obligations.SpecWordsDecode : Prop :=
  decode 0x00000001 = .ok .nop ∧ decode 0x00000101 = .ok .setmod ∧
    decode 0x00000201 = .ok (.montmul .p) ∧ decode 0x00010201 = .ok (.montmul .n) ∧
    decode 0x00020201 = .ok (.montmul .user) ∧ decode 0x00020301 = .ok (.tomont .user) ∧
    decode 0x00000501 = .ok (.modmul .p) ∧ decode 0x00020901 = .ok (.modexp .user) ∧
    decode 0x00010A01 = .ok (.modinv .n) ∧ decode 0x00001001 = .ok .ecadd ∧ decode 0x00001101 = .ok .ecmul ∧
    decode 0x00001201 = .ok .ecmulLadder ∧ decode 0x00001801 = .ok .compress ∧
    decode 0x00001901 = .ok .decompress

/-- A word is the command `i` exactly when SRST is 0 and, with the reserved bits cleared (and MODSEL too where
the command ignores it), it is `(MODSEL << 16) | (OPC << 8) | 1` (R68, R70, R71, R75). -/
def Obligations.WordsOfACommand : Prop :=
  ∀ (v : Word) (i : Instr), decode v = .ok i ↔
    v &&& (if i.modsel?.isSome then 0x8003FF01#32 else 0x8000FF01#32) =
      (i.modselField.setWidth 32 <<< 16) ||| (i.opc.setWidth 32 <<< 8) ||| 1#32

/-- Decoding the encoding of a command gives the command back, with its MODSEL, also through the latch and as a
table word; and no two commands have one encoding. -/
def Obligations.EncodeThenDecode : Prop :=
  ∀ i : Instr, decode (encode i) = .ok i ∧ decodeCommand (Word.opc (encode i)) (Word.modsel (encode i)) = .ok i ∧
    decodeTableWord 32 (encode i).toNat = some i ∧ ∀ j : Instr, encode i = encode j → i = j

/-- `Decode` is total: the 240 values of OPC that R74 lists are illegal, every other value is the command with
that OPC, and MODSEL never changes which command it is. -/
def Obligations.DecodeIsTotal : Prop :=
  ∀ (opc : BitVec 8) (ms : BitVec 2),
    (illegalOpc opc → decodeCommand opc ms = .error (.illegalOpcode opc)) ∧
      (¬ illegalOpc opc → ∃ i, decodeCommand opc ms = .ok i ∧ i.opc = opc ∧
        (i.modsel?.isSome → i.modselField = ms))

/-! ### Issue and completion -/

/-- At the engine's turn, with a command in flight, a step is the completion of the command the latch decodes to,
after the engine's event is taken from the schedule (R73). -/
def Obligations.StepRunsLatchedCommand : Prop :=
  ∀ (s : State) (i : Instr), engineTurn s → s.busy = true →
    decodeCommand s.latchOpc s.latchModsel = .ok i → step s = exec i { s with schedule := s.schedule.tail }

/-- A START written while no command is in flight issues the command; one written while a command is in flight is
dropped (R72). -/
def Obligations.AcceptedStartIssues : Prop :=
  ∀ (s : State) (v : Word) (rest : List Event), hostWrites s 0x008 v rest → v.getLsbD 31 = false →
    v.getLsbD 0 = true →
    (s.busy = false → step s = .next { s with
      schedule := rest
      opc := v.extractLsb' 8 8
      modsel := v.extractLsb' 16 2
      latchOpc := v.extractLsb' 8 8
      latchModsel := v.extractLsb' 16 2
      busy := true
      done := false
      err := false
      errcode := .none }) ∧
    (s.busy = true → step s = .next { s with schedule := rest, werr := true })

/-- A command word runs its command: written to CTRL and followed by the engine's turn it is executed by the second
step, and placed by `withFetchWord` it is executed by the next step, in both cases on the operands as they stood. -/
def Obligations.CommandWordRuns : Prop :=
  (∀ (s : State) (v : Word) (i : Instr) (rest : List Event), decode v = .ok i → s.busy = false →
    hostWrites s 0x008 v (.engine :: rest) →
    run 2 s = exec i { s with
      schedule := rest
      opc := v.extractLsb' 8 8
      modsel := v.extractLsb' 16 2
      latchOpc := v.extractLsb' 8 8
      latchModsel := v.extractLsb' 16 2
      busy := true
      done := false
      err := false
      errcode := .none }) ∧
  (∀ (s : State) (nbits w : Nat) (i : Instr), decodeTableWord nbits w = some i →
    ∃ t : State, step (s.withFetchWord nbits w) = exec i t ∧ t.schedule = s.schedule ∧ t.cfg = s.cfg ∧
      t.a = s.a ∧ t.b = s.b ∧ t.e = s.e ∧ t.m = s.m ∧ t.d = s.d ∧ t.px = s.px ∧ t.py = s.py ∧ t.qx = s.qx ∧
      t.qy = s.qy ∧ t.rx = s.rx ∧ t.ry = s.ry ∧ t.k = s.k ∧ t.pb = s.pb ∧ t.pblen = s.pblen ∧
      t.pinf = s.pinf ∧ t.qinf = s.qinf ∧ t.rinf = s.rinf ∧ t.mrdy = s.mrdy ∧ t.mconst = s.mconst)

/-- An illegal opcode in the latch completes with ILLEGAL_OPCODE (0x01), whatever the latched MODSEL and the
operands (R134). -/
def Obligations.IllegalOpcodeCompletes : Prop :=
  ErrCode.illegalOpcode.code = 0x01 ∧
  ∀ s : State, engineTurn s → s.busy = true → illegalOpc s.latchOpc →
    step s = .next (failed .illegalOpcode { s with schedule := s.schedule.tail })

/-- Every command completes: it is never refused and never stops the block; BUSY is 0, DONE and DONE_IP are 1, and
ERR says whether ERRCODE is an error (R73, R132, R141). -/
def Obligations.EveryCommandCompletes : Prop :=
  ∀ (i : Instr) (s : State), ∃ t, exec i s = .next t ∧ t.busy = false ∧ t.done = true ∧ t.doneIp = true ∧
    (t.err = true ↔ t.errcode ≠ .none) ∧ t.schedule = s.schedule ∧ t.reply = s.reply ∧ t.cfg = s.cfg ∧
    t.opc = s.opc ∧ t.modsel = s.modsel ∧ t.latchOpc = s.latchOpc ∧ t.latchModsel = s.latchModsel ∧
    t.werr = s.werr ∧ t.doneIe = s.doneIe

/-- What each command may write: A, B, E, M, K, QX, QY and QINF never; D only by `MODCMDS`; R only by the three
point commands; P only by DECOMPRESS; PB and PBLEN only by COMPRESS; the prepared modulus only by SETMOD (R20 to
R24, R41). -/
def Obligations.CommandWritesFrame : Prop :=
  ∀ (i : Instr) (s t : State), exec i s = .next t →
    (t.a = s.a ∧ t.b = s.b ∧ t.e = s.e ∧ t.m = s.m ∧ t.k = s.k ∧ t.qx = s.qx ∧ t.qy = s.qy ∧ t.qinf = s.qinf) ∧
    (i.modsel? = none → t.d = s.d) ∧
    (i ≠ .ecadd → i ≠ .ecmul → i ≠ .ecmulLadder → t.rx = s.rx ∧ t.ry = s.ry ∧ t.rinf = s.rinf) ∧
    (i ≠ .decompress → t.px = s.px ∧ t.py = s.py ∧ t.pinf = s.pinf) ∧
    (i ≠ .compress → t.pb = s.pb ∧ t.pblen = s.pblen) ∧
    (i = .compress → ∀ j, 33 ≤ j → pbByte t.pb j = pbByte s.pb j) ∧
    (i ≠ .setmod → t.mconst = s.mconst ∧ t.mrdy = s.mrdy ∧ t.mlen = s.mlen)

/-- A command that fails changes nothing but the status fields, whether it is decoded or its opcode is illegal
(R144). -/
def Obligations.ErrorWritesNothingElse : Prop :=
  (∀ (i : Instr) (s t : State), exec i s = .next t → t.err = true → t = failed t.errcode s) ∧
  (∀ s t : State, completesNext s → step s = .next t → t.err = true →
    t = failed t.errcode { s with schedule := s.schedule.tail })

/-- Which error each command reports, in the order of R143, and under which number (R133, R135 to R140). -/
def Obligations.ErrorCodes : Prop :=
  (ErrCode.none.code = 0x00 ∧ ErrCode.illegalOpcode.code = 0x01 ∧ ErrCode.badModsel.code = 0x02 ∧
    ErrCode.modNotReady.code = 0x03 ∧ ErrCode.modZero.code = 0x04 ∧ ErrCode.modEven.code = 0x05 ∧
    ErrCode.invalidEncoding.code = 0x10 ∧ ErrCode.identityNoEncoding.code = 0x11) ∧
  ∀ (i : Instr) (s t : State), Inv s → exec i s = .next t →
    (∀ ms, i.modsel? = some ms → t.errcode =
      if ms = .reserved then .badModsel else if ms = .user ∧ s.mrdy = false then .modNotReady else .none) ∧
    (i = .setmod → t.errcode = if s.m = 0 then .modZero else if s.m % 2 = 0 then .modEven else .none) ∧
    (i = .compress → t.errcode = if s.rinf then .identityNoEncoding else .none) ∧
    (i = .decompress → t.errcode =
      if (s.pblen = 65 ∧ pbByte s.pb 0 = 0x04) ∨ (s.pblen = 33 ∧ pbByte s.pb 0 = 0x02) ∨
        (s.pblen = 33 ∧ pbByte s.pb 0 = 0x03) then .none else .invalidEncoding) ∧
    (i = .nop ∨ i = .ecadd ∨ i = .ecmul ∨ i = .ecmulLadder → t.errcode = .none)

/-- The nine commands of `MODCMDS` complete with BAD_MODSEL (0x02) when MODSEL = 3, and with MOD_NOT_READY (0x03)
when MODSEL = 2 and MRDY = 0, in every state (R135, R136). The other seven commands decode alike at every MODSEL. -/
def Obligations.ModselErrors : Prop :=
  (∀ (i : Instr) (s : State), i.modsel? = some .reserved → exec i s = .next (failed .badModsel s)) ∧
  (∀ (i : Instr) (s : State), i.modsel? = some .user → s.mrdy = false → exec i s = .next (failed .modNotReady s)) ∧
  (∀ (i : Instr) (ms : BitVec 2), i.modsel? = none → decodeCommand i.opc ms = .ok i)

/-! ### The bus -/

/-- Inside the window an access is served exactly when it is 32 bits wide at an offset that is a multiple of 4;
any other read or write is refused with BusError (R53). -/
def Obligations.AccessServedIffAligned : Prop :=
  ∀ (s : State) (ev : Event) (rest : List Event) (size addr : Nat), s.schedule = ev :: rest →
    (ev = .read size addr ∨ ∃ v, ev = .write size addr v) →
    s.cfg.mmBase ≤ addr → addr < s.cfg.mmBase + 0x1000 →
    ((∃ t, step s = .next t) ↔ size = 32 ∧ (addr - s.cfg.mmBase) % 4 = 0) ∧
    (¬ (size = 32 ∧ (addr - s.cfg.mmBase) % 4 = 0) → step s = .fault (.busError addr))

/-- A read returns the current word and changes nothing else, whether or not a command is in flight (R55, R57,
R60). -/
def Obligations.ReadsChangeNothing : Prop :=
  ∀ (s : State) (off : Nat) (rest : List Event), hostReads s off rest → off < 0x1000 → off % 4 = 0 →
    step s = .next { s with schedule := rest, reply := some (readWindow off s) }

/-- The control and status registers, bit by bit, as the bus reads them (R26 to R29, R35 to R39). -/
def Obligations.ControlRegistersRead : Prop :=
  ∀ s : State, Inv s →
    readWindow 0x000 s = 0x4D4D0100 ∧
    (readWindow 0x004 s).toNat = s.cfg.maxBits ∧
    (∀ i < 32, (readWindow 0x008 s).getLsbD i =
      if 8 ≤ i ∧ i < 16 then s.opc.getLsbD (i - 8) else if 16 ≤ i ∧ i < 18 then s.modsel.getLsbD (i - 16) else false) ∧
    (∀ i < 32, (readWindow 0x00C s).getLsbD i =
      if i = 0 then s.busy else if i = 1 then s.done else if i = 2 then s.err else if i = 3 then s.werr
      else if i = 4 then s.mrdy else if 8 ≤ i ∧ i < 16 then s.errcode.code.getLsbD (i - 8) else false) ∧
    (∀ i < 32, (readWindow 0x010 s).getLsbD i = if i = 0 then s.doneIe else false) ∧
    (∀ i < 32, (readWindow 0x014 s).getLsbD i = if i = 0 then s.doneIp else false) ∧
    (readWindow 0x018 s).toNat = (if s.mrdy then radixBits s.m / 32 else 0) ∧
    (∀ i < 32, (readWindow 0x01C s).getLsbD i =
      if i = 0 then s.pinf else if i = 1 then s.qinf else if i = 2 then s.rinf else false) ∧
    (readWindow 0x020 s).toNat = s.pblen.toNat

/-- The words of A, B, E, M and D: the word at base `b + 4j` with `j < MAXWORDS` is `X[32j+31 : 32j]`, an accepted
write sets exactly those bits, and the words from MAXWORDS up read 0 and ignore writes (R49). For M such a write also
discards the prepared modulus: that MCONST becomes invalid and the stored MLEN 0 is the model's reading of R34, R37 and
R57 against the end state of program P4 (log entry 6). -/
def Obligations.WideRegisterWords : Prop :=
  ∀ (s : State) (r : WideReg) (b j : Nat),
    (r = .A ∧ b = 0x200 ∨ r = .B ∧ b = 0x400 ∨ r = .E ∧ b = 0x600 ∨ r = .M ∧ b = 0x800 ∨ r = .D ∧ b = 0xA00) →
    j < 128 →
    (j < s.cfg.maxWords → (∀ i < 32, (readWindow (b + 4 * j) s).getLsbD i = (getWide r s).testBit (32 * j + i)) ∧
      ∀ (v : Word) (rest : List Event), s.busy = false → hostWrites s (b + 4 * j) v rest →
        ∃ x, (∀ i, x.testBit i =
            if 32 * j ≤ i ∧ i < 32 * j + 32 then v.getLsbD (i - 32 * j) else (getWide r s).testBit i) ∧
          step s = .next (if r = .M then { s with schedule := rest, m := x, mrdy := false, mconst := none, mlen := 0 }
            else setWide r x { s with schedule := rest })) ∧
    (s.cfg.maxWords ≤ j → readWindow (b + 4 * j) s = 0 ∧
      ∀ (v : Word) (rest : List Event), hostWrites s (b + 4 * j) v rest → step s = .next { s with schedule := rest })

/-- The words of the 256-bit registers, read and written as R49 says (R50). -/
def Obligations.CoordRegisterWords : Prop :=
  ∀ (s : State) (r : CoordReg) (b j : Nat),
    (r = .PX ∧ b = 0xC00 ∨ r = .PY ∧ b = 0xC20 ∨ r = .QX ∧ b = 0xC40 ∨ r = .QY ∧ b = 0xC60 ∨ r = .RX ∧ b = 0xC80 ∨
      r = .RY ∧ b = 0xCA0 ∨ r = .K ∧ b = 0xCC0) → j < 8 →
    (∀ i < 32, (readWindow (b + 4 * j) s).getLsbD i = (getCoord r s).getLsbD (32 * j + i)) ∧
      ∀ (v : Word) (rest : List Event), s.busy = false → hostWrites s (b + 4 * j) v rest →
        ∃ x : Coord, (∀ i < 256, x.getLsbD i =
            if 32 * j ≤ i ∧ i < 32 * j + 32 then v.getLsbD (i - 32 * j) else (getCoord r s).getLsbD i) ∧
          step s = .next (setCoord r x { s with schedule := rest })

/-- The words of the point buffer: bits `8k+7 : 8k` of word `j` are `PB[4j + k]`, bits 31:8 of word 16 read 0, and
an accepted write sets the bytes that exist and nothing else (R51). -/
def Obligations.PointBufferWords : Prop :=
  ∀ (s : State) (j : Nat), j ≤ 16 →
    (∀ k < 4, (readWindow (0xD00 + 4 * j) s).extractLsb' (8 * k) 8 =
      if 4 * j + k ≤ 64 then pbByte s.pb (4 * j + k) else 0) ∧
    ∀ (v : Word) (rest : List Event), s.busy = false → hostWrites s (0xD00 + 4 * j) v rest →
      ∃ pb, step s = .next { s with schedule := rest, pb := pb } ∧
        ∀ i ≤ 64, pbByte pb i = if i / 4 = j then v.extractLsb' (8 * (i % 4)) 8 else pbByte s.pb i

/-- An accepted write to a data word is what the next read of that word returns, and it changes no other word of the
window; a write to M also changes MRDY and MLEN (R55, R63). -/
def Obligations.ReadAfterWrite : Prop :=
  ∀ (s : State) (off : Nat) (v : Word) (rest : List Event), s.busy = false → hostWrites s off v rest →
    off % 4 = 0 → 0x200 ≤ off → lockedOffset s.cfg off →
    ∃ t, step s = .next t ∧ readWindow off t = (if off = 0xD40 then v &&& 0xFF else v) ∧
      ∀ other, other % 4 = 0 → other < 0x1000 → other ≠ off →
        (0x800 ≤ off ∧ off < 0xA00 → other ≠ 0x00C ∧ other ≠ 0x018) → readWindow other t = readWindow other s

/-- While a command is in flight a write is dropped, and sets WERR, except the four control writes; a write to a
reserved or read-only offset is ignored and does not set WERR (R59). -/
def Obligations.WritesWhileBusy : Prop :=
  ∀ (s : State) (off : Nat) (v : Word) (rest : List Event), s.busy = true → hostWrites s off v rest →
    off % 4 = 0 → off < 0x1000 →
    (off = 0x008 ∧ v.getLsbD 31 = true → step s = .next (State.resetWith s.cfg rest s.reply)) ∧
    (off = 0x010 → step s = .next { s with schedule := rest, doneIe := v.getLsbD 0 }) ∧
    (off = 0x014 → step s = .next { s with schedule := rest, doneIp := s.doneIp && !v.getLsbD 0 }) ∧
    (off = 0x00C → step s = .next { s with schedule := rest, werr := s.werr && !v.getLsbD 3 }) ∧
    (lockedOffset s.cfg off → ¬ (off = 0x008 ∧ v.getLsbD 31 = true) →
      step s = .next { s with schedule := rest, werr := true }) ∧
    (reservedOffset s.cfg off ∨ off = 0x000 ∨ off = 0x004 ∨ off = 0x018 → step s = .next { s with schedule := rest })

/-- Accepted writes to the control and flag registers while no command is in flight (R28, R33, R35, R36, R38, R39,
R77). -/
def Obligations.ControlWrites : Prop :=
  ∀ (s : State) (v : Word) (rest : List Event), s.busy = false →
    (hostWrites s 0x008 v rest → v.getLsbD 31 = false → v.getLsbD 0 = false →
      step s = .next { s with schedule := rest, opc := v.extractLsb' 8 8, modsel := v.extractLsb' 16 2 }) ∧
    (hostWrites s 0x00C v rest → step s = .next { s with schedule := rest, werr := s.werr && !v.getLsbD 3 }) ∧
    (hostWrites s 0x010 v rest → step s = .next { s with schedule := rest, doneIe := v.getLsbD 0 }) ∧
    (hostWrites s 0x014 v rest → step s = .next { s with schedule := rest, doneIp := s.doneIp && !v.getLsbD 0 }) ∧
    (hostWrites s 0x01C v rest → step s = .next
      { s with schedule := rest, pinf := v.getLsbD 0, qinf := v.getLsbD 1, rinf := v.getLsbD 2 }) ∧
    (hostWrites s 0x020 v rest → step s = .next { s with schedule := rest, pblen := v.extractLsb' 0 7 })

/-- Reserved offsets and bits read 0 and ignore writes, and writes to read-only registers and fields are ignored,
without an error and without WERR, whether or not a command is in flight (R56). -/
def Obligations.ReservedReadZeroWriteIgnored : Prop :=
  ∀ (s : State) (off : Nat), off % 4 = 0 → off < 0x1000 →
    (reservedOffset s.cfg off → readWindow off s = 0) ∧
    (s.cfg.wf = true → readWindow off s &&& reservedBits off = 0) ∧
    (∀ (v : Word) (rest : List Event), hostWrites s off v rest →
      (reservedOffset s.cfg off ∨ off = 0x000 ∨ off = 0x004 ∨ off = 0x018 ∨ (off = 0x00C ∧ v.getLsbD 3 = false) →
        step s = .next { s with schedule := rest })) ∧
    (∀ (v w : Word), v &&& ~~~ reservedBits off = w &&& ~~~ reservedBits off →
      busWrite 32 (s.cfg.mmBase + off) v s = busWrite 32 (s.cfg.mmBase + off) w s)

/-- Loading a register word by word leaves exactly the loaded number in it, whatever it held, and changes no other
data register (R79, R162). Loading M also discards the prepared modulus: that MCONST becomes invalid and the stored
MLEN 0 is the model's reading of R34, R37 and R57 against the end state of program P4 (log entry 6). -/
def Obligations.LoadingARegister : Prop :=
  (∀ (s : State) (r : WideReg) (x : Nat) (rest : List Event), Inv s → s.busy = false → x < 2 ^ s.cfg.maxBits →
    s.schedule = mmldWide s.cfg r x ++ rest → run s.cfg.maxWords s = .next
      (if r = .M then { s with schedule := rest, m := x, mrdy := false, mconst := none, mlen := 0 }
        else setWide r x { s with schedule := rest })) ∧
  (∀ (s : State) (r : CoordReg) (x : Coord) (rest : List Event), s.busy = false →
    s.schedule = mmldCoord s.cfg r x.toNat ++ rest → run 8 s = .next (setCoord r x { s with schedule := rest }))

/-! ### Reset, and what each status field can do -/

/-- The reset input and a soft reset, whatever the other bits of its word and whatever is in flight, leave one and
the same state: the reset state, with the parameters and the host side as they were (R155, R157). -/
def Obligations.SoftResetIsHardReset : Prop :=
  ∀ (s : State) (rest : List Event),
    (s.schedule = .hardReset :: rest → step s = .next (State.resetWith s.cfg rest s.reply)) ∧
    (∀ v : Word, v.getLsbD 31 = true → hostWrites s 0x008 v rest →
      step s = .next (State.resetWith s.cfg rest s.reply))

/-- After a reset every element of the block's state holds the value R156 lists: every word of the window reads 0
but ID and CFG, the hidden latch is 0, MCONST is invalid, P = (0, 0) is off the curve, and IRQ is 0. -/
def Obligations.ResetState : Prop :=
  ∀ (c : Config) (events : List Event) (reply : Option Word) (s : State), s = State.resetWith c events reply →
    (∀ r, getWide r s = 0) ∧ (∀ r, getCoord r s = 0) ∧ (∀ i, pbByte s.pb i = 0) ∧ s.pblen = 0 ∧
    (s.pinf = false ∧ s.qinf = false ∧ s.rinf = false) ∧ (s.opc = 0 ∧ s.modsel = 0) ∧
    (s.busy = false ∧ s.done = false ∧ s.err = false ∧ s.werr = false ∧ s.mrdy = false ∧ s.errcode = .none) ∧
    (s.doneIe = false ∧ s.doneIp = false ∧ irq s = false) ∧ s.mlen = 0 ∧
    (s.latchOpc = 0 ∧ s.latchModsel = 0 ∧ s.mconst = none) ∧ ¬ OnCurve (pointP s) ∧
    readWindow 0x000 s = 0x4D4D0100 ∧ readWindow 0x004 s = BitVec.ofNat 32 (c.maxBits % 2 ^ 16) ∧
    ∀ off, off % 4 = 0 → off < 0x1000 → off ≠ 0x000 → off ≠ 0x004 → readWindow off s = 0

/-- The reset state meets the invariant, for every choice of the parameters in their range. -/
def Obligations.InvAtReset : Prop :=
  Inv State.reset ∧ ∀ (c : Config) (events : List Event) (reply : Option Word), c.wf = true →
    Inv (State.resetWith c events reply)

/-- Every step keeps the invariant: register widths, the prepared modulus that MRDY announces, and the agreement of
the status fields (R20, R32, R34, R37, R42, R60). That MCONST is invalid and the stored MLEN 0 whenever MRDY = 0 is
the model's reading of R57 (log entry 6). -/
def Obligations.StepKeepsInv : Prop :=
  ∀ s t : State, Inv s → step s = .next t → Inv t

/-- A host that makes only aligned 32-bit accesses inside the window is never stopped, and no step is ever refused:
the only stop is the host's own access (R141, R142). -/
def Obligations.OnlyBadAccessesStop : Prop :=
  (∀ (n : Nat) (s : State), SafeSchedule s → ∃ t, run n s = .next t ∧ SafeSchedule t) ∧
  (∀ (s : State) (r : Refusal), step s ≠ .refused r) ∧
  (∀ (s : State) (f : Fault), step s = .fault f → ∃ ev rest, s.schedule = ev :: rest ∧ ¬ lawful s.cfg ev)

/-- A step takes one event from the schedule and leaves the parameters alone (R19, R63). -/
def Obligations.StepTakesOneEvent : Prop :=
  ∀ s t : State, step s = .next t → t.cfg = s.cfg ∧ t.schedule = s.schedule.tail ∧
    ((∀ off rest, ¬ hostReads s off rest) → t.reply = s.reply)

/-- BUSY rises exactly at an accepted START and falls exactly at a completion or a reset; DONE is cleared by the
first and by a reset and set by a completion; ERR and ERRCODE keep their values between those events (R30 to R32). -/
def Obligations.StatusChanges : Prop :=
  ∀ s t : State, step s = .next t →
    (s.busy = false → (t.busy = true ↔ acceptsStart s)) ∧
    (s.busy = true → (t.busy = false ↔ completesNext s ∨ resetsNext s)) ∧
    (t.done = true ↔ completesNext s ∨ (s.done = true ∧ ¬ acceptsStart s ∧ ¬ resetsNext s)) ∧
    (acceptsStart s ∨ resetsNext s → t.err = false ∧ t.errcode = .none) ∧
    (¬ acceptsStart s → ¬ resetsNext s → ¬ completesNext s → t.err = s.err ∧ t.errcode = s.errcode)

/-- WERR is set by a dropped write, cleared by a write of STATUS with bit 3 = 1 or by a reset, kept by everything
else, and never affects a command (R33). -/
def Obligations.WerrChanges : Prop :=
  (∀ s t : State, step s = .next t →
    (t.werr = true ↔ dropsWriteNext s ∨ (s.werr = true ∧ ¬ clearsWerrNext s ∧ ¬ resetsNext s))) ∧
  (∀ (i : Instr) (s t : State) (w : Bool), exec i s = .next t →
    exec i { s with werr := w } = .next { t with werr := w })

/-- MRDY is set by a SETMOD that succeeds, cleared by an accepted write to any word of M and by a reset, and kept
by everything else (R34). -/
def Obligations.MrdyChanges : Prop :=
  ∀ s t : State, step s = .next t →
    (t.mrdy = true ↔ (completesNext s ∧ s.latchOpc = 0x01 ∧ s.m % 2 = 1) ∨
      (s.mrdy = true ∧ ¬ writesModulusNext s ∧ ¬ resetsNext s))

/-- DONE_IP is set by every completion, cleared by the acknowledge and by a reset and by nothing else, DONE_IE
changes only by a write to INT_EN or a reset, and `IRQ = DONE_IP AND DONE_IE` on the line MM_IRQ alone (R36, R40,
R145 to R147). -/
def Obligations.InterruptChanges : Prop :=
  (∀ s t : State, step s = .next t →
    (t.doneIp = true ↔ completesNext s ∨ (s.doneIp = true ∧ ¬ acknowledgesNext s ∧ ¬ resetsNext s)) ∧
    (¬ resetsNext s → (∀ v rest, ¬ hostWrites s 0x010 v rest) → t.doneIe = s.doneIe)) ∧
  (∀ s : State, irq s = (s.doneIp && s.doneIe)) ∧
  (∀ (s : State) (line : Nat), irqLine s line = true ↔ line = s.cfg.mmIrq ∧ s.doneIp = true ∧ s.doneIe = true)

/-- Any reads and writes but a soft reset, made while a command is in flight, leave its result as it is: the
completion writes what it would have written at once, and only WERR, DONE_IE and the host's last reply can differ
(R59, R73). -/
def Obligations.InterleavingDoesNotMatter : Prop :=
  ∀ (s : State) (i : Instr) (evs rest : List Event), s.busy = true →
    decodeCommand s.latchOpc s.latchModsel = .ok i → (∀ ev ∈ evs, harmless s.cfg ev) →
    s.schedule = evs ++ .engine :: rest →
    ∃ t u, exec i { s with schedule := rest } = .next t ∧ run (evs.length + 1) s = .next u ∧
      u = { t with werr := u.werr, doneIe := u.doneIe, reply := u.reply }

/-! ### The modular commands -/

/-- NOP succeeds and writes nothing but the completion status (R83). -/
def Obligations.NopCompletes : Prop :=
  ∀ s : State, exec .nop s = .next (succeeded s)

/-- SETMOD prepares an odd M with the least multiple `L` of 32 such that `M < 2^L`; it reports MOD_ZERO for 0 and
MOD_EVEN for any other even M (R11, R84, R137, R138). -/
def Obligations.SetmodPreparesModulus : Prop :=
  ∀ s : State,
    (s.m % 2 = 1 → ∃ L, L % 32 = 0 ∧ s.m < 2 ^ L ∧ (∀ L', L' % 32 = 0 → s.m < 2 ^ L' → L ≤ L') ∧
      exec .setmod s = .next (succeeded
        { s with mconst := some { muser := s.m, luser := L }, mrdy := true, mlen := BitVec.ofNat 8 (L / 32) })) ∧
    (s.m = 0 → exec .setmod s = .next (failed .modZero s)) ∧
    (s.m ≠ 0 → s.m % 2 = 0 → exec .setmod s = .next (failed .modEven s))

/-- MONTMUL, TOMONT and FROMMONT, with `Rinv` any number R80 allows: it exists, and only one does, because the
modulus is odd (R80, R85 to R87). -/
def Obligations.MontgomeryResults : Prop :=
  ∀ (s : State) (ms : ModSel) (m l : Nat), Selects ms s m l → m % 2 = 1 →
    ∃ r, IsRadixInverse m l r ∧ (∀ r', IsRadixInverse m l r' → r' = r) ∧
      exec (.montmul ms) s = .next (succeeded { s with d := s.a * s.b * r % m }) ∧
      exec (.tomont ms) s = .next (succeeded { s with d := s.a * 2 ^ l % m }) ∧
      exec (.frommont ms) s = .next (succeeded { s with d := s.a * r % m })

/-- MODMUL, MODADD, MODSUB and MODRED write the least nonnegative residue of the product, the sum, the integer
difference and A; for the difference it is the number below the modulus that differs from `A − B` by a multiple of
the modulus (R12, R88 to R91). -/
def Obligations.RingResults : Prop :=
  ∀ (s : State) (ms : ModSel) (m l : Nat), Selects ms s m l → 0 < m →
    exec (.modmul ms) s = .next (succeeded { s with d := s.a * s.b % m }) ∧
    exec (.modadd ms) s = .next (succeeded { s with d := (s.a + s.b) % m }) ∧
    exec (.modred ms) s = .next (succeeded { s with d := s.a % m }) ∧
    ∃ r : Nat, r < m ∧ (m : Int) ∣ (s.a : Int) - s.b - r ∧
      exec (.modsub ms) s = .next (succeeded { s with d := r })

/-- MODEXP writes `(A ^ E) mod Msel`, with `A ^ 0 = 1` for every A (R98, R100). -/
def Obligations.ModexpResult : Prop :=
  ∀ (s : State) (ms : ModSel) (m l : Nat), Selects ms s m l →
    exec (.modexp ms) s = .next (succeeded { s with d := s.a ^ s.e % m })

/-- MODINV writes `(A ^ (Msel − 2)) mod Msel`, and 0 when the modulus is 1; E is not read (R99). -/
def Obligations.ModinvResult : Prop :=
  ∀ (s : State) (ms : ModSel) (m l : Nat), Selects ms s m l →
    exec (.modinv ms) s = .next (succeeded { s with d := if m = 1 then 0 else s.a ^ (m - 2) % m })

/-- Modulo `p`, `n` or a prime user modulus, MODINV writes the true inverse of an A that is not 0 there, and 0 for
an A that is (R99, R104). -/
def Obligations.ModinvIsInverse : Prop :=
  ∀ (s : State) (ms : ModSel) (m l : Nat), Selects ms s m l → (ms = .p ∨ ms = .n ∨ (Nat.Prime m ∧ m % 2 = 1)) →
    ∃ r, r < m ∧ exec (.modinv ms) s = .next (succeeded { s with d := r }) ∧
      (s.a % m ≠ 0 → s.a * r % m = 1) ∧ (s.a % m = 0 → r = 0)

/-- Every command of `MODCMDS` whose modulus is selected succeeds and writes one number below the modulus to D,
which then fits D's width, and nothing else; modulo 1 that number is 0 (R82, R92, R93). -/
def Obligations.ResultsBelowModulus : Prop :=
  ∀ (i : Instr) (s : State) (ms : ModSel) (m l : Nat), i.modsel? = some ms → Inv s → Selects ms s m l →
    ∃ r, r < m ∧ r < 2 ^ s.cfg.maxBits ∧ exec i s = .next (succeeded { s with d := r })

/-- The Montgomery domain: FROMMONT undoes TOMONT, MONTMUL of two converted numbers is the converted product, and
MONTMUL by 1 is FROMMONT (R85, R87, R92). -/
def Obligations.MontgomeryDomain : Prop :=
  ∀ (s : State) (ms : ModSel) (m l : Nat), Selects ms s m l → m % 2 = 1 →
    ∃ ta tb tab : State,
      exec (.tomont ms) s = .next ta ∧ exec (.tomont ms) { s with a := s.b } = .next tb ∧
      exec (.tomont ms) { s with a := s.a * s.b % m } = .next tab ∧
      exec (.frommont ms) { s with a := ta.d } = .next (succeeded { s with a := ta.d, d := s.a % m }) ∧
      exec (.montmul ms) { s with a := ta.d, b := tb.d } =
        .next (succeeded { s with a := ta.d, b := tb.d, d := tab.d }) ∧
      ∃ u, exec (.frommont ms) s = .next u ∧
        exec (.montmul ms) { s with b := 1 } = .next (succeeded { s with b := 1, d := u.d })

/-! ### The curve commands -/

/-- The field inverse: `a^(p−2) mod p`, which is 0 for 0 and the inverse of every other residue (R107). -/
def Obligations.FieldInverse : Prop :=
  ∀ a : Nat, finv a = (a % fieldP) ^ (fieldP - 2) % fieldP ∧ finv 0 = 0 ∧
    (a % fieldP ≠ 0 → a * finv a % fieldP = 1) ∧
    ∀ s : State, s.a = a → exec (.modinv .p) s = .next (succeeded { s with d := finv a })

/-- ECADD with an identity operand copies the other operand verbatim, and the sum of two identities is `(0, 0, 1)`
(R108, R110). -/
def Obligations.EcaddIdentity : Prop :=
  ∀ s : State,
    (s.pinf = true → s.qinf = true → exec .ecadd s = .next (succeeded { s with rx := 0, ry := 0, rinf := true })) ∧
    (s.pinf = true → s.qinf = false →
      exec .ecadd s = .next (succeeded { s with rx := s.qx, ry := s.qy, rinf := false })) ∧
    (s.pinf = false → s.qinf = true →
      exec .ecadd s = .next (succeeded { s with rx := s.px, ry := s.py, rinf := false }))

/-- ECADD of two affine points, reduced or not, on the curve or not: opposite points give `(0, 0, 1)`; otherwise the
result is reduced and is the chord or tangent formula over the integers modulo `p`, with slope 0 for two points that
share `x` and are neither equal nor opposite (R106, R108, R110). -/
def Obligations.EcaddAffine : Prop :=
  ∀ (s : State) (x1 y1 x2 y2 : ZMod fieldP), s.pinf = false → s.qinf = false →
    x1 = (s.px.toNat : ZMod fieldP) → y1 = (s.py.toNat : ZMod fieldP) →
    x2 = (s.qx.toNat : ZMod fieldP) → y2 = (s.qy.toNat : ZMod fieldP) →
    (x1 = x2 ∧ y1 = -y2 → exec .ecadd s = .next (succeeded { s with rx := 0, ry := 0, rinf := true })) ∧
    (¬ (x1 = x2 ∧ y1 = -y2) → ∃ (slope : ZMod fieldP) (x3 y3 : Coord),
      (x1 = x2 → y1 = y2 → slope * (2 * y1) = 3 * x1 ^ 2) ∧
      (x1 = x2 → y1 ≠ y2 → slope = 0) ∧
      (x1 ≠ x2 → slope * (x1 - x2) = y1 - y2) ∧
      x3.toNat < fieldP ∧ (x3.toNat : ZMod fieldP) = slope ^ 2 - x1 - x2 ∧
      y3.toNat < fieldP ∧ (y3.toNat : ZMod fieldP) = slope * (x1 - (x3.toNat : ZMod fieldP)) - y1 ∧
      exec .ecadd s = .next (succeeded { s with rx := x3, ry := y3, rinf := false }))

/-- `ecadd` commutes on affine operands whose reduced X differ, and on those that share it and have equal or opposite
Y; in the off-curve rest the two orders give `y3 = −y1` and `y3 = −y2` (R110). -/
def Obligations.EcaddCommutes : Prop :=
  ∀ P Q : Point, P.inf = false → Q.inf = false →
    ((P.x.toNat % fieldP ≠ Q.x.toNat % fieldP ∨ P.y.toNat % fieldP = Q.y.toNat % fieldP ∨
      (P.y.toNat + Q.y.toNat) % fieldP = 0) → ecadd P Q = ecadd Q P) ∧
    (P.x.toNat % fieldP = Q.x.toNat % fieldP → P.y.toNat % fieldP ≠ Q.y.toNat % fieldP →
      (P.y.toNat + Q.y.toNat) % fieldP ≠ 0 →
      (ecadd P Q).inf = false ∧ ((ecadd P Q).x.toNat + 2 * P.x.toNat) % fieldP = 0 ∧
        ((ecadd P Q).y.toNat + P.y.toNat) % fieldP = 0)

/-- On the points of secp256k1 with reduced coordinates, the identity included, `ecadd` is a commutative group law:
closed, commutative, associative, with the identity and with inverses (R111). -/
def Obligations.CurveGroupLaw : Prop :=
  ∀ P Q R : Point, OnCurve P → OnCurve Q → OnCurve R →
    OnCurve (ecadd P Q) ∧ ecadd P Q = ecadd Q P ∧ ecadd (ecadd P Q) R = ecadd P (ecadd Q R) ∧
    ecadd P identityPoint = P ∧ ∃ N, OnCurve N ∧ ecadd P N = identityPoint

/-- ECADD, ECMUL and ECMUL_LADDER keep the curve: with their point operands on it, their result is on it (R111). -/
def Obligations.CurveClosure : Prop :=
  ∀ s : State, OnCurve (pointP s) →
    (OnCurve (pointQ s) → ∃ t, exec .ecadd s = .next t ∧ OnCurve (pointR t)) ∧
    (∃ t, exec .ecmul s = .next t ∧ OnCurve (pointR t)) ∧
    (∃ t, exec .ecmulLadder s = .next t ∧ OnCurve (pointR t))

/-- ECMUL writes the result of the 256 passes of double-and-add, least significant bit first (R113, R114). -/
def Obligations.EcmulPasses : Prop :=
  ∀ s : State, ∃ R T : Nat → Point,
    R 0 = { x := 0, y := 0, inf := true } ∧
    T 0 = (if s.pinf then { x := 0, y := 0, inf := true } else { x := s.px, y := s.py, inf := false }) ∧
    (∀ i < 256, R (i + 1) = if s.k.getLsbD i then ecadd (R i) (T i) else R i) ∧
    (∀ i < 256, T (i + 1) = ecadd (T i) (T i)) ∧
    exec .ecmul s = .next (succeeded { s with rx := (R 256).x, ry := (R 256).y, rinf := (R 256).inf })

/-- ECMUL_LADDER writes the result of the 256 passes of the Montgomery ladder, most significant bit first, both
sides of a pass taken from before it; for a P on the curve every pass keeps `R1 = R0 + P` (R116). -/
def Obligations.LadderPasses : Prop :=
  ∀ s : State, ∃ R0 R1 : Nat → Point,
    R0 256 = { x := 0, y := 0, inf := true } ∧
    R1 256 = (if s.pinf then { x := 0, y := 0, inf := true } else { x := s.px, y := s.py, inf := false }) ∧
    (∀ i < 256, R0 i = if s.k.getLsbD i then ecadd (R0 (i + 1)) (R1 (i + 1)) else ecadd (R0 (i + 1)) (R0 (i + 1))) ∧
    (∀ i < 256, R1 i = if s.k.getLsbD i then ecadd (R1 (i + 1)) (R1 (i + 1)) else ecadd (R0 (i + 1)) (R1 (i + 1))) ∧
    (OnCurve (pointP s) → ∀ i ≤ 256, R1 i = ecadd (R0 i) (pointP s)) ∧
    exec .ecmulLadder s = .next (succeeded { s with rx := (R0 0).x, ry := (R0 0).y, rinf := (R0 0).inf })

/-- The corner cases of both multiplications: a zero scalar or an identity operand gives `(0, 0, 1)`, the scalar 1
copies the operand verbatim, and an operand with `Y ≡ 0` gives `(0, 0, 1)` for an even and its verbatim copy for an
odd scalar (R115, R117). -/
def Obligations.ScalarCorners : Prop :=
  ∀ (s : State) (i : Instr), (i = .ecmul ∨ i = .ecmulLadder) →
    ((s.k = 0 ∨ s.pinf = true) → exec i s = .next (succeeded { s with rx := 0, ry := 0, rinf := true })) ∧
    (s.k = 1 → s.pinf = false → exec i s = .next (succeeded { s with rx := s.px, ry := s.py, rinf := false })) ∧
    (s.pinf = false → s.py.toNat % fieldP = 0 → s.k.toNat % 2 = 0 →
      exec i s = .next (succeeded { s with rx := 0, ry := 0, rinf := true })) ∧
    (s.pinf = false → s.py.toNat % fieldP = 0 → s.k.toNat % 2 = 1 →
      exec i s = .next (succeeded { s with rx := s.px, ry := s.py, rinf := false }))

/-- The two multiplications write the same RX, RY and RINF, bit for bit, for every K and every register value of P
(43_ecc_scalar_mult.md: "For every `K` and every register value of P, `ladder(K, P) = ecmul(K, P)` bit for bit",
an inference the spec marks as its own and argues only in a sketch). -/
def Obligations.LadderEqualsDoubleAndAdd : Prop :=
  ∀ s : State, exec .ecmulLadder s = exec .ecmul s

/-- Scalar multiplication is a homomorphism on the curve: `(j + k)·P = j·P + k·P` for an on-curve P, and multiples
of G depend only on the scalar modulo `n` (42_ecc_point_add.md, "Closure and correctness on the curve", and
43_ecc_scalar_mult.md, corner cases of ECMUL, inferences the spec marks as its own). -/
def Obligations.ScalarHomomorphism : Prop :=
  (∀ (P : Point) (j k : Nat), OnCurve P → j + k < 2 ^ 256 →
    ecmul (j + k) P = ecadd (ecmul j P) (ecmul k P) ∧ ladder (j + k) P = ecadd (ladder j P) (ladder k P)) ∧
  (∀ k < 2 ^ 256, ecmul k baseG = ecmul (k % orderN) baseG)

/-- For `k` from 1 to `n − 1` and P = G both multiplications give a non-identity point of the curve with reduced
coordinates (43_ecc_scalar_mult.md, "Closure", an inference the spec marks as its own). -/
def Obligations.ScalarClosure : Prop :=
  ∀ (s : State) (i : Instr), (i = .ecmul ∨ i = .ecmulLadder) → pointP s = baseG → 1 ≤ s.k.toNat →
    s.k.toNat < orderN →
    ∃ x y : Coord, x.toNat < fieldP ∧ y.toNat < fieldP ∧ y.toNat ^ 2 % fieldP = (x.toNat ^ 3 + 7) % fieldP ∧
      exec i s = .next (succeeded { s with rx := x, ry := y, rinf := false })

/-! ### The point codec -/

/-- COMPRESS writes the prefix for the parity of `RY mod p`, then the 32 big-endian bytes of `RX mod p`, keeps bytes
33 to 64, and sets PBLEN to 33; an identity R is IDENTITY_NO_ENCODING and changes nothing else (R121, R122). -/
def Obligations.CompressResult : Prop :=
  ∀ s : State,
    (s.rinf = false → ∃ pb : Vector Byte 65,
      pbByte pb 0 = (if s.ry.toNat % fieldP % 2 = 0 then 0x02 else 0x03) ∧
      bytesValue pb 1 = s.rx.toNat % fieldP ∧ (∀ i, 33 ≤ i → pbByte pb i = pbByte s.pb i) ∧
      exec .compress s = .next (succeeded { s with pb := pb, pblen := 33 })) ∧
    (s.rinf = true → exec .compress s = .next (failed .identityNoEncoding s))

/-- DECOMPRESS takes an uncompressed string verbatim, gives a compressed one the root `(X³ + 7)^((p+1)/4) mod p` or
its negation by the prefix's parity, and answers INVALID_ENCODING, changing nothing else, for every other length and
prefix (R123, R124). -/
def Obligations.DecompressResult : Prop :=
  ∀ (s : State) (x y e root : Nat), x = bytesValue s.pb 1 → y = bytesValue s.pb 33 → 4 * e = fieldP + 1 →
    root = ((x ^ 3 + 7) % fieldP) ^ e % fieldP →
    (s.pblen = 65 → pbByte s.pb 0 = 0x04 → exec .decompress s =
      .next (succeeded { s with px := BitVec.ofNat 256 x, py := BitVec.ofNat 256 y, pinf := false })) ∧
    (s.pblen = 33 → (pbByte s.pb 0 = 0x02 ∨ pbByte s.pb 0 = 0x03) → exec .decompress s =
      .next (succeeded { s with
        px := BitVec.ofNat 256 x
        py := BitVec.ofNat 256
          (if root % 2 = (pbByte s.pb 0).toNat - 2 then root else (fieldP - root) % fieldP)
        pinf := false })) ∧
    (¬ ((s.pblen = 65 ∧ pbByte s.pb 0 = 0x04) ∨
        (s.pblen = 33 ∧ (pbByte s.pb 0 = 0x02 ∨ pbByte s.pb 0 = 0x03))) →
      exec .decompress s = .next (failed .invalidEncoding s)) ∧
    x < 2 ^ 256 ∧ y < 2 ^ 256

/-- After every successful compressed decoding `PY < p` and `PY mod 2 = PB[0] − 2` (R125). -/
def Obligations.DecompressParity : Prop :=
  ∀ s : State, s.pblen = 33 → (pbByte s.pb 0 = 0x02 ∨ pbByte s.pb 0 = 0x03) →
    ∃ t, exec .decompress s = .next t ∧ t.pinf = false ∧ t.py.toNat < fieldP ∧
      t.py.toNat % 2 = (pbByte s.pb 0).toNat - 2 ∧ t.pb = s.pb

/-- Compressing an on-curve R and decompressing the result gives R back in P, reduced if R was not
(44_point_codec.md, "Round-trip", an inference the spec marks as its own). -/
def Obligations.CompressionRoundTrip : Prop :=
  ∀ s : State, s.rinf = false → s.ry.toNat ^ 2 % fieldP = (s.rx.toNat ^ 3 + 7) % fieldP →
    ∃ t u, exec .compress s = .next t ∧ exec .decompress t = .next u ∧ u.err = false ∧ u.pinf = false ∧
      u.px.toNat = s.rx.toNat % fieldP ∧ u.py.toNat = s.ry.toNat % fieldP ∧
      (s.rx.toNat < fieldP → s.ry.toNat < fieldP → u.px = s.rx ∧ u.py = s.ry)
end

