-- ==== Sys2Proof/Laws/Bits.lean ====
section
/-! SUPPORT. What the word, byte-lane and big-endian helpers compute. -/

namespace Sys2Proof.Machine

theorem placeAt_getLsbD {w : Nat} (lo : Nat) (x : BitVec w) (i : Nat) :
    (placeAt lo x).getLsbD i = (decide (i < 32) && decide (lo ≤ i) && x.getLsbD (i - lo)) := by
  unfold placeAt
  rw [BitVec.getLsbD_shiftLeft, BitVec.getLsbD_setWidth]
  by_cases h1 : i < 32 <;> by_cases h2 : lo ≤ i
  · have h3 : ¬ i < lo := by omega
    have h4 : i - lo < 32 := by omega
    simp [h1, h2, h3, h4]
  · have h3 : i < lo := by omega
    simp [h2, h3]
  all_goals simp [h1]

/-! ### Words of a wide number -/

theorem setWord_eq (x j : Nat) (v : Word) :
    setWord x j v = 2 ^ (32 * j) * (2 ^ 32 * (x / 2 ^ (32 * j + 32)) + v.toNat) + x % 2 ^ (32 * j) := by
  unfold setWord
  rw [pow_add]
  ring

/-- The bits of a number after a write of its word `j`: that word's bits are the written ones and every other
bit is as before (R49). -/
theorem setWord_testBit (x j i : Nat) (v : Word) :
    (setWord x j v).testBit i =
      if 32 * j ≤ i ∧ i < 32 * j + 32 then v.getLsbD (i - 32 * j) else x.testBit i := by
  have hlo : x % 2 ^ (32 * j) < 2 ^ (32 * j) := Nat.mod_lt _ (by positivity)
  have hv : v.toNat < 2 ^ 32 := v.isLt
  rw [setWord_eq, Nat.testBit_two_pow_mul_add _ hlo]
  by_cases h1 : i < 32 * j
  · rw [if_pos h1, if_neg (by omega), Nat.testBit_mod_two_pow]
    simp [h1]
  · rw [if_neg h1, Nat.testBit_two_pow_mul_add _ hv]
    by_cases h2 : i - 32 * j < 32
    · rw [if_pos h2, if_pos (by omega), BitVec.getLsbD]
    · rw [if_neg h2, if_neg (by omega), Nat.testBit_div_two_pow]
      congr 1
      omega

theorem wordOf_getLsbD (x j i : Nat) :
    (wordOf x j).getLsbD i = (decide (i < 32) && x.testBit (32 * j + i)) := by
  unfold wordOf
  rw [BitVec.getLsbD_ofNat, Nat.testBit_div_two_pow, Nat.add_comm i]

/-- The word just written reads back. -/
@[simp] theorem wordOf_setWord (x j : Nat) (v : Word) : wordOf (setWord x j v) j = v := by
  apply BitVec.eq_of_getLsbD_eq
  intro i hi
  rw [wordOf_getLsbD, setWord_testBit, if_pos (by omega)]
  simp [hi]

/-- Every other word is as before. -/
theorem wordOf_setWord_ne {x i j : Nat} (v : Word) (h : i ≠ j) : wordOf (setWord x j v) i = wordOf x i := by
  apply BitVec.eq_of_getLsbD_eq
  intro b hb
  rw [wordOf_getLsbD, wordOf_getLsbD, setWord_testBit, if_neg (by omega)]

/-- A write inside the register keeps it inside its width. -/
theorem setWord_lt {x j n : Nat} (v : Word) (hx : x < 2 ^ (32 * n)) (hj : j < n) :
    setWord x j v < 2 ^ (32 * n) := by
  apply Nat.lt_pow_two_of_testBit
  intro i hi
  rw [setWord_testBit, if_neg (by omega)]
  exact Nat.testBit_lt_two_pow (lt_of_lt_of_le hx (Nat.pow_le_pow_right (by norm_num) hi))

/-- A number is its words (R69). -/
theorem eq_of_words {x y n : Nat} (hx : x < 2 ^ (32 * n)) (hy : y < 2 ^ (32 * n))
    (h : ∀ j, j < n → wordOf x j = wordOf y j) : x = y := by
  apply Nat.eq_of_testBit_eq
  intro i
  by_cases hi : i < 32 * n
  · have hw := congrArg (fun w => w.getLsbD (i % 32)) (h (i / 32) (by omega))
    simp only [wordOf_getLsbD, Nat.mod_lt i (by norm_num : 0 < 32), decide_true, Bool.true_and] at hw
    rwa [show 32 * (i / 32) + i % 32 = i from Nat.div_add_mod i 32] at hw
  · have hpow : 2 ^ (32 * n) ≤ 2 ^ i := Nat.pow_le_pow_right (by norm_num) (by omega)
    rw [Nat.testBit_lt_two_pow (hx.trans_le hpow), Nat.testBit_lt_two_pow (hy.trans_le hpow)]

/-! ### The point buffer -/

@[simp] theorem setPbWord_getElem (pb : Vector Byte 65) (j : Nat) (v : Word) (i : Nat) (hi : i < 65) :
    (setPbWord pb j v)[i] = if i / 4 = j then lane v (i % 4) else pb[i] := by
  simp [setPbWord]

@[simp] theorem compressedPb_getElem (b : Vector Byte 33) (pb : Vector Byte 65) (i : Nat) (hi : i < 65) :
    (compressedPb b pb)[i] = if h : i < 33 then b[i] else pb[i] := by
  simp [compressedPb]

theorem pbByte_of_lt {pb : Vector Byte 65} {i : Nat} (h : i < 65) : pbByte pb i = pb[i] := by
  simp [pbByte, h]

theorem pbByte_of_ge {pb : Vector Byte 65} {i : Nat} (h : 65 ≤ i) : pbByte pb i = 0 := by
  simp [pbByte, Nat.not_lt.mpr h]

theorem pbByte_setPbWord (pb : Vector Byte 65) (j i : Nat) (v : Word) :
    pbByte (setPbWord pb j v) i =
      if i < 65 then (if i / 4 = j then lane v (i % 4) else pbByte pb i) else 0 := by
  by_cases h : i < 65
  · rw [pbByte_of_lt h, setPbWord_getElem, if_pos h, pbByte_of_lt h]
  · rw [pbByte_of_ge (by omega), if_neg h]

/-- Lane `k` of a PB word is `PB[4j + k]` (R51). -/
theorem lane_pbWord (pb : Vector Byte 65) (j k : Nat) (hk : k < 4) : lane (pbWord pb j) k = pbByte pb (4 * j + k) := by
  apply BitVec.eq_of_getLsbD_eq
  intro b hb
  rw [lane, BitVec.getLsbD_extractLsb', pbWord]
  simp only [BitVec.getLsbD_or, placeAt_getLsbD, hb, decide_true, Bool.true_and]
  have hz : ∀ (x : Byte) (n : Nat), 8 ≤ n → x.getLsbD n = false := fun x n hn => BitVec.getLsbD_of_ge x n hn
  have : k = 0 ∨ k = 1 ∨ k = 2 ∨ k = 3 := by omega
  rcases this with rfl | rfl | rfl | rfl
  all_goals
    have h8 : ¬ 8 ≤ b := by omega
    have h16 : ¬ 16 ≤ b := by omega
    have h24 : ¬ 24 ≤ b := by omega
    have h16' : ¬ 16 ≤ 8 + b := by omega
    have h24' : ¬ 24 ≤ 8 + b := by omega
    have h24'' : ¬ 24 ≤ 16 + b := by omega
    have hlt : ∀ n, n ≤ 24 → n + b < 32 := fun n hn => by omega
    simp (disch := omega) [h8, h16, h24, h16', h24', h24'', hlt]
    try (intros; omega)

/-! ### Big-endian bytes -/

theorem be_append_singleton (b : List Byte) (x : Byte) : be (b ++ [x]) = 256 * be b + x.toNat := by
  simp [be]

theorem be_foldl (b : List Byte) (acc : Nat) :
    b.foldl (fun acc x => 256 * acc + x.toNat) acc = 256 ^ b.length * acc + be b := by
  induction b generalizing acc with
  | nil => simp [be]
  | cons x xs ih =>
    have hx : be (x :: xs) = 256 ^ xs.length * x.toNat + be xs := by
      simp only [be, List.foldl_cons, Nat.mul_zero, Nat.zero_add]
      exact ih x.toNat
    rw [List.foldl_cons, ih, hx, List.length_cons, pow_succ]
    ring

/-- The most significant byte comes first (R14). -/
theorem be_cons (x : Byte) (xs : List Byte) : be (x :: xs) = 256 ^ xs.length * x.toNat + be xs := by
  have := be_foldl xs x.toNat
  simpa [be] using this

theorem be_lt (b : List Byte) : be b < 256 ^ b.length := by
  induction b with
  | nil => simp [be]
  | cons x xs ih =>
    rw [be_cons, List.length_cons, pow_succ]
    have : x.toNat < 256 := x.isLt
    nlinarith [Nat.one_le_two_pow (n := 0), Nat.pow_pos (n := xs.length) (by norm_num : 0 < 256)]

theorem beField_lt (pb : Vector Byte 65) (start : Nat) : beField pb start < 2 ^ 256 := by
  have h := be_lt ((pb.toList.drop start).take 32)
  have hl : ((pb.toList.drop start).take 32).length ≤ 32 := List.length_take_le _ _
  exact h.trans_le ((Nat.pow_le_pow_right (by norm_num) hl).trans (by norm_num))

/-- The leading bytes of `be32` spell the leading digits of the number (R14). -/
theorem be_map_be32Byte (x : Nat) (n : Nat) (hn : n ≤ 32) (hx : x < 256 ^ 32) :
    be ((List.range n).map (be32Byte x)) = x / 256 ^ (32 - n) := by
  induction n with
  | zero =>
    have : x / 256 ^ 32 = 0 := Nat.div_eq_of_lt hx
    rw [Nat.sub_zero, this]
    rfl
  | succ m ih =>
    rw [List.range_succ, List.map_append, List.map_singleton, be_append_singleton, ih (by omega)]
    have h1 : 256 ^ (32 - m) = 256 ^ (32 - (m + 1)) * 256 := by
      rw [← pow_succ]
      congr 1
      omega
    rw [h1, ← Nat.div_div_eq_div_mul, be32Byte, show 31 - m = 32 - (m + 1) by omega]
    simp only [BitVec.toNat_ofNat]
    omega

/-- `be(be32(x)) = x` (R14). -/
theorem be_be32 {x : Nat} (hx : x < 2 ^ 256) : be ((List.range 32).map (be32Byte x)) = x := by
  have := be_map_be32Byte x 32 le_rfl (by norm_num at hx ⊢; exact hx)
  simpa using this

end Sys2Proof.Machine
end

