-- ==== Sys2Proof/Laws/Completion.lean ====
section
/-! SUPPORT. One lemma per field of the two states that a completion leaves. -/

namespace Sys2Proof.Machine

variable (s : State)

/-! ### succeeded -/

@[simp] theorem succeeded_cfg : (succeeded s).cfg = s.cfg := rfl
@[simp] theorem succeeded_a : (succeeded s).a = s.a := rfl
@[simp] theorem succeeded_b : (succeeded s).b = s.b := rfl
@[simp] theorem succeeded_e : (succeeded s).e = s.e := rfl
@[simp] theorem succeeded_m : (succeeded s).m = s.m := rfl
@[simp] theorem succeeded_d : (succeeded s).d = s.d := rfl
@[simp] theorem succeeded_px : (succeeded s).px = s.px := rfl
@[simp] theorem succeeded_py : (succeeded s).py = s.py := rfl
@[simp] theorem succeeded_qx : (succeeded s).qx = s.qx := rfl
@[simp] theorem succeeded_qy : (succeeded s).qy = s.qy := rfl
@[simp] theorem succeeded_rx : (succeeded s).rx = s.rx := rfl
@[simp] theorem succeeded_ry : (succeeded s).ry = s.ry := rfl
@[simp] theorem succeeded_k : (succeeded s).k = s.k := rfl
@[simp] theorem succeeded_pb : (succeeded s).pb = s.pb := rfl
@[simp] theorem succeeded_pblen : (succeeded s).pblen = s.pblen := rfl
@[simp] theorem succeeded_pinf : (succeeded s).pinf = s.pinf := rfl
@[simp] theorem succeeded_qinf : (succeeded s).qinf = s.qinf := rfl
@[simp] theorem succeeded_rinf : (succeeded s).rinf = s.rinf := rfl
@[simp] theorem succeeded_opc : (succeeded s).opc = s.opc := rfl
@[simp] theorem succeeded_modsel : (succeeded s).modsel = s.modsel := rfl
@[simp] theorem succeeded_busy : (succeeded s).busy = false := rfl
@[simp] theorem succeeded_done : (succeeded s).done = true := rfl
@[simp] theorem succeeded_err : (succeeded s).err = false := rfl
@[simp] theorem succeeded_errcode : (succeeded s).errcode = .none := rfl
@[simp] theorem succeeded_werr : (succeeded s).werr = s.werr := rfl
@[simp] theorem succeeded_mrdy : (succeeded s).mrdy = s.mrdy := rfl
@[simp] theorem succeeded_doneIe : (succeeded s).doneIe = s.doneIe := rfl
@[simp] theorem succeeded_doneIp : (succeeded s).doneIp = true := rfl
@[simp] theorem succeeded_mlen : (succeeded s).mlen = s.mlen := rfl
@[simp] theorem succeeded_latchOpc : (succeeded s).latchOpc = s.latchOpc := rfl
@[simp] theorem succeeded_latchModsel : (succeeded s).latchModsel = s.latchModsel := rfl
@[simp] theorem succeeded_mconst : (succeeded s).mconst = s.mconst := rfl
@[simp] theorem succeeded_schedule : (succeeded s).schedule = s.schedule := rfl
@[simp] theorem succeeded_reply : (succeeded s).reply = s.reply := rfl

/-! ### failed -/

@[simp] theorem failed_cfg (code : ErrCode) : (failed code s).cfg = s.cfg := rfl
@[simp] theorem failed_a (code : ErrCode) : (failed code s).a = s.a := rfl
@[simp] theorem failed_b (code : ErrCode) : (failed code s).b = s.b := rfl
@[simp] theorem failed_e (code : ErrCode) : (failed code s).e = s.e := rfl
@[simp] theorem failed_m (code : ErrCode) : (failed code s).m = s.m := rfl
@[simp] theorem failed_d (code : ErrCode) : (failed code s).d = s.d := rfl
@[simp] theorem failed_px (code : ErrCode) : (failed code s).px = s.px := rfl
@[simp] theorem failed_py (code : ErrCode) : (failed code s).py = s.py := rfl
@[simp] theorem failed_qx (code : ErrCode) : (failed code s).qx = s.qx := rfl
@[simp] theorem failed_qy (code : ErrCode) : (failed code s).qy = s.qy := rfl
@[simp] theorem failed_rx (code : ErrCode) : (failed code s).rx = s.rx := rfl
@[simp] theorem failed_ry (code : ErrCode) : (failed code s).ry = s.ry := rfl
@[simp] theorem failed_k (code : ErrCode) : (failed code s).k = s.k := rfl
@[simp] theorem failed_pb (code : ErrCode) : (failed code s).pb = s.pb := rfl
@[simp] theorem failed_pblen (code : ErrCode) : (failed code s).pblen = s.pblen := rfl
@[simp] theorem failed_pinf (code : ErrCode) : (failed code s).pinf = s.pinf := rfl
@[simp] theorem failed_qinf (code : ErrCode) : (failed code s).qinf = s.qinf := rfl
@[simp] theorem failed_rinf (code : ErrCode) : (failed code s).rinf = s.rinf := rfl
@[simp] theorem failed_opc (code : ErrCode) : (failed code s).opc = s.opc := rfl
@[simp] theorem failed_modsel (code : ErrCode) : (failed code s).modsel = s.modsel := rfl
@[simp] theorem failed_busy (code : ErrCode) : (failed code s).busy = false := rfl
@[simp] theorem failed_done (code : ErrCode) : (failed code s).done = true := rfl
@[simp] theorem failed_err (code : ErrCode) : (failed code s).err = true := rfl
@[simp] theorem failed_errcode (code : ErrCode) : (failed code s).errcode = code := rfl
@[simp] theorem failed_werr (code : ErrCode) : (failed code s).werr = s.werr := rfl
@[simp] theorem failed_mrdy (code : ErrCode) : (failed code s).mrdy = s.mrdy := rfl
@[simp] theorem failed_doneIe (code : ErrCode) : (failed code s).doneIe = s.doneIe := rfl
@[simp] theorem failed_doneIp (code : ErrCode) : (failed code s).doneIp = true := rfl
@[simp] theorem failed_mlen (code : ErrCode) : (failed code s).mlen = s.mlen := rfl
@[simp] theorem failed_latchOpc (code : ErrCode) : (failed code s).latchOpc = s.latchOpc := rfl
@[simp] theorem failed_latchModsel (code : ErrCode) : (failed code s).latchModsel = s.latchModsel := rfl
@[simp] theorem failed_mconst (code : ErrCode) : (failed code s).mconst = s.mconst := rfl
@[simp] theorem failed_schedule (code : ErrCode) : (failed code s).schedule = s.schedule := rfl
@[simp] theorem failed_reply (code : ErrCode) : (failed code s).reply = s.reply := rfl

end Sys2Proof.Machine
end

