-- ==== Sys2Proof/Laws/Field.lean ====
section
/-! SUPPORT. What the modular arithmetic computes: bit lengths, the power loop, the radix inverse and the least
nonnegative residue. -/

namespace Sys2Proof.Machine

/-! ### Bit length and the Montgomery radix -/

theorem bitlen_zero : bitlen 0 = 0 := rfl

theorem lt_two_pow_bitlen (v : Nat) : v < 2 ^ bitlen v := by
  unfold bitlen
  split
  · simp_all
  · exact Nat.lt_log2_self

theorem two_pow_le_of_bitlen {v : Nat} (h : v ≠ 0) : 2 ^ (bitlen v - 1) ≤ v := by
  simp only [bitlen, h, if_false, Nat.add_sub_cancel]
  exact Nat.log2_self_le h

/-- `bitlen v` is the least `k` with `v < 2 ^ k` (R13). -/
theorem bitlen_le_iff {v k : Nat} : bitlen v ≤ k ↔ v < 2 ^ k := by
  constructor
  · intro h
    exact lt_of_lt_of_le (lt_two_pow_bitlen v) (Nat.pow_le_pow_right (by norm_num) h)
  · intro h
    by_contra hk
    have hv : v ≠ 0 := by
      rintro rfl
      simp [bitlen_zero] at hk
    have h1 : 2 ^ k ≤ 2 ^ (bitlen v - 1) := Nat.pow_le_pow_right (by norm_num) (by omega)
    exact absurd (lt_of_lt_of_le h (h1.trans (two_pow_le_of_bitlen hv))) (lt_irrefl _)

theorem bitlen_le_radixBits (m : Nat) : bitlen m ≤ radixBits m := by
  unfold radixBits
  omega

/-- The radix exceeds the modulus (R11). -/
theorem lt_two_pow_radixBits (m : Nat) : m < 2 ^ radixBits m :=
  bitlen_le_iff.mp (bitlen_le_radixBits m)

/-- The radix is the least one of whole limbs (R11). -/
theorem radixBits_le {m k : Nat} (h : m < 2 ^ (32 * k)) : radixBits m ≤ 32 * k := by
  have := bitlen_le_iff.mpr h
  unfold radixBits
  omega

/-! ### Powers -/

theorem powModLoop_eq (m passes : Nat) : ∀ acc base e, e < 2 ^ passes →
    powModLoop m passes (acc % m) base e = acc * base ^ e % m := by
  induction passes with
  | zero =>
    intro acc base e he
    have : e = 0 := by simpa using he
    simp [powModLoop, this]
  | succ n ih =>
    intro acc base e he
    have he2 : e / 2 < 2 ^ n := by
      rw [pow_succ] at he
      omega
    have hsq : ∀ a : Nat, a * (base * base % m) ^ (e / 2) % m = a * base ^ (2 * (e / 2)) % m := by
      intro a
      have h2 : base ^ (2 * (e / 2)) = (base * base) ^ (e / 2) := by rw [pow_mul, pow_two]
      rw [h2, Nat.mul_mod, ← Nat.pow_mod, ← Nat.mul_mod]
    rw [powModLoop]
    split
    · rename_i hodd
      have hstep : acc % m * base % m = (acc * base) % m := Nat.mod_mul_mod acc base m
      rw [hstep, ih (acc * base) _ _ he2, hsq]
      have : e = 2 * (e / 2) + 1 := by omega
      conv_rhs => rw [this, pow_succ]
      ring_nf
    · rename_i heven
      rw [ih acc _ _ he2, hsq]
      have : e = 2 * (e / 2) := by omega
      conv_rhs => rw [this]

/-- `powMod` is the power, reduced (R98). -/
theorem powMod_eq (a e m : Nat) : powMod a e m = a ^ e % m := by
  unfold powMod
  rw [powModLoop_eq m (bitlen e) 1 (a % m) e (lt_two_pow_bitlen e), one_mul, ← Nat.pow_mod]

/-- `fermatInv` is the power R99 writes. -/
theorem fermatInv_eq (a m : Nat) : fermatInv a m = if m = 1 then 0 else a ^ (m - 2) % m := by
  unfold fermatInv
  rw [powMod_eq]

theorem finv_eq (a : Nat) : finv a = (a % fieldP) ^ (fieldP - 2) % fieldP := by
  unfold finv fred
  rw [fermatInv_eq, if_neg (by decide)]

/-! ### The radix inverse -/

theorem radixInv_eq (m l : Nat) : radixInv m l = ((m + 1) / 2) ^ l % m := powMod_eq _ _ _

theorem radixInv_lt {m : Nat} (l : Nat) (h : 0 < m) : radixInv m l < m := by
  rw [radixInv_eq]
  exact Nat.mod_lt _ h

/-- `Rsel · Rinv ≡ 1` for an odd modulus (R80). -/
theorem radix_mul_radixInv {m : Nat} (l : Nat) (h : m % 2 = 1) : 2 ^ l * radixInv m l % m = 1 % m := by
  have hhalf : 2 * ((m + 1) / 2) = m + 1 := by omega
  rw [radixInv_eq, Nat.mul_mod, Nat.mod_mod, ← Nat.mul_mod, ← mul_pow, hhalf, Nat.pow_mod,
    Nat.add_mod_left, ← Nat.pow_mod, one_pow]

/-- The radix has only one inverse below the modulus (R80). -/
theorem radixInv_unique {m l r : Nat} (h : m % 2 = 1) (hr : r < m) (h1 : 2 ^ l * r % m = 1 % m) :
    r = radixInv m l := by
  have hco : Nat.Coprime m (2 ^ l) := by
    apply Nat.Coprime.pow_right
    rw [Nat.coprime_comm, Nat.coprime_two_left]
    exact Nat.odd_iff.mpr h
  have hmod : 2 ^ l * r ≡ 2 ^ l * radixInv m l [MOD m] := by
    unfold Nat.ModEq
    rw [h1, radix_mul_radixInv l h]
  have := Nat.ModEq.cancel_left_of_coprime hco hmod
  have hlt := radixInv_lt l (by omega : 0 < m)
  unfold Nat.ModEq at this
  rwa [Nat.mod_eq_of_lt hr, Nat.mod_eq_of_lt hlt] at this

/-! ### Residues -/

theorem residue_lt (a : Int) {m : Nat} (h : 0 < m) : residue a m < m := by
  unfold residue
  have h1 := Int.emod_lt_of_pos a (by omega : (0 : Int) < m)
  have h2 := Int.emod_nonneg a (by omega : (m : Int) ≠ 0)
  omega

theorem residue_cast (a : Int) {m : Nat} (h : 0 < m) : (residue a m : Int) = a % m := by
  unfold residue
  exact Int.toNat_of_nonneg (Int.emod_nonneg a (by omega))

theorem residue_natCast (a m : Nat) : residue (a : Int) m = a % m := by
  unfold residue
  rw [← Int.natCast_mod]
  exact Int.toNat_natCast _

/-- A residue in `ZMod m` is the integer itself. -/
theorem residue_zmod (a : Int) {m : Nat} (h : 0 < m) : ((residue a m : Nat) : ZMod m) = (a : ZMod m) := by
  have hc : (((residue a m : Nat) : Int) : ZMod m) = ((a % (m : Int) : Int) : ZMod m) := by
    rw [residue_cast a h]
  rw [ZMod.intCast_mod] at hc
  simpa using hc

/-- The least nonnegative residue is the only number below the modulus that is congruent (R12). -/
theorem residue_unique {a : Int} {m r : Nat} (hr : r < m) (hd : (m : Int) ∣ a - r) : r = residue a m := by
  have hpos : 0 < m := by omega
  have hmod : (r : Int) % m = a % m := 
    (Int.emod_eq_emod_iff_emod_sub_eq_zero.mpr (Int.emod_eq_zero_of_dvd hd)).symm
  have h2 := residue_cast a hpos
  rw [Int.emod_eq_of_lt (by omega) (by omega)] at hmod
  omega

end Sys2Proof.Machine
end

