-- ==== Sys2Proof/Laws/Curve.lean ====
section
/-! SUPPORT. The passes of the two scalar multiplications as sequences, and the big-endian fields of the point
buffer as sums (R14, R113, R116). -/

namespace Sys2Proof.Machine

/-! ### The passes of double-and-add -/

/-- `(R, T)` before pass `i` of double-and-add, from the given start (R113). -/
def ecmulPass (k : Nat) (R T : Point) : Nat → Point × Point
  | 0 => (R, T)
  | i + 1 =>
    (if k.testBit i then ecadd (ecmulPass k R T i).1 (ecmulPass k R T i).2 else (ecmulPass k R T i).1,
      ecadd (ecmulPass k R T i).2 (ecmulPass k R T i).2)

theorem ecmulLoop_pass (k : Nat) (R T : Point) (n : Nat) : ∀ i,
    ecmulLoop k n i (ecmulPass k R T i).1 (ecmulPass k R T i).2 = (ecmulPass k R T (i + n)).1 := by
  induction n with
  | zero => exact fun i => rfl
  | succ n ih =>
    intro i
    rw [show i + (n + 1) = i + 1 + n by omega, ← ih (i + 1)]
    rfl

/-- The loop of double-and-add is its sequence of passes (R113). -/
theorem ecmulLoop_eq_pass (k n : Nat) (R T : Point) : ecmulLoop k n 0 R T = (ecmulPass k R T n).1 := by
  have h := ecmulLoop_pass k R T n 0
  rw [Nat.zero_add] at h
  exact h

/-! ### The passes of the ladder -/

/-- `(R0, R1)` of the ladder of `n` passes after the passes for the bits from `n − 1` down to `n − j` (R116). -/
def ladderPass (k n : Nat) (R0 R1 : Point) : Nat → Point × Point
  | 0 => (R0, R1)
  | j + 1 =>
    if k.testBit (n - 1 - j) then
      (ecadd (ladderPass k n R0 R1 j).1 (ladderPass k n R0 R1 j).2,
        ecadd (ladderPass k n R0 R1 j).2 (ladderPass k n R0 R1 j).2)
    else
      (ecadd (ladderPass k n R0 R1 j).1 (ladderPass k n R0 R1 j).1,
        ecadd (ladderPass k n R0 R1 j).1 (ladderPass k n R0 R1 j).2)

theorem ladderLoop_pass (k n : Nat) (R0 R1 : Point) : ∀ m, m ≤ n →
    ladderLoop k m (ladderPass k n R0 R1 (n - m)).1 (ladderPass k n R0 R1 (n - m)).2 = (ladderPass k n R0 R1 n).1 := by
  intro m
  induction m with
  | zero => exact fun _ => rfl
  | succ m ih =>
    intro hm
    rw [← ih (by omega), show n - m = n - (m + 1) + 1 by omega, ladderLoop, ladderPass,
      show n - 1 - (n - (m + 1)) = m by omega]
    split <;> rfl

/-- The loop of the ladder is its sequence of passes (R116). -/
theorem ladderLoop_eq_pass (k n : Nat) (R0 R1 : Point) : ladderLoop k n R0 R1 = (ladderPass k n R0 R1 n).1 := by
  have h := ladderLoop_pass k n R0 R1 n le_rfl
  rw [Nat.sub_self] at h
  exact h

/-! ### The square root -/

theorem sqrtExponent_eq {e : Nat} (h : 4 * e = fieldP + 1) : e = sqrtExponent := by
  unfold sqrtExponent
  omega

/-- The decoded Y, from any root that R123's power gives. -/
theorem decodeY_eq {x e root : Nat} (b : Byte) (he : 4 * e = fieldP + 1)
    (hr : root = ((x ^ 3 + 7) % fieldP) ^ e % fieldP) :
    decodeY x b = if root % 2 = b.toNat - 2 then root else (fieldP - root) % fieldP := by
  unfold decodeY
  rw [powMod_eq, ← sqrtExponent_eq he, ← hr]

/-! ### Big-endian fields of the point buffer -/

/-- `be` is the sum R14 writes. -/
theorem be_eq_sum (b : List Byte) :
    be b = ((List.range b.length).map fun i => (b.getD i 0).toNat * 256 ^ (b.length - 1 - i)).sum := by
  induction b with
  | nil => rfl
  | cons x xs ih =>
    rw [be_cons, ih, List.length_cons, List.range_succ_eq_map, List.map_cons, List.sum_cons, List.map_map]
    congr 1
    · simp [Nat.mul_comm]
    · congr 1
      apply List.map_congr_left
      intro i _
      simp only [Function.comp, List.getD_cons_succ]
      congr 2
      omega

theorem beField_length {start : Nat} (pb : Vector Byte 65) (h : start + 32 ≤ 65) :
    ((pb.toList.drop start).take 32).length = 32 := by
  simp
  omega

/-- A big-endian field of the buffer is the sum of its bytes (R14, R123). -/
theorem beField_eq_bytesValue {start : Nat} (pb : Vector Byte 65) (h : start + 32 ≤ 65) :
    beField pb start = bytesValue pb start := by
  unfold beField bytesValue
  rw [be_eq_sum, beField_length pb h]
  refine congrArg List.sum (List.map_congr_left fun i hi => ?_)
  have hi' : i < 32 := List.mem_range.mp hi
  rw [pbByte_of_lt (by omega)]
  congr 2
  have hb : start + i < 65 := by omega
  simp [List.getD_eq_getElem?_getD, hi', List.getElem?_drop, hb]

theorem bytesValue_lt {start : Nat} (pb : Vector Byte 65) (h : start + 32 ≤ 65) : bytesValue pb start < 2 ^ 256 := by
  rw [← beField_eq_bytesValue pb h]
  exact beField_lt pb start

/-- The field of the bytes of `be32(x)` is `x` (R14, R121). -/
theorem bytesValue_be32 {pb : Vector Byte 65} {start x : Nat} (hx : x < 2 ^ 256)
    (h : ∀ i, i < 32 → pbByte pb (start + i) = be32Byte x i) : bytesValue pb start = x := by
  rw [← be_be32 hx, be_eq_sum]
  unfold bytesValue
  rw [List.length_map, List.length_range]
  refine congrArg List.sum (List.map_congr_left fun i hi => ?_)
  have hi' : i < 32 := List.mem_range.mp hi
  rw [h i hi']
  simp [List.getD_eq_getElem?_getD, hi']

end Sys2Proof.Machine
end

