-- ==== Sys2Proof/Laws/State.lean ====
section
/-! SUPPORT. One lemma per field per update of the state, and the register accessors' get and set laws. -/

namespace Sys2Proof.Machine

variable (s : State)

/-! ### finish -/

@[simp] theorem finish_cfg (err : Bool) (code : ErrCode) : (finish err code s).cfg = s.cfg := rfl
@[simp] theorem finish_a (err : Bool) (code : ErrCode) : (finish err code s).a = s.a := rfl
@[simp] theorem finish_b (err : Bool) (code : ErrCode) : (finish err code s).b = s.b := rfl
@[simp] theorem finish_e (err : Bool) (code : ErrCode) : (finish err code s).e = s.e := rfl
@[simp] theorem finish_m (err : Bool) (code : ErrCode) : (finish err code s).m = s.m := rfl
@[simp] theorem finish_d (err : Bool) (code : ErrCode) : (finish err code s).d = s.d := rfl
@[simp] theorem finish_px (err : Bool) (code : ErrCode) : (finish err code s).px = s.px := rfl
@[simp] theorem finish_py (err : Bool) (code : ErrCode) : (finish err code s).py = s.py := rfl
@[simp] theorem finish_qx (err : Bool) (code : ErrCode) : (finish err code s).qx = s.qx := rfl
@[simp] theorem finish_qy (err : Bool) (code : ErrCode) : (finish err code s).qy = s.qy := rfl
@[simp] theorem finish_rx (err : Bool) (code : ErrCode) : (finish err code s).rx = s.rx := rfl
@[simp] theorem finish_ry (err : Bool) (code : ErrCode) : (finish err code s).ry = s.ry := rfl
@[simp] theorem finish_k (err : Bool) (code : ErrCode) : (finish err code s).k = s.k := rfl
@[simp] theorem finish_pb (err : Bool) (code : ErrCode) : (finish err code s).pb = s.pb := rfl
@[simp] theorem finish_pblen (err : Bool) (code : ErrCode) : (finish err code s).pblen = s.pblen := rfl
@[simp] theorem finish_pinf (err : Bool) (code : ErrCode) : (finish err code s).pinf = s.pinf := rfl
@[simp] theorem finish_qinf (err : Bool) (code : ErrCode) : (finish err code s).qinf = s.qinf := rfl
@[simp] theorem finish_rinf (err : Bool) (code : ErrCode) : (finish err code s).rinf = s.rinf := rfl
@[simp] theorem finish_opc (err : Bool) (code : ErrCode) : (finish err code s).opc = s.opc := rfl
@[simp] theorem finish_modsel (err : Bool) (code : ErrCode) : (finish err code s).modsel = s.modsel := rfl
@[simp] theorem finish_busy (err : Bool) (code : ErrCode) : (finish err code s).busy = false := rfl
@[simp] theorem finish_done (err : Bool) (code : ErrCode) : (finish err code s).done = true := rfl
@[simp] theorem finish_err (err : Bool) (code : ErrCode) : (finish err code s).err = err := rfl
@[simp] theorem finish_errcode (err : Bool) (code : ErrCode) : (finish err code s).errcode = code := rfl
@[simp] theorem finish_werr (err : Bool) (code : ErrCode) : (finish err code s).werr = s.werr := rfl
@[simp] theorem finish_mrdy (err : Bool) (code : ErrCode) : (finish err code s).mrdy = s.mrdy := rfl
@[simp] theorem finish_doneIe (err : Bool) (code : ErrCode) : (finish err code s).doneIe = s.doneIe := rfl
@[simp] theorem finish_doneIp (err : Bool) (code : ErrCode) : (finish err code s).doneIp = true := rfl
@[simp] theorem finish_mlen (err : Bool) (code : ErrCode) : (finish err code s).mlen = s.mlen := rfl
@[simp] theorem finish_latchOpc (err : Bool) (code : ErrCode) : (finish err code s).latchOpc = s.latchOpc := rfl
@[simp] theorem finish_latchModsel (err : Bool) (code : ErrCode) : (finish err code s).latchModsel = s.latchModsel := rfl
@[simp] theorem finish_mconst (err : Bool) (code : ErrCode) : (finish err code s).mconst = s.mconst := rfl
@[simp] theorem finish_schedule (err : Bool) (code : ErrCode) : (finish err code s).schedule = s.schedule := rfl
@[simp] theorem finish_reply (err : Bool) (code : ErrCode) : (finish err code s).reply = s.reply := rfl

/-! ### acknowledge -/

@[simp] theorem acknowledge_cfg : (acknowledge s).cfg = s.cfg := rfl
@[simp] theorem acknowledge_a : (acknowledge s).a = s.a := rfl
@[simp] theorem acknowledge_b : (acknowledge s).b = s.b := rfl
@[simp] theorem acknowledge_e : (acknowledge s).e = s.e := rfl
@[simp] theorem acknowledge_m : (acknowledge s).m = s.m := rfl
@[simp] theorem acknowledge_d : (acknowledge s).d = s.d := rfl
@[simp] theorem acknowledge_px : (acknowledge s).px = s.px := rfl
@[simp] theorem acknowledge_py : (acknowledge s).py = s.py := rfl
@[simp] theorem acknowledge_qx : (acknowledge s).qx = s.qx := rfl
@[simp] theorem acknowledge_qy : (acknowledge s).qy = s.qy := rfl
@[simp] theorem acknowledge_rx : (acknowledge s).rx = s.rx := rfl
@[simp] theorem acknowledge_ry : (acknowledge s).ry = s.ry := rfl
@[simp] theorem acknowledge_k : (acknowledge s).k = s.k := rfl
@[simp] theorem acknowledge_pb : (acknowledge s).pb = s.pb := rfl
@[simp] theorem acknowledge_pblen : (acknowledge s).pblen = s.pblen := rfl
@[simp] theorem acknowledge_pinf : (acknowledge s).pinf = s.pinf := rfl
@[simp] theorem acknowledge_qinf : (acknowledge s).qinf = s.qinf := rfl
@[simp] theorem acknowledge_rinf : (acknowledge s).rinf = s.rinf := rfl
@[simp] theorem acknowledge_opc : (acknowledge s).opc = s.opc := rfl
@[simp] theorem acknowledge_modsel : (acknowledge s).modsel = s.modsel := rfl
@[simp] theorem acknowledge_busy : (acknowledge s).busy = s.busy := rfl
@[simp] theorem acknowledge_done : (acknowledge s).done = s.done := rfl
@[simp] theorem acknowledge_err : (acknowledge s).err = s.err := rfl
@[simp] theorem acknowledge_errcode : (acknowledge s).errcode = s.errcode := rfl
@[simp] theorem acknowledge_werr : (acknowledge s).werr = s.werr := rfl
@[simp] theorem acknowledge_mrdy : (acknowledge s).mrdy = s.mrdy := rfl
@[simp] theorem acknowledge_doneIe : (acknowledge s).doneIe = s.doneIe := rfl
@[simp] theorem acknowledge_doneIp : (acknowledge s).doneIp = false := rfl
@[simp] theorem acknowledge_mlen : (acknowledge s).mlen = s.mlen := rfl
@[simp] theorem acknowledge_latchOpc : (acknowledge s).latchOpc = s.latchOpc := rfl
@[simp] theorem acknowledge_latchModsel : (acknowledge s).latchModsel = s.latchModsel := rfl
@[simp] theorem acknowledge_mconst : (acknowledge s).mconst = s.mconst := rfl
@[simp] theorem acknowledge_schedule : (acknowledge s).schedule = s.schedule := rfl
@[simp] theorem acknowledge_reply : (acknowledge s).reply = s.reply := rfl

/-! ### issueCommand -/

@[simp] theorem issueCommand_cfg : (issueCommand s).cfg = s.cfg := rfl
@[simp] theorem issueCommand_a : (issueCommand s).a = s.a := rfl
@[simp] theorem issueCommand_b : (issueCommand s).b = s.b := rfl
@[simp] theorem issueCommand_e : (issueCommand s).e = s.e := rfl
@[simp] theorem issueCommand_m : (issueCommand s).m = s.m := rfl
@[simp] theorem issueCommand_d : (issueCommand s).d = s.d := rfl
@[simp] theorem issueCommand_px : (issueCommand s).px = s.px := rfl
@[simp] theorem issueCommand_py : (issueCommand s).py = s.py := rfl
@[simp] theorem issueCommand_qx : (issueCommand s).qx = s.qx := rfl
@[simp] theorem issueCommand_qy : (issueCommand s).qy = s.qy := rfl
@[simp] theorem issueCommand_rx : (issueCommand s).rx = s.rx := rfl
@[simp] theorem issueCommand_ry : (issueCommand s).ry = s.ry := rfl
@[simp] theorem issueCommand_k : (issueCommand s).k = s.k := rfl
@[simp] theorem issueCommand_pb : (issueCommand s).pb = s.pb := rfl
@[simp] theorem issueCommand_pblen : (issueCommand s).pblen = s.pblen := rfl
@[simp] theorem issueCommand_pinf : (issueCommand s).pinf = s.pinf := rfl
@[simp] theorem issueCommand_qinf : (issueCommand s).qinf = s.qinf := rfl
@[simp] theorem issueCommand_rinf : (issueCommand s).rinf = s.rinf := rfl
@[simp] theorem issueCommand_opc : (issueCommand s).opc = s.opc := rfl
@[simp] theorem issueCommand_modsel : (issueCommand s).modsel = s.modsel := rfl
@[simp] theorem issueCommand_busy : (issueCommand s).busy = true := rfl
@[simp] theorem issueCommand_done : (issueCommand s).done = false := rfl
@[simp] theorem issueCommand_err : (issueCommand s).err = false := rfl
@[simp] theorem issueCommand_errcode : (issueCommand s).errcode = .none := rfl
@[simp] theorem issueCommand_werr : (issueCommand s).werr = s.werr := rfl
@[simp] theorem issueCommand_mrdy : (issueCommand s).mrdy = s.mrdy := rfl
@[simp] theorem issueCommand_doneIe : (issueCommand s).doneIe = s.doneIe := rfl
@[simp] theorem issueCommand_doneIp : (issueCommand s).doneIp = s.doneIp := rfl
@[simp] theorem issueCommand_mlen : (issueCommand s).mlen = s.mlen := rfl
@[simp] theorem issueCommand_latchOpc : (issueCommand s).latchOpc = s.opc := rfl
@[simp] theorem issueCommand_latchModsel : (issueCommand s).latchModsel = s.modsel := rfl
@[simp] theorem issueCommand_mconst : (issueCommand s).mconst = s.mconst := rfl
@[simp] theorem issueCommand_schedule : (issueCommand s).schedule = s.schedule := rfl
@[simp] theorem issueCommand_reply : (issueCommand s).reply = s.reply := rfl

/-! ### storeCtrl -/

@[simp] theorem storeCtrl_cfg (v : Word) : (storeCtrl v s).cfg = s.cfg := rfl
@[simp] theorem storeCtrl_a (v : Word) : (storeCtrl v s).a = s.a := rfl
@[simp] theorem storeCtrl_b (v : Word) : (storeCtrl v s).b = s.b := rfl
@[simp] theorem storeCtrl_e (v : Word) : (storeCtrl v s).e = s.e := rfl
@[simp] theorem storeCtrl_m (v : Word) : (storeCtrl v s).m = s.m := rfl
@[simp] theorem storeCtrl_d (v : Word) : (storeCtrl v s).d = s.d := rfl
@[simp] theorem storeCtrl_px (v : Word) : (storeCtrl v s).px = s.px := rfl
@[simp] theorem storeCtrl_py (v : Word) : (storeCtrl v s).py = s.py := rfl
@[simp] theorem storeCtrl_qx (v : Word) : (storeCtrl v s).qx = s.qx := rfl
@[simp] theorem storeCtrl_qy (v : Word) : (storeCtrl v s).qy = s.qy := rfl
@[simp] theorem storeCtrl_rx (v : Word) : (storeCtrl v s).rx = s.rx := rfl
@[simp] theorem storeCtrl_ry (v : Word) : (storeCtrl v s).ry = s.ry := rfl
@[simp] theorem storeCtrl_k (v : Word) : (storeCtrl v s).k = s.k := rfl
@[simp] theorem storeCtrl_pb (v : Word) : (storeCtrl v s).pb = s.pb := rfl
@[simp] theorem storeCtrl_pblen (v : Word) : (storeCtrl v s).pblen = s.pblen := rfl
@[simp] theorem storeCtrl_pinf (v : Word) : (storeCtrl v s).pinf = s.pinf := rfl
@[simp] theorem storeCtrl_qinf (v : Word) : (storeCtrl v s).qinf = s.qinf := rfl
@[simp] theorem storeCtrl_rinf (v : Word) : (storeCtrl v s).rinf = s.rinf := rfl
@[simp] theorem storeCtrl_opc (v : Word) : (storeCtrl v s).opc = Word.opc v := rfl
@[simp] theorem storeCtrl_modsel (v : Word) : (storeCtrl v s).modsel = Word.modsel v := rfl
@[simp] theorem storeCtrl_busy (v : Word) : (storeCtrl v s).busy = s.busy := rfl
@[simp] theorem storeCtrl_done (v : Word) : (storeCtrl v s).done = s.done := rfl
@[simp] theorem storeCtrl_err (v : Word) : (storeCtrl v s).err = s.err := rfl
@[simp] theorem storeCtrl_errcode (v : Word) : (storeCtrl v s).errcode = s.errcode := rfl
@[simp] theorem storeCtrl_werr (v : Word) : (storeCtrl v s).werr = s.werr := rfl
@[simp] theorem storeCtrl_mrdy (v : Word) : (storeCtrl v s).mrdy = s.mrdy := rfl
@[simp] theorem storeCtrl_doneIe (v : Word) : (storeCtrl v s).doneIe = s.doneIe := rfl
@[simp] theorem storeCtrl_doneIp (v : Word) : (storeCtrl v s).doneIp = s.doneIp := rfl
@[simp] theorem storeCtrl_mlen (v : Word) : (storeCtrl v s).mlen = s.mlen := rfl
@[simp] theorem storeCtrl_latchOpc (v : Word) : (storeCtrl v s).latchOpc = s.latchOpc := rfl
@[simp] theorem storeCtrl_latchModsel (v : Word) : (storeCtrl v s).latchModsel = s.latchModsel := rfl
@[simp] theorem storeCtrl_mconst (v : Word) : (storeCtrl v s).mconst = s.mconst := rfl
@[simp] theorem storeCtrl_schedule (v : Word) : (storeCtrl v s).schedule = s.schedule := rfl
@[simp] theorem storeCtrl_reply (v : Word) : (storeCtrl v s).reply = s.reply := rfl

/-! ### dropWrite -/

@[simp] theorem dropWrite_cfg : (dropWrite s).cfg = s.cfg := rfl
@[simp] theorem dropWrite_a : (dropWrite s).a = s.a := rfl
@[simp] theorem dropWrite_b : (dropWrite s).b = s.b := rfl
@[simp] theorem dropWrite_e : (dropWrite s).e = s.e := rfl
@[simp] theorem dropWrite_m : (dropWrite s).m = s.m := rfl
@[simp] theorem dropWrite_d : (dropWrite s).d = s.d := rfl
@[simp] theorem dropWrite_px : (dropWrite s).px = s.px := rfl
@[simp] theorem dropWrite_py : (dropWrite s).py = s.py := rfl
@[simp] theorem dropWrite_qx : (dropWrite s).qx = s.qx := rfl
@[simp] theorem dropWrite_qy : (dropWrite s).qy = s.qy := rfl
@[simp] theorem dropWrite_rx : (dropWrite s).rx = s.rx := rfl
@[simp] theorem dropWrite_ry : (dropWrite s).ry = s.ry := rfl
@[simp] theorem dropWrite_k : (dropWrite s).k = s.k := rfl
@[simp] theorem dropWrite_pb : (dropWrite s).pb = s.pb := rfl
@[simp] theorem dropWrite_pblen : (dropWrite s).pblen = s.pblen := rfl
@[simp] theorem dropWrite_pinf : (dropWrite s).pinf = s.pinf := rfl
@[simp] theorem dropWrite_qinf : (dropWrite s).qinf = s.qinf := rfl
@[simp] theorem dropWrite_rinf : (dropWrite s).rinf = s.rinf := rfl
@[simp] theorem dropWrite_opc : (dropWrite s).opc = s.opc := rfl
@[simp] theorem dropWrite_modsel : (dropWrite s).modsel = s.modsel := rfl
@[simp] theorem dropWrite_busy : (dropWrite s).busy = s.busy := rfl
@[simp] theorem dropWrite_done : (dropWrite s).done = s.done := rfl
@[simp] theorem dropWrite_err : (dropWrite s).err = s.err := rfl
@[simp] theorem dropWrite_errcode : (dropWrite s).errcode = s.errcode := rfl
@[simp] theorem dropWrite_werr : (dropWrite s).werr = true := rfl
@[simp] theorem dropWrite_mrdy : (dropWrite s).mrdy = s.mrdy := rfl
@[simp] theorem dropWrite_doneIe : (dropWrite s).doneIe = s.doneIe := rfl
@[simp] theorem dropWrite_doneIp : (dropWrite s).doneIp = s.doneIp := rfl
@[simp] theorem dropWrite_mlen : (dropWrite s).mlen = s.mlen := rfl
@[simp] theorem dropWrite_latchOpc : (dropWrite s).latchOpc = s.latchOpc := rfl
@[simp] theorem dropWrite_latchModsel : (dropWrite s).latchModsel = s.latchModsel := rfl
@[simp] theorem dropWrite_mconst : (dropWrite s).mconst = s.mconst := rfl
@[simp] theorem dropWrite_schedule : (dropWrite s).schedule = s.schedule := rfl
@[simp] theorem dropWrite_reply : (dropWrite s).reply = s.reply := rfl

/-! ### invalidateModulus -/

@[simp] theorem invalidateModulus_cfg : (invalidateModulus s).cfg = s.cfg := rfl
@[simp] theorem invalidateModulus_a : (invalidateModulus s).a = s.a := rfl
@[simp] theorem invalidateModulus_b : (invalidateModulus s).b = s.b := rfl
@[simp] theorem invalidateModulus_e : (invalidateModulus s).e = s.e := rfl
@[simp] theorem invalidateModulus_m : (invalidateModulus s).m = s.m := rfl
@[simp] theorem invalidateModulus_d : (invalidateModulus s).d = s.d := rfl
@[simp] theorem invalidateModulus_px : (invalidateModulus s).px = s.px := rfl
@[simp] theorem invalidateModulus_py : (invalidateModulus s).py = s.py := rfl
@[simp] theorem invalidateModulus_qx : (invalidateModulus s).qx = s.qx := rfl
@[simp] theorem invalidateModulus_qy : (invalidateModulus s).qy = s.qy := rfl
@[simp] theorem invalidateModulus_rx : (invalidateModulus s).rx = s.rx := rfl
@[simp] theorem invalidateModulus_ry : (invalidateModulus s).ry = s.ry := rfl
@[simp] theorem invalidateModulus_k : (invalidateModulus s).k = s.k := rfl
@[simp] theorem invalidateModulus_pb : (invalidateModulus s).pb = s.pb := rfl
@[simp] theorem invalidateModulus_pblen : (invalidateModulus s).pblen = s.pblen := rfl
@[simp] theorem invalidateModulus_pinf : (invalidateModulus s).pinf = s.pinf := rfl
@[simp] theorem invalidateModulus_qinf : (invalidateModulus s).qinf = s.qinf := rfl
@[simp] theorem invalidateModulus_rinf : (invalidateModulus s).rinf = s.rinf := rfl
@[simp] theorem invalidateModulus_opc : (invalidateModulus s).opc = s.opc := rfl
@[simp] theorem invalidateModulus_modsel : (invalidateModulus s).modsel = s.modsel := rfl
@[simp] theorem invalidateModulus_busy : (invalidateModulus s).busy = s.busy := rfl
@[simp] theorem invalidateModulus_done : (invalidateModulus s).done = s.done := rfl
@[simp] theorem invalidateModulus_err : (invalidateModulus s).err = s.err := rfl
@[simp] theorem invalidateModulus_errcode : (invalidateModulus s).errcode = s.errcode := rfl
@[simp] theorem invalidateModulus_werr : (invalidateModulus s).werr = s.werr := rfl
@[simp] theorem invalidateModulus_mrdy : (invalidateModulus s).mrdy = false := rfl
@[simp] theorem invalidateModulus_doneIe : (invalidateModulus s).doneIe = s.doneIe := rfl
@[simp] theorem invalidateModulus_doneIp : (invalidateModulus s).doneIp = s.doneIp := rfl
@[simp] theorem invalidateModulus_mlen : (invalidateModulus s).mlen = 0 := rfl
@[simp] theorem invalidateModulus_latchOpc : (invalidateModulus s).latchOpc = s.latchOpc := rfl
@[simp] theorem invalidateModulus_latchModsel : (invalidateModulus s).latchModsel = s.latchModsel := rfl
@[simp] theorem invalidateModulus_mconst : (invalidateModulus s).mconst = none := rfl
@[simp] theorem invalidateModulus_schedule : (invalidateModulus s).schedule = s.schedule := rfl
@[simp] theorem invalidateModulus_reply : (invalidateModulus s).reply = s.reply := rfl

/-! ### writeR -/

@[simp] theorem writeR_cfg (P : Point) : (writeR P s).cfg = s.cfg := rfl
@[simp] theorem writeR_a (P : Point) : (writeR P s).a = s.a := rfl
@[simp] theorem writeR_b (P : Point) : (writeR P s).b = s.b := rfl
@[simp] theorem writeR_e (P : Point) : (writeR P s).e = s.e := rfl
@[simp] theorem writeR_m (P : Point) : (writeR P s).m = s.m := rfl
@[simp] theorem writeR_d (P : Point) : (writeR P s).d = s.d := rfl
@[simp] theorem writeR_px (P : Point) : (writeR P s).px = s.px := rfl
@[simp] theorem writeR_py (P : Point) : (writeR P s).py = s.py := rfl
@[simp] theorem writeR_qx (P : Point) : (writeR P s).qx = s.qx := rfl
@[simp] theorem writeR_qy (P : Point) : (writeR P s).qy = s.qy := rfl
@[simp] theorem writeR_rx (P : Point) : (writeR P s).rx = P.x := rfl
@[simp] theorem writeR_ry (P : Point) : (writeR P s).ry = P.y := rfl
@[simp] theorem writeR_k (P : Point) : (writeR P s).k = s.k := rfl
@[simp] theorem writeR_pb (P : Point) : (writeR P s).pb = s.pb := rfl
@[simp] theorem writeR_pblen (P : Point) : (writeR P s).pblen = s.pblen := rfl
@[simp] theorem writeR_pinf (P : Point) : (writeR P s).pinf = s.pinf := rfl
@[simp] theorem writeR_qinf (P : Point) : (writeR P s).qinf = s.qinf := rfl
@[simp] theorem writeR_rinf (P : Point) : (writeR P s).rinf = P.inf := rfl
@[simp] theorem writeR_opc (P : Point) : (writeR P s).opc = s.opc := rfl
@[simp] theorem writeR_modsel (P : Point) : (writeR P s).modsel = s.modsel := rfl
@[simp] theorem writeR_busy (P : Point) : (writeR P s).busy = s.busy := rfl
@[simp] theorem writeR_done (P : Point) : (writeR P s).done = s.done := rfl
@[simp] theorem writeR_err (P : Point) : (writeR P s).err = s.err := rfl
@[simp] theorem writeR_errcode (P : Point) : (writeR P s).errcode = s.errcode := rfl
@[simp] theorem writeR_werr (P : Point) : (writeR P s).werr = s.werr := rfl
@[simp] theorem writeR_mrdy (P : Point) : (writeR P s).mrdy = s.mrdy := rfl
@[simp] theorem writeR_doneIe (P : Point) : (writeR P s).doneIe = s.doneIe := rfl
@[simp] theorem writeR_doneIp (P : Point) : (writeR P s).doneIp = s.doneIp := rfl
@[simp] theorem writeR_mlen (P : Point) : (writeR P s).mlen = s.mlen := rfl
@[simp] theorem writeR_latchOpc (P : Point) : (writeR P s).latchOpc = s.latchOpc := rfl
@[simp] theorem writeR_latchModsel (P : Point) : (writeR P s).latchModsel = s.latchModsel := rfl
@[simp] theorem writeR_mconst (P : Point) : (writeR P s).mconst = s.mconst := rfl
@[simp] theorem writeR_schedule (P : Point) : (writeR P s).schedule = s.schedule := rfl
@[simp] theorem writeR_reply (P : Point) : (writeR P s).reply = s.reply := rfl

/-! ### writeP -/

@[simp] theorem writeP_cfg (P : Point) : (writeP P s).cfg = s.cfg := rfl
@[simp] theorem writeP_a (P : Point) : (writeP P s).a = s.a := rfl
@[simp] theorem writeP_b (P : Point) : (writeP P s).b = s.b := rfl
@[simp] theorem writeP_e (P : Point) : (writeP P s).e = s.e := rfl
@[simp] theorem writeP_m (P : Point) : (writeP P s).m = s.m := rfl
@[simp] theorem writeP_d (P : Point) : (writeP P s).d = s.d := rfl
@[simp] theorem writeP_px (P : Point) : (writeP P s).px = P.x := rfl
@[simp] theorem writeP_py (P : Point) : (writeP P s).py = P.y := rfl
@[simp] theorem writeP_qx (P : Point) : (writeP P s).qx = s.qx := rfl
@[simp] theorem writeP_qy (P : Point) : (writeP P s).qy = s.qy := rfl
@[simp] theorem writeP_rx (P : Point) : (writeP P s).rx = s.rx := rfl
@[simp] theorem writeP_ry (P : Point) : (writeP P s).ry = s.ry := rfl
@[simp] theorem writeP_k (P : Point) : (writeP P s).k = s.k := rfl
@[simp] theorem writeP_pb (P : Point) : (writeP P s).pb = s.pb := rfl
@[simp] theorem writeP_pblen (P : Point) : (writeP P s).pblen = s.pblen := rfl
@[simp] theorem writeP_pinf (P : Point) : (writeP P s).pinf = P.inf := rfl
@[simp] theorem writeP_qinf (P : Point) : (writeP P s).qinf = s.qinf := rfl
@[simp] theorem writeP_rinf (P : Point) : (writeP P s).rinf = s.rinf := rfl
@[simp] theorem writeP_opc (P : Point) : (writeP P s).opc = s.opc := rfl
@[simp] theorem writeP_modsel (P : Point) : (writeP P s).modsel = s.modsel := rfl
@[simp] theorem writeP_busy (P : Point) : (writeP P s).busy = s.busy := rfl
@[simp] theorem writeP_done (P : Point) : (writeP P s).done = s.done := rfl
@[simp] theorem writeP_err (P : Point) : (writeP P s).err = s.err := rfl
@[simp] theorem writeP_errcode (P : Point) : (writeP P s).errcode = s.errcode := rfl
@[simp] theorem writeP_werr (P : Point) : (writeP P s).werr = s.werr := rfl
@[simp] theorem writeP_mrdy (P : Point) : (writeP P s).mrdy = s.mrdy := rfl
@[simp] theorem writeP_doneIe (P : Point) : (writeP P s).doneIe = s.doneIe := rfl
@[simp] theorem writeP_doneIp (P : Point) : (writeP P s).doneIp = s.doneIp := rfl
@[simp] theorem writeP_mlen (P : Point) : (writeP P s).mlen = s.mlen := rfl
@[simp] theorem writeP_latchOpc (P : Point) : (writeP P s).latchOpc = s.latchOpc := rfl
@[simp] theorem writeP_latchModsel (P : Point) : (writeP P s).latchModsel = s.latchModsel := rfl
@[simp] theorem writeP_mconst (P : Point) : (writeP P s).mconst = s.mconst := rfl
@[simp] theorem writeP_schedule (P : Point) : (writeP P s).schedule = s.schedule := rfl
@[simp] theorem writeP_reply (P : Point) : (writeP P s).reply = s.reply := rfl

/-! ### writeD -/

@[simp] theorem writeD_cfg (r : Nat) : (writeD r s).cfg = s.cfg := rfl
@[simp] theorem writeD_a (r : Nat) : (writeD r s).a = s.a := rfl
@[simp] theorem writeD_b (r : Nat) : (writeD r s).b = s.b := rfl
@[simp] theorem writeD_e (r : Nat) : (writeD r s).e = s.e := rfl
@[simp] theorem writeD_m (r : Nat) : (writeD r s).m = s.m := rfl
@[simp] theorem writeD_d (r : Nat) : (writeD r s).d = r := rfl
@[simp] theorem writeD_px (r : Nat) : (writeD r s).px = s.px := rfl
@[simp] theorem writeD_py (r : Nat) : (writeD r s).py = s.py := rfl
@[simp] theorem writeD_qx (r : Nat) : (writeD r s).qx = s.qx := rfl
@[simp] theorem writeD_qy (r : Nat) : (writeD r s).qy = s.qy := rfl
@[simp] theorem writeD_rx (r : Nat) : (writeD r s).rx = s.rx := rfl
@[simp] theorem writeD_ry (r : Nat) : (writeD r s).ry = s.ry := rfl
@[simp] theorem writeD_k (r : Nat) : (writeD r s).k = s.k := rfl
@[simp] theorem writeD_pb (r : Nat) : (writeD r s).pb = s.pb := rfl
@[simp] theorem writeD_pblen (r : Nat) : (writeD r s).pblen = s.pblen := rfl
@[simp] theorem writeD_pinf (r : Nat) : (writeD r s).pinf = s.pinf := rfl
@[simp] theorem writeD_qinf (r : Nat) : (writeD r s).qinf = s.qinf := rfl
@[simp] theorem writeD_rinf (r : Nat) : (writeD r s).rinf = s.rinf := rfl
@[simp] theorem writeD_opc (r : Nat) : (writeD r s).opc = s.opc := rfl
@[simp] theorem writeD_modsel (r : Nat) : (writeD r s).modsel = s.modsel := rfl
@[simp] theorem writeD_busy (r : Nat) : (writeD r s).busy = s.busy := rfl
@[simp] theorem writeD_done (r : Nat) : (writeD r s).done = s.done := rfl
@[simp] theorem writeD_err (r : Nat) : (writeD r s).err = s.err := rfl
@[simp] theorem writeD_errcode (r : Nat) : (writeD r s).errcode = s.errcode := rfl
@[simp] theorem writeD_werr (r : Nat) : (writeD r s).werr = s.werr := rfl
@[simp] theorem writeD_mrdy (r : Nat) : (writeD r s).mrdy = s.mrdy := rfl
@[simp] theorem writeD_doneIe (r : Nat) : (writeD r s).doneIe = s.doneIe := rfl
@[simp] theorem writeD_doneIp (r : Nat) : (writeD r s).doneIp = s.doneIp := rfl
@[simp] theorem writeD_mlen (r : Nat) : (writeD r s).mlen = s.mlen := rfl
@[simp] theorem writeD_latchOpc (r : Nat) : (writeD r s).latchOpc = s.latchOpc := rfl
@[simp] theorem writeD_latchModsel (r : Nat) : (writeD r s).latchModsel = s.latchModsel := rfl
@[simp] theorem writeD_mconst (r : Nat) : (writeD r s).mconst = s.mconst := rfl
@[simp] theorem writeD_schedule (r : Nat) : (writeD r s).schedule = s.schedule := rfl
@[simp] theorem writeD_reply (r : Nat) : (writeD r s).reply = s.reply := rfl

/-! ### writeCompressed -/

@[simp] theorem writeCompressed_cfg (b : Vector Byte 33) : (writeCompressed b s).cfg = s.cfg := rfl
@[simp] theorem writeCompressed_a (b : Vector Byte 33) : (writeCompressed b s).a = s.a := rfl
@[simp] theorem writeCompressed_b (b : Vector Byte 33) : (writeCompressed b s).b = s.b := rfl
@[simp] theorem writeCompressed_e (b : Vector Byte 33) : (writeCompressed b s).e = s.e := rfl
@[simp] theorem writeCompressed_m (b : Vector Byte 33) : (writeCompressed b s).m = s.m := rfl
@[simp] theorem writeCompressed_d (b : Vector Byte 33) : (writeCompressed b s).d = s.d := rfl
@[simp] theorem writeCompressed_px (b : Vector Byte 33) : (writeCompressed b s).px = s.px := rfl
@[simp] theorem writeCompressed_py (b : Vector Byte 33) : (writeCompressed b s).py = s.py := rfl
@[simp] theorem writeCompressed_qx (b : Vector Byte 33) : (writeCompressed b s).qx = s.qx := rfl
@[simp] theorem writeCompressed_qy (b : Vector Byte 33) : (writeCompressed b s).qy = s.qy := rfl
@[simp] theorem writeCompressed_rx (b : Vector Byte 33) : (writeCompressed b s).rx = s.rx := rfl
@[simp] theorem writeCompressed_ry (b : Vector Byte 33) : (writeCompressed b s).ry = s.ry := rfl
@[simp] theorem writeCompressed_k (b : Vector Byte 33) : (writeCompressed b s).k = s.k := rfl
@[simp] theorem writeCompressed_pb (b : Vector Byte 33) : (writeCompressed b s).pb = compressedPb b s.pb := rfl
@[simp] theorem writeCompressed_pblen (b : Vector Byte 33) : (writeCompressed b s).pblen = 33 := rfl
@[simp] theorem writeCompressed_pinf (b : Vector Byte 33) : (writeCompressed b s).pinf = s.pinf := rfl
@[simp] theorem writeCompressed_qinf (b : Vector Byte 33) : (writeCompressed b s).qinf = s.qinf := rfl
@[simp] theorem writeCompressed_rinf (b : Vector Byte 33) : (writeCompressed b s).rinf = s.rinf := rfl
@[simp] theorem writeCompressed_opc (b : Vector Byte 33) : (writeCompressed b s).opc = s.opc := rfl
@[simp] theorem writeCompressed_modsel (b : Vector Byte 33) : (writeCompressed b s).modsel = s.modsel := rfl
@[simp] theorem writeCompressed_busy (b : Vector Byte 33) : (writeCompressed b s).busy = s.busy := rfl
@[simp] theorem writeCompressed_done (b : Vector Byte 33) : (writeCompressed b s).done = s.done := rfl
@[simp] theorem writeCompressed_err (b : Vector Byte 33) : (writeCompressed b s).err = s.err := rfl
@[simp] theorem writeCompressed_errcode (b : Vector Byte 33) : (writeCompressed b s).errcode = s.errcode := rfl
@[simp] theorem writeCompressed_werr (b : Vector Byte 33) : (writeCompressed b s).werr = s.werr := rfl
@[simp] theorem writeCompressed_mrdy (b : Vector Byte 33) : (writeCompressed b s).mrdy = s.mrdy := rfl
@[simp] theorem writeCompressed_doneIe (b : Vector Byte 33) : (writeCompressed b s).doneIe = s.doneIe := rfl
@[simp] theorem writeCompressed_doneIp (b : Vector Byte 33) : (writeCompressed b s).doneIp = s.doneIp := rfl
@[simp] theorem writeCompressed_mlen (b : Vector Byte 33) : (writeCompressed b s).mlen = s.mlen := rfl
@[simp] theorem writeCompressed_latchOpc (b : Vector Byte 33) : (writeCompressed b s).latchOpc = s.latchOpc := rfl
@[simp] theorem writeCompressed_latchModsel (b : Vector Byte 33) : (writeCompressed b s).latchModsel = s.latchModsel := rfl
@[simp] theorem writeCompressed_mconst (b : Vector Byte 33) : (writeCompressed b s).mconst = s.mconst := rfl
@[simp] theorem writeCompressed_schedule (b : Vector Byte 33) : (writeCompressed b s).schedule = s.schedule := rfl
@[simp] theorem writeCompressed_reply (b : Vector Byte 33) : (writeCompressed b s).reply = s.reply := rfl

/-! ### writeModulus -/

@[simp] theorem writeModulus_cfg (m l : Nat) : (writeModulus m l s).cfg = s.cfg := rfl
@[simp] theorem writeModulus_a (m l : Nat) : (writeModulus m l s).a = s.a := rfl
@[simp] theorem writeModulus_b (m l : Nat) : (writeModulus m l s).b = s.b := rfl
@[simp] theorem writeModulus_e (m l : Nat) : (writeModulus m l s).e = s.e := rfl
@[simp] theorem writeModulus_m (m l : Nat) : (writeModulus m l s).m = s.m := rfl
@[simp] theorem writeModulus_d (m l : Nat) : (writeModulus m l s).d = s.d := rfl
@[simp] theorem writeModulus_px (m l : Nat) : (writeModulus m l s).px = s.px := rfl
@[simp] theorem writeModulus_py (m l : Nat) : (writeModulus m l s).py = s.py := rfl
@[simp] theorem writeModulus_qx (m l : Nat) : (writeModulus m l s).qx = s.qx := rfl
@[simp] theorem writeModulus_qy (m l : Nat) : (writeModulus m l s).qy = s.qy := rfl
@[simp] theorem writeModulus_rx (m l : Nat) : (writeModulus m l s).rx = s.rx := rfl
@[simp] theorem writeModulus_ry (m l : Nat) : (writeModulus m l s).ry = s.ry := rfl
@[simp] theorem writeModulus_k (m l : Nat) : (writeModulus m l s).k = s.k := rfl
@[simp] theorem writeModulus_pb (m l : Nat) : (writeModulus m l s).pb = s.pb := rfl
@[simp] theorem writeModulus_pblen (m l : Nat) : (writeModulus m l s).pblen = s.pblen := rfl
@[simp] theorem writeModulus_pinf (m l : Nat) : (writeModulus m l s).pinf = s.pinf := rfl
@[simp] theorem writeModulus_qinf (m l : Nat) : (writeModulus m l s).qinf = s.qinf := rfl
@[simp] theorem writeModulus_rinf (m l : Nat) : (writeModulus m l s).rinf = s.rinf := rfl
@[simp] theorem writeModulus_opc (m l : Nat) : (writeModulus m l s).opc = s.opc := rfl
@[simp] theorem writeModulus_modsel (m l : Nat) : (writeModulus m l s).modsel = s.modsel := rfl
@[simp] theorem writeModulus_busy (m l : Nat) : (writeModulus m l s).busy = s.busy := rfl
@[simp] theorem writeModulus_done (m l : Nat) : (writeModulus m l s).done = s.done := rfl
@[simp] theorem writeModulus_err (m l : Nat) : (writeModulus m l s).err = s.err := rfl
@[simp] theorem writeModulus_errcode (m l : Nat) : (writeModulus m l s).errcode = s.errcode := rfl
@[simp] theorem writeModulus_werr (m l : Nat) : (writeModulus m l s).werr = s.werr := rfl
@[simp] theorem writeModulus_mrdy (m l : Nat) : (writeModulus m l s).mrdy = true := rfl
@[simp] theorem writeModulus_doneIe (m l : Nat) : (writeModulus m l s).doneIe = s.doneIe := rfl
@[simp] theorem writeModulus_doneIp (m l : Nat) : (writeModulus m l s).doneIp = s.doneIp := rfl
@[simp] theorem writeModulus_mlen (m l : Nat) : (writeModulus m l s).mlen = BitVec.ofNat 8 (l / 32) := rfl
@[simp] theorem writeModulus_latchOpc (m l : Nat) : (writeModulus m l s).latchOpc = s.latchOpc := rfl
@[simp] theorem writeModulus_latchModsel (m l : Nat) : (writeModulus m l s).latchModsel = s.latchModsel := rfl
@[simp] theorem writeModulus_mconst (m l : Nat) : (writeModulus m l s).mconst = some { muser := m, luser := l } := rfl
@[simp] theorem writeModulus_schedule (m l : Nat) : (writeModulus m l s).schedule = s.schedule := rfl
@[simp] theorem writeModulus_reply (m l : Nat) : (writeModulus m l s).reply = s.reply := rfl

/-! ### writePflags -/

@[simp] theorem writePflags_cfg (v : Word) : (writePflags v s).cfg = s.cfg := rfl
@[simp] theorem writePflags_a (v : Word) : (writePflags v s).a = s.a := rfl
@[simp] theorem writePflags_b (v : Word) : (writePflags v s).b = s.b := rfl
@[simp] theorem writePflags_e (v : Word) : (writePflags v s).e = s.e := rfl
@[simp] theorem writePflags_m (v : Word) : (writePflags v s).m = s.m := rfl
@[simp] theorem writePflags_d (v : Word) : (writePflags v s).d = s.d := rfl
@[simp] theorem writePflags_px (v : Word) : (writePflags v s).px = s.px := rfl
@[simp] theorem writePflags_py (v : Word) : (writePflags v s).py = s.py := rfl
@[simp] theorem writePflags_qx (v : Word) : (writePflags v s).qx = s.qx := rfl
@[simp] theorem writePflags_qy (v : Word) : (writePflags v s).qy = s.qy := rfl
@[simp] theorem writePflags_rx (v : Word) : (writePflags v s).rx = s.rx := rfl
@[simp] theorem writePflags_ry (v : Word) : (writePflags v s).ry = s.ry := rfl
@[simp] theorem writePflags_k (v : Word) : (writePflags v s).k = s.k := rfl
@[simp] theorem writePflags_pb (v : Word) : (writePflags v s).pb = s.pb := rfl
@[simp] theorem writePflags_pblen (v : Word) : (writePflags v s).pblen = s.pblen := rfl
@[simp] theorem writePflags_pinf (v : Word) : (writePflags v s).pinf = v.getLsbD 0 := rfl
@[simp] theorem writePflags_qinf (v : Word) : (writePflags v s).qinf = v.getLsbD 1 := rfl
@[simp] theorem writePflags_rinf (v : Word) : (writePflags v s).rinf = v.getLsbD 2 := rfl
@[simp] theorem writePflags_opc (v : Word) : (writePflags v s).opc = s.opc := rfl
@[simp] theorem writePflags_modsel (v : Word) : (writePflags v s).modsel = s.modsel := rfl
@[simp] theorem writePflags_busy (v : Word) : (writePflags v s).busy = s.busy := rfl
@[simp] theorem writePflags_done (v : Word) : (writePflags v s).done = s.done := rfl
@[simp] theorem writePflags_err (v : Word) : (writePflags v s).err = s.err := rfl
@[simp] theorem writePflags_errcode (v : Word) : (writePflags v s).errcode = s.errcode := rfl
@[simp] theorem writePflags_werr (v : Word) : (writePflags v s).werr = s.werr := rfl
@[simp] theorem writePflags_mrdy (v : Word) : (writePflags v s).mrdy = s.mrdy := rfl
@[simp] theorem writePflags_doneIe (v : Word) : (writePflags v s).doneIe = s.doneIe := rfl
@[simp] theorem writePflags_doneIp (v : Word) : (writePflags v s).doneIp = s.doneIp := rfl
@[simp] theorem writePflags_mlen (v : Word) : (writePflags v s).mlen = s.mlen := rfl
@[simp] theorem writePflags_latchOpc (v : Word) : (writePflags v s).latchOpc = s.latchOpc := rfl
@[simp] theorem writePflags_latchModsel (v : Word) : (writePflags v s).latchModsel = s.latchModsel := rfl
@[simp] theorem writePflags_mconst (v : Word) : (writePflags v s).mconst = s.mconst := rfl
@[simp] theorem writePflags_schedule (v : Word) : (writePflags v s).schedule = s.schedule := rfl
@[simp] theorem writePflags_reply (v : Word) : (writePflags v s).reply = s.reply := rfl

/-! ### writePblen -/

@[simp] theorem writePblen_cfg (v : Word) : (writePblen v s).cfg = s.cfg := rfl
@[simp] theorem writePblen_a (v : Word) : (writePblen v s).a = s.a := rfl
@[simp] theorem writePblen_b (v : Word) : (writePblen v s).b = s.b := rfl
@[simp] theorem writePblen_e (v : Word) : (writePblen v s).e = s.e := rfl
@[simp] theorem writePblen_m (v : Word) : (writePblen v s).m = s.m := rfl
@[simp] theorem writePblen_d (v : Word) : (writePblen v s).d = s.d := rfl
@[simp] theorem writePblen_px (v : Word) : (writePblen v s).px = s.px := rfl
@[simp] theorem writePblen_py (v : Word) : (writePblen v s).py = s.py := rfl
@[simp] theorem writePblen_qx (v : Word) : (writePblen v s).qx = s.qx := rfl
@[simp] theorem writePblen_qy (v : Word) : (writePblen v s).qy = s.qy := rfl
@[simp] theorem writePblen_rx (v : Word) : (writePblen v s).rx = s.rx := rfl
@[simp] theorem writePblen_ry (v : Word) : (writePblen v s).ry = s.ry := rfl
@[simp] theorem writePblen_k (v : Word) : (writePblen v s).k = s.k := rfl
@[simp] theorem writePblen_pb (v : Word) : (writePblen v s).pb = s.pb := rfl
@[simp] theorem writePblen_pblen (v : Word) : (writePblen v s).pblen = v.extractLsb' 0 7 := rfl
@[simp] theorem writePblen_pinf (v : Word) : (writePblen v s).pinf = s.pinf := rfl
@[simp] theorem writePblen_qinf (v : Word) : (writePblen v s).qinf = s.qinf := rfl
@[simp] theorem writePblen_rinf (v : Word) : (writePblen v s).rinf = s.rinf := rfl
@[simp] theorem writePblen_opc (v : Word) : (writePblen v s).opc = s.opc := rfl
@[simp] theorem writePblen_modsel (v : Word) : (writePblen v s).modsel = s.modsel := rfl
@[simp] theorem writePblen_busy (v : Word) : (writePblen v s).busy = s.busy := rfl
@[simp] theorem writePblen_done (v : Word) : (writePblen v s).done = s.done := rfl
@[simp] theorem writePblen_err (v : Word) : (writePblen v s).err = s.err := rfl
@[simp] theorem writePblen_errcode (v : Word) : (writePblen v s).errcode = s.errcode := rfl
@[simp] theorem writePblen_werr (v : Word) : (writePblen v s).werr = s.werr := rfl
@[simp] theorem writePblen_mrdy (v : Word) : (writePblen v s).mrdy = s.mrdy := rfl
@[simp] theorem writePblen_doneIe (v : Word) : (writePblen v s).doneIe = s.doneIe := rfl
@[simp] theorem writePblen_doneIp (v : Word) : (writePblen v s).doneIp = s.doneIp := rfl
@[simp] theorem writePblen_mlen (v : Word) : (writePblen v s).mlen = s.mlen := rfl
@[simp] theorem writePblen_latchOpc (v : Word) : (writePblen v s).latchOpc = s.latchOpc := rfl
@[simp] theorem writePblen_latchModsel (v : Word) : (writePblen v s).latchModsel = s.latchModsel := rfl
@[simp] theorem writePblen_mconst (v : Word) : (writePblen v s).mconst = s.mconst := rfl
@[simp] theorem writePblen_schedule (v : Word) : (writePblen v s).schedule = s.schedule := rfl
@[simp] theorem writePblen_reply (v : Word) : (writePblen v s).reply = s.reply := rfl

/-! ### writePb -/

@[simp] theorem writePb_cfg (j : Nat) (v : Word) : (writePb j v s).cfg = s.cfg := rfl
@[simp] theorem writePb_a (j : Nat) (v : Word) : (writePb j v s).a = s.a := rfl
@[simp] theorem writePb_b (j : Nat) (v : Word) : (writePb j v s).b = s.b := rfl
@[simp] theorem writePb_e (j : Nat) (v : Word) : (writePb j v s).e = s.e := rfl
@[simp] theorem writePb_m (j : Nat) (v : Word) : (writePb j v s).m = s.m := rfl
@[simp] theorem writePb_d (j : Nat) (v : Word) : (writePb j v s).d = s.d := rfl
@[simp] theorem writePb_px (j : Nat) (v : Word) : (writePb j v s).px = s.px := rfl
@[simp] theorem writePb_py (j : Nat) (v : Word) : (writePb j v s).py = s.py := rfl
@[simp] theorem writePb_qx (j : Nat) (v : Word) : (writePb j v s).qx = s.qx := rfl
@[simp] theorem writePb_qy (j : Nat) (v : Word) : (writePb j v s).qy = s.qy := rfl
@[simp] theorem writePb_rx (j : Nat) (v : Word) : (writePb j v s).rx = s.rx := rfl
@[simp] theorem writePb_ry (j : Nat) (v : Word) : (writePb j v s).ry = s.ry := rfl
@[simp] theorem writePb_k (j : Nat) (v : Word) : (writePb j v s).k = s.k := rfl
@[simp] theorem writePb_pb (j : Nat) (v : Word) : (writePb j v s).pb = setPbWord s.pb j v := rfl
@[simp] theorem writePb_pblen (j : Nat) (v : Word) : (writePb j v s).pblen = s.pblen := rfl
@[simp] theorem writePb_pinf (j : Nat) (v : Word) : (writePb j v s).pinf = s.pinf := rfl
@[simp] theorem writePb_qinf (j : Nat) (v : Word) : (writePb j v s).qinf = s.qinf := rfl
@[simp] theorem writePb_rinf (j : Nat) (v : Word) : (writePb j v s).rinf = s.rinf := rfl
@[simp] theorem writePb_opc (j : Nat) (v : Word) : (writePb j v s).opc = s.opc := rfl
@[simp] theorem writePb_modsel (j : Nat) (v : Word) : (writePb j v s).modsel = s.modsel := rfl
@[simp] theorem writePb_busy (j : Nat) (v : Word) : (writePb j v s).busy = s.busy := rfl
@[simp] theorem writePb_done (j : Nat) (v : Word) : (writePb j v s).done = s.done := rfl
@[simp] theorem writePb_err (j : Nat) (v : Word) : (writePb j v s).err = s.err := rfl
@[simp] theorem writePb_errcode (j : Nat) (v : Word) : (writePb j v s).errcode = s.errcode := rfl
@[simp] theorem writePb_werr (j : Nat) (v : Word) : (writePb j v s).werr = s.werr := rfl
@[simp] theorem writePb_mrdy (j : Nat) (v : Word) : (writePb j v s).mrdy = s.mrdy := rfl
@[simp] theorem writePb_doneIe (j : Nat) (v : Word) : (writePb j v s).doneIe = s.doneIe := rfl
@[simp] theorem writePb_doneIp (j : Nat) (v : Word) : (writePb j v s).doneIp = s.doneIp := rfl
@[simp] theorem writePb_mlen (j : Nat) (v : Word) : (writePb j v s).mlen = s.mlen := rfl
@[simp] theorem writePb_latchOpc (j : Nat) (v : Word) : (writePb j v s).latchOpc = s.latchOpc := rfl
@[simp] theorem writePb_latchModsel (j : Nat) (v : Word) : (writePb j v s).latchModsel = s.latchModsel := rfl
@[simp] theorem writePb_mconst (j : Nat) (v : Word) : (writePb j v s).mconst = s.mconst := rfl
@[simp] theorem writePb_schedule (j : Nat) (v : Word) : (writePb j v s).schedule = s.schedule := rfl
@[simp] theorem writePb_reply (j : Nat) (v : Word) : (writePb j v s).reply = s.reply := rfl

/-! ### resetBlock -/

@[simp] theorem resetBlock_cfg : (resetBlock s).cfg = s.cfg := rfl
@[simp] theorem resetBlock_a : (resetBlock s).a = 0 := rfl
@[simp] theorem resetBlock_b : (resetBlock s).b = 0 := rfl
@[simp] theorem resetBlock_e : (resetBlock s).e = 0 := rfl
@[simp] theorem resetBlock_m : (resetBlock s).m = 0 := rfl
@[simp] theorem resetBlock_d : (resetBlock s).d = 0 := rfl
@[simp] theorem resetBlock_px : (resetBlock s).px = 0 := rfl
@[simp] theorem resetBlock_py : (resetBlock s).py = 0 := rfl
@[simp] theorem resetBlock_qx : (resetBlock s).qx = 0 := rfl
@[simp] theorem resetBlock_qy : (resetBlock s).qy = 0 := rfl
@[simp] theorem resetBlock_rx : (resetBlock s).rx = 0 := rfl
@[simp] theorem resetBlock_ry : (resetBlock s).ry = 0 := rfl
@[simp] theorem resetBlock_k : (resetBlock s).k = 0 := rfl
@[simp] theorem resetBlock_pb : (resetBlock s).pb = Vector.replicate 65 0 := rfl
@[simp] theorem resetBlock_pblen : (resetBlock s).pblen = 0 := rfl
@[simp] theorem resetBlock_pinf : (resetBlock s).pinf = false := rfl
@[simp] theorem resetBlock_qinf : (resetBlock s).qinf = false := rfl
@[simp] theorem resetBlock_rinf : (resetBlock s).rinf = false := rfl
@[simp] theorem resetBlock_opc : (resetBlock s).opc = 0 := rfl
@[simp] theorem resetBlock_modsel : (resetBlock s).modsel = 0 := rfl
@[simp] theorem resetBlock_busy : (resetBlock s).busy = false := rfl
@[simp] theorem resetBlock_done : (resetBlock s).done = false := rfl
@[simp] theorem resetBlock_err : (resetBlock s).err = false := rfl
@[simp] theorem resetBlock_errcode : (resetBlock s).errcode = .none := rfl
@[simp] theorem resetBlock_werr : (resetBlock s).werr = false := rfl
@[simp] theorem resetBlock_mrdy : (resetBlock s).mrdy = false := rfl
@[simp] theorem resetBlock_doneIe : (resetBlock s).doneIe = false := rfl
@[simp] theorem resetBlock_doneIp : (resetBlock s).doneIp = false := rfl
@[simp] theorem resetBlock_mlen : (resetBlock s).mlen = 0 := rfl
@[simp] theorem resetBlock_latchOpc : (resetBlock s).latchOpc = 0 := rfl
@[simp] theorem resetBlock_latchModsel : (resetBlock s).latchModsel = 0 := rfl
@[simp] theorem resetBlock_mconst : (resetBlock s).mconst = none := rfl
@[simp] theorem resetBlock_schedule : (resetBlock s).schedule = s.schedule := rfl
@[simp] theorem resetBlock_reply : (resetBlock s).reply = s.reply := rfl

/-! ### Named updates of several steps -/

@[simp] theorem raiseEngineError_eq (code : ErrCode) : raiseEngineError code s = finish true code s := rfl

@[simp] theorem completeOk_eq : completeOk s = finish false .none s := rfl

@[simp] theorem complete_ok (t : State) : complete (.ok t) s = finish false .none t := rfl

@[simp] theorem complete_error (code : ErrCode) : complete (.error code) s = finish true code s := rfl

/-! ### Register accessors -/

@[simp] theorem getWide_setWide (r : WideReg) (x : Nat) : getWide r (setWide r x s) = x := by cases r <;> rfl

theorem getWide_setWide_ne {r q : WideReg} (x : Nat) (h : q ≠ r) : getWide q (setWide r x s) = getWide q s := by
  cases r <;> cases q <;> first | rfl | exact absurd rfl h

@[simp] theorem getCoord_setWide (r : WideReg) (q : CoordReg) (x : Nat) :
    getCoord q (setWide r x s) = getCoord q s := by cases r <;> cases q <;> rfl

@[simp] theorem getCoord_setCoord (r : CoordReg) (x : Coord) : getCoord r (setCoord r x s) = x := by
  cases r <;> rfl

theorem getCoord_setCoord_ne {r q : CoordReg} (x : Coord) (h : q ≠ r) :
    getCoord q (setCoord r x s) = getCoord q s := by
  cases r <;> cases q <;> first | rfl | exact absurd rfl h

@[simp] theorem getWide_setCoord (r : CoordReg) (q : WideReg) (x : Coord) :
    getWide q (setCoord r x s) = getWide q s := by cases r <;> cases q <;> rfl

@[simp] theorem setWide_cfg (r : WideReg) (x : Nat) : (setWide r x s).cfg = s.cfg := by cases r <;> rfl
@[simp] theorem setWide_px (r : WideReg) (x : Nat) : (setWide r x s).px = s.px := by cases r <;> rfl
@[simp] theorem setWide_py (r : WideReg) (x : Nat) : (setWide r x s).py = s.py := by cases r <;> rfl
@[simp] theorem setWide_qx (r : WideReg) (x : Nat) : (setWide r x s).qx = s.qx := by cases r <;> rfl
@[simp] theorem setWide_qy (r : WideReg) (x : Nat) : (setWide r x s).qy = s.qy := by cases r <;> rfl
@[simp] theorem setWide_rx (r : WideReg) (x : Nat) : (setWide r x s).rx = s.rx := by cases r <;> rfl
@[simp] theorem setWide_ry (r : WideReg) (x : Nat) : (setWide r x s).ry = s.ry := by cases r <;> rfl
@[simp] theorem setWide_k (r : WideReg) (x : Nat) : (setWide r x s).k = s.k := by cases r <;> rfl
@[simp] theorem setWide_pb (r : WideReg) (x : Nat) : (setWide r x s).pb = s.pb := by cases r <;> rfl
@[simp] theorem setWide_pblen (r : WideReg) (x : Nat) : (setWide r x s).pblen = s.pblen := by cases r <;> rfl
@[simp] theorem setWide_pinf (r : WideReg) (x : Nat) : (setWide r x s).pinf = s.pinf := by cases r <;> rfl
@[simp] theorem setWide_qinf (r : WideReg) (x : Nat) : (setWide r x s).qinf = s.qinf := by cases r <;> rfl
@[simp] theorem setWide_rinf (r : WideReg) (x : Nat) : (setWide r x s).rinf = s.rinf := by cases r <;> rfl
@[simp] theorem setWide_opc (r : WideReg) (x : Nat) : (setWide r x s).opc = s.opc := by cases r <;> rfl
@[simp] theorem setWide_modsel (r : WideReg) (x : Nat) : (setWide r x s).modsel = s.modsel := by cases r <;> rfl
@[simp] theorem setWide_busy (r : WideReg) (x : Nat) : (setWide r x s).busy = s.busy := by cases r <;> rfl
@[simp] theorem setWide_done (r : WideReg) (x : Nat) : (setWide r x s).done = s.done := by cases r <;> rfl
@[simp] theorem setWide_err (r : WideReg) (x : Nat) : (setWide r x s).err = s.err := by cases r <;> rfl
@[simp] theorem setWide_errcode (r : WideReg) (x : Nat) : (setWide r x s).errcode = s.errcode := by cases r <;> rfl
@[simp] theorem setWide_werr (r : WideReg) (x : Nat) : (setWide r x s).werr = s.werr := by cases r <;> rfl
@[simp] theorem setWide_mrdy (r : WideReg) (x : Nat) : (setWide r x s).mrdy = s.mrdy := by cases r <;> rfl
@[simp] theorem setWide_doneIe (r : WideReg) (x : Nat) : (setWide r x s).doneIe = s.doneIe := by cases r <;> rfl
@[simp] theorem setWide_doneIp (r : WideReg) (x : Nat) : (setWide r x s).doneIp = s.doneIp := by cases r <;> rfl
@[simp] theorem setWide_mlen (r : WideReg) (x : Nat) : (setWide r x s).mlen = s.mlen := by cases r <;> rfl
@[simp] theorem setWide_latchOpc (r : WideReg) (x : Nat) : (setWide r x s).latchOpc = s.latchOpc := by cases r <;> rfl
@[simp] theorem setWide_latchModsel (r : WideReg) (x : Nat) : (setWide r x s).latchModsel = s.latchModsel := by cases r <;> rfl
@[simp] theorem setWide_mconst (r : WideReg) (x : Nat) : (setWide r x s).mconst = s.mconst := by cases r <;> rfl
@[simp] theorem setWide_schedule (r : WideReg) (x : Nat) : (setWide r x s).schedule = s.schedule := by cases r <;> rfl
@[simp] theorem setWide_reply (r : WideReg) (x : Nat) : (setWide r x s).reply = s.reply := by cases r <;> rfl

@[simp] theorem setCoord_cfg (r : CoordReg) (x : Coord) : (setCoord r x s).cfg = s.cfg := by cases r <;> rfl
@[simp] theorem setCoord_a (r : CoordReg) (x : Coord) : (setCoord r x s).a = s.a := by cases r <;> rfl
@[simp] theorem setCoord_b (r : CoordReg) (x : Coord) : (setCoord r x s).b = s.b := by cases r <;> rfl
@[simp] theorem setCoord_e (r : CoordReg) (x : Coord) : (setCoord r x s).e = s.e := by cases r <;> rfl
@[simp] theorem setCoord_m (r : CoordReg) (x : Coord) : (setCoord r x s).m = s.m := by cases r <;> rfl
@[simp] theorem setCoord_d (r : CoordReg) (x : Coord) : (setCoord r x s).d = s.d := by cases r <;> rfl
@[simp] theorem setCoord_pb (r : CoordReg) (x : Coord) : (setCoord r x s).pb = s.pb := by cases r <;> rfl
@[simp] theorem setCoord_pblen (r : CoordReg) (x : Coord) : (setCoord r x s).pblen = s.pblen := by cases r <;> rfl
@[simp] theorem setCoord_pinf (r : CoordReg) (x : Coord) : (setCoord r x s).pinf = s.pinf := by cases r <;> rfl
@[simp] theorem setCoord_qinf (r : CoordReg) (x : Coord) : (setCoord r x s).qinf = s.qinf := by cases r <;> rfl
@[simp] theorem setCoord_rinf (r : CoordReg) (x : Coord) : (setCoord r x s).rinf = s.rinf := by cases r <;> rfl
@[simp] theorem setCoord_opc (r : CoordReg) (x : Coord) : (setCoord r x s).opc = s.opc := by cases r <;> rfl
@[simp] theorem setCoord_modsel (r : CoordReg) (x : Coord) : (setCoord r x s).modsel = s.modsel := by cases r <;> rfl
@[simp] theorem setCoord_busy (r : CoordReg) (x : Coord) : (setCoord r x s).busy = s.busy := by cases r <;> rfl
@[simp] theorem setCoord_done (r : CoordReg) (x : Coord) : (setCoord r x s).done = s.done := by cases r <;> rfl
@[simp] theorem setCoord_err (r : CoordReg) (x : Coord) : (setCoord r x s).err = s.err := by cases r <;> rfl
@[simp] theorem setCoord_errcode (r : CoordReg) (x : Coord) : (setCoord r x s).errcode = s.errcode := by cases r <;> rfl
@[simp] theorem setCoord_werr (r : CoordReg) (x : Coord) : (setCoord r x s).werr = s.werr := by cases r <;> rfl
@[simp] theorem setCoord_mrdy (r : CoordReg) (x : Coord) : (setCoord r x s).mrdy = s.mrdy := by cases r <;> rfl
@[simp] theorem setCoord_doneIe (r : CoordReg) (x : Coord) : (setCoord r x s).doneIe = s.doneIe := by cases r <;> rfl
@[simp] theorem setCoord_doneIp (r : CoordReg) (x : Coord) : (setCoord r x s).doneIp = s.doneIp := by cases r <;> rfl
@[simp] theorem setCoord_mlen (r : CoordReg) (x : Coord) : (setCoord r x s).mlen = s.mlen := by cases r <;> rfl
@[simp] theorem setCoord_latchOpc (r : CoordReg) (x : Coord) : (setCoord r x s).latchOpc = s.latchOpc := by cases r <;> rfl
@[simp] theorem setCoord_latchModsel (r : CoordReg) (x : Coord) : (setCoord r x s).latchModsel = s.latchModsel := by cases r <;> rfl
@[simp] theorem setCoord_mconst (r : CoordReg) (x : Coord) : (setCoord r x s).mconst = s.mconst := by cases r <;> rfl
@[simp] theorem setCoord_schedule (r : CoordReg) (x : Coord) : (setCoord r x s).schedule = s.schedule := by cases r <;> rfl
@[simp] theorem setCoord_reply (r : CoordReg) (x : Coord) : (setCoord r x s).reply = s.reply := by cases r <;> rfl

end Sys2Proof.Machine
end

