-- ==== Sys2Proof/Laws/Ops.lean ====
section
/-! SUPPORT. What the shared operations can do, said once: the register map, the bus address check, and the
accepted, dropped and ignored writes. -/

namespace Sys2Proof.Machine

set_option Elab.async false

/-! ### The register map -/

theorem locate_wide (r : WideReg) {j : Nat} (h : j < 128) : locate (wideBase r + 4 * j) = some (.wide r, j) := by
  have : ∀ j < 128, locate (wideBase r + 4 * j) = some (.wide r, j) := by cases r <;> decide +kernel
  exact this j h

theorem locate_coord (r : CoordReg) {j : Nat} (h : j < 8) : locate (coordBase r + 4 * j) = some (.coord r, j) := by
  have : ∀ j < 8, locate (coordBase r + 4 * j) = some (.coord r, j) := by cases r <;> decide +kernel
  exact this j h

theorem locate_pb {j : Nat} (h : j < 17) : locate (0xD00 + 4 * j) = some (.PB, j) := by
  have : ∀ j < 17, locate (0xD00 + 4 * j) = some (.PB, j) := by decide +kernel
  exact this j h

@[simp] theorem locate_ctrl : locate 0x008 = some (.CTRL, 0) := by decide +kernel

@[simp] theorem locate_status : locate 0x00C = some (.STATUS, 0) := by decide +kernel

@[simp] theorem locate_intEn : locate 0x010 = some (.INT_EN, 0) := by decide +kernel

@[simp] theorem locate_intStat : locate 0x014 = some (.INT_STAT, 0) := by decide +kernel

@[simp] theorem locate_pflags : locate 0x01C = some (.PFLAGS, 0) := by decide +kernel

@[simp] theorem locate_pblen : locate 0x020 = some (.PBLEN, 0) := by decide +kernel

/-- The offset a register's word has (R48). -/
def offsetOf : RegName → Nat → Nat
  | .ID, _ => 0x000
  | .CFG, _ => 0x004
  | .CTRL, _ => 0x008
  | .STATUS, _ => 0x00C
  | .INT_EN, _ => 0x010
  | .INT_STAT, _ => 0x014
  | .MLEN, _ => 0x018
  | .PFLAGS, _ => 0x01C
  | .PBLEN, _ => 0x020
  | .wide r, j => wideBase r + 4 * j
  | .coord r, j => coordBase r + 4 * j
  | .PB, j => 0xD00 + 4 * j

/-- How many words a register has in the window (R48). -/
def wordCount : RegName → Nat
  | .wide _ => 128
  | .coord _ => 8
  | .PB => 17
  | _ => 1

/-- An aligned offset of the window names a register's word or is reserved: the map inverted (R48). -/
theorem locate_aligned {off : Nat} (h : off < 0x1000) (h4 : off % 4 = 0) {name : RegName} {j : Nat}
    (hl : locate off = some (name, j)) : off = offsetOf name j ∧ j < wordCount name := by
  have key : ∀ q < 0x400, (match locate (4 * q) with
      | some (name, j) => decide (4 * q = offsetOf name j) && decide (j < wordCount name)
      | none => true) = true := by decide +kernel
  have := key (off / 4) (by omega)
  rw [show 4 * (off / 4) = off by omega, hl] at this
  simpa using this

/-- Only CTRL's own offset is CTRL. -/
theorem eq_ctrl_of_locate {off j : Nat} (h : off < 0x1000) (h4 : off % 4 = 0)
    (hl : locate off = some (.CTRL, j)) : off = 0x008 := (locate_aligned h h4 hl).1

/-- An aligned offset that names no register is in one of the three ranges R48 reserves. -/
theorem locate_none {off : Nat} (h : off < 0x1000) (h4 : off % 4 = 0) (hl : locate off = none) :
    (0x024 ≤ off ∧ off < 0x200) ∨ (0xCE0 ≤ off ∧ off < 0xD00) ∨ 0xD44 ≤ off := by
  have key : ∀ q < 0x400, locate (4 * q) = none →
      (0x024 ≤ 4 * q ∧ 4 * q < 0x200) ∨ (0xCE0 ≤ 4 * q ∧ 4 * q < 0xD00) ∨ 0xD44 ≤ 4 * q := by decide +kernel
  rw [show off = 4 * (off / 4) by omega] at hl ⊢
  exact key (off / 4) (by omega) hl

theorem wideBase_range (r : WideReg) : 0x200 ≤ wideBase r ∧ wideBase r ≤ 0xA00 ∧ wideBase r % 0x200 = 0 := by
  cases r <;> decide

theorem coordBase_range (r : CoordReg) : 0xC00 ≤ coordBase r ∧ coordBase r ≤ 0xCC0 ∧ coordBase r % 0x20 = 0 := by
  cases r <;> decide

/-! ### Reads -/

/-- What a read returns does not depend on the host side. -/
theorem readWindow_host (off : Nat) (s : State) (events : List Event) (lastReply : Option Word) :
    readWindow off { s with schedule := events, reply := lastReply } = readWindow off s := by
  unfold readWindow
  split
  · rename_i name j _
    cases name with
    | wide r => cases r <;> rfl
    | coord r => cases r <;> rfl
    | _ => rfl
  · rfl

theorem readWindow_schedule (off : Nat) (s : State) (events : List Event) :
    readWindow off { s with schedule := events } = readWindow off s := readWindow_host off s events s.reply

/-- A reserved offset reads 0 (R56). -/
theorem readWindow_reserved {off : Nat} {s : State} (h4 : off % 4 = 0) (hr : reservedOffset s.cfg off) :
    readWindow off s = 0 := by
  have h : off < 0x1000 := by
    unfold reservedOffset at hr
    omega
  unfold readWindow
  cases hl : locate off with
  | none => rfl
  | some nj =>
    obtain ⟨name, j⟩ := nj
    obtain ⟨hoff, hj⟩ := locate_aligned h h4 hl
    unfold reservedOffset at hr
    cases name
    case wide r =>
      simp only [offsetOf, wordCount] at hoff hj
      have := wideBase_range r
      simp only [readReg]
      rw [if_neg (by omega)]
    case coord r =>
      simp only [offsetOf, wordCount] at hoff hj
      have := coordBase_range r
      omega
    all_goals
      simp only [offsetOf, wordCount] at hoff hj
      omega

/-! ### Bus accesses -/

/-- An access is served exactly when it is 32 bits, aligned and inside the window (R53, R129). -/
theorem busOffset_ok {c : Config} {size addr off : Nat} :
    busOffset c size addr = .ok off ↔ served c size addr ∧ off = addr - c.mmBase := by
  unfold busOffset served
  split
  · split
    · simp_all [eq_comm]
    · simp_all
      tauto
  · simp_all

theorem busOffset_served {c : Config} {size addr : Nat} (h : served c size addr) :
    busOffset c size addr = .ok (addr - c.mmBase) := busOffset_ok.mpr ⟨h, rfl⟩

/-- An aligned offset of the window, at the window's address. -/
theorem served_at {c : Config} {off : Nat} (h : off < 0x1000) (h4 : off % 4 = 0) :
    served c 32 (c.mmBase + off) := ⟨rfl, by omega, by omega, by omega⟩

theorem busOffset_at {c : Config} {off : Nat} (h : off < 0x1000) (h4 : off % 4 = 0) :
    busOffset c 32 (c.mmBase + off) = .ok off := by
  rw [busOffset_served (served_at h h4)]
  congr 1
  omega

theorem busWrite_at {s : State} {off : Nat} (v : Word) (h : off < 0x1000) (h4 : off % 4 = 0) :
    busWrite 32 (s.cfg.mmBase + off) v s = .next (writeWindow off v s) := by
  unfold busWrite
  rw [busOffset_at h h4]

theorem busRead_at {s : State} {off : Nat} (h : off < 0x1000) (h4 : off % 4 = 0) :
    busRead 32 (s.cfg.mmBase + off) s = .next { s with reply := some (readWindow off s) } := by
  unfold busRead
  rw [busOffset_at h h4]

theorem busRead_served {s : State} {size addr : Nat} (h : served s.cfg size addr) :
    busRead size addr s = .next { s with reply := some (readWindow (addr - s.cfg.mmBase) s) } := by
  unfold busRead
  rw [busOffset_served h]

theorem busWrite_served {s : State} {size addr : Nat} (v : Word) (h : served s.cfg size addr) :
    busWrite size addr v s = .next (writeWindow (addr - s.cfg.mmBase) v s) := by
  unfold busWrite
  rw [busOffset_served h]

theorem busRead_next {s t : State} {size addr : Nat} (h : busRead size addr s = .next t) :
    served s.cfg size addr ∧ t = { s with reply := some (readWindow (addr - s.cfg.mmBase) s) } := by
  unfold busRead at h
  split at h
  · rename_i off hoff
    obtain ⟨hs, rfl⟩ := busOffset_ok.mp hoff
    exact ⟨hs, by simpa using h.symm⟩
  · simp at h

theorem busWrite_next {s t : State} {size addr : Nat} {v : Word} (h : busWrite size addr v s = .next t) :
    served s.cfg size addr ∧ t = writeWindow (addr - s.cfg.mmBase) v s := by
  unfold busWrite at h
  split at h
  · rename_i off hoff
    obtain ⟨hs, rfl⟩ := busOffset_ok.mp hoff
    exact ⟨hs, by simpa using h.symm⟩
  · simp at h

/-! ### Writes -/

theorem unlessBusy_busy {s : State} (f : State → State) (h : s.busy = true) : unlessBusy f s = dropWrite s := by
  simp [unlessBusy, h]

theorem unlessBusy_idle {s : State} (f : State → State) (h : s.busy = false) : unlessBusy f s = f s := by
  simp [unlessBusy, h]

/-- A reserved offset ignores writes (R56). -/
theorem writeWindow_reserved {off : Nat} {s : State} (v : Word) (h4 : off % 4 = 0)
    (hr : reservedOffset s.cfg off) : writeWindow off v s = s := by
  have h : off < 0x1000 := by
    unfold reservedOffset at hr
    omega
  unfold writeWindow
  cases hl : locate off with
  | none => rfl
  | some nj =>
    obtain ⟨name, j⟩ := nj
    obtain ⟨hoff, hj⟩ := locate_aligned h h4 hl
    unfold reservedOffset at hr
    cases name
    case wide r =>
      simp only [offsetOf, wordCount] at hoff hj
      have := wideBase_range r
      simp only [writeReg]
      rw [if_neg (by omega)]
    case coord r =>
      simp only [offsetOf, wordCount] at hoff hj
      have := coordBase_range r
      omega
    all_goals
      simp only [offsetOf, wordCount] at hoff hj
      omega

/-- A busy engine drops a write to a locked offset (R59). -/
theorem writeWindow_locked {off : Nat} {v : Word} {s : State} (h4 : off % 4 = 0) (hk : lockedOffset s.cfg off)
    (hv : ¬ (off = 0x008 ∧ v.getLsbD 31 = true)) (hb : s.busy = true) : writeWindow off v s = dropWrite s := by
  have h : off < 0x1000 := by
    unfold lockedOffset at hk
    omega
  unfold writeWindow
  unfold lockedOffset at hk
  cases hl : locate off with
  | none =>
    have := locate_none h h4 hl
    omega
  | some nj =>
    obtain ⟨name, j⟩ := nj
    obtain ⟨hoff, hj⟩ := locate_aligned h h4 hl
    cases name
    case wide r =>
      simp only [offsetOf, wordCount] at hoff hj
      have := wideBase_range r
      simp only [writeReg]
      rw [if_pos (by omega), unlessBusy_busy _ hb]
    case CTRL =>
      simp only [offsetOf] at hoff
      have hs : Word.srst v = false := by
        cases hs : v.getLsbD 31 with
        | true => exact absurd ⟨hoff, hs⟩ hv
        | false => exact hs
      simp only [writeReg, hs, Bool.false_eq_true, if_false, unlessBusy_busy _ hb]
    all_goals first
      | exact unlessBusy_busy _ hb
      | (simp only [offsetOf] at hoff; omega)

/-- Everything a bus write can do (R57). -/
inductive WriteCase (off : Nat) (v : Word) (s : State) : State → Prop where
  /-- A soft reset (R157). -/
  | softReset (h : off = 0x008) (hv : Word.srst v = true) : WriteCase off v s (resetBlock s)
  /-- An accepted CTRL write, with or without START (R72, R77). -/
  | ctrl (h : off = 0x008) (hv : Word.srst v = false) (hb : s.busy = false) : WriteCase off v s (writeCtrl v s)
  /-- The interrupt enable (R35). -/
  | intEn (h : off = 0x010) : WriteCase off v s { s with doneIe := v.getLsbD 0 }
  /-- The interrupt acknowledge (R36). -/
  | ack (h : off = 0x014) (hv : v.getLsbD 0 = true) : WriteCase off v s (acknowledge s)
  /-- The write-error clear (R33). -/
  | clearWerr (h : off = 0x00C) (hv : v.getLsbD 3 = true) : WriteCase off v s { s with werr := false }
  /-- An ignored write (R56). -/
  | ignored (hk : ¬ lockedOffset s.cfg off) (hie : off ≠ 0x010) (hip : off = 0x014 → v.getLsbD 0 = false)
      (hw : off = 0x00C → v.getLsbD 3 = false) : WriteCase off v s s
  /-- A write dropped because BUSY = 1 (R59). -/
  | dropped (hb : s.busy = true) (hk : lockedOffset s.cfg off) (hv : ¬ (off = 0x008 ∧ v.getLsbD 31 = true)) :
      WriteCase off v s (dropWrite s)
  /-- An accepted write to a word of a wide register (R49). -/
  | wide (r : WideReg) (j : Nat) (h : off = wideBase r + 4 * j) (hw : j < 128) (hj : j < s.cfg.maxWords)
      (hb : s.busy = false) : WriteCase off v s (writeWide r j v s)
  /-- An accepted write to a word of a 256-bit register (R50). -/
  | coord (r : CoordReg) (j : Nat) (h : off = coordBase r + 4 * j) (hj : j < 8) (hb : s.busy = false) :
      WriteCase off v s (writeCoord r j v s)
  /-- An accepted PFLAGS write (R38). -/
  | pflags (h : off = 0x01C) (hb : s.busy = false) : WriteCase off v s (writePflags v s)
  /-- An accepted PBLEN write (R39). -/
  | pblen (h : off = 0x020) (hb : s.busy = false) : WriteCase off v s (writePblen v s)
  /-- An accepted PB write (R51). -/
  | pb (j : Nat) (h : off = 0xD00 + 4 * j) (hj : j < 17) (hb : s.busy = false) : WriteCase off v s (writePb j v s)

/-- The one inversion lemma of `writeWindow`. -/
theorem writeWindow_cases (off : Nat) (v : Word) (s : State) (h : off < 0x1000) (h4 : off % 4 = 0) :
    WriteCase off v s (writeWindow off v s) := by
  by_cases hk : s.busy = true ∧ lockedOffset s.cfg off ∧ ¬ (off = 0x008 ∧ v.getLsbD 31 = true)
  · rw [writeWindow_locked h4 hk.2.1 hk.2.2 hk.1]
    exact .dropped hk.1 hk.2.1 hk.2.2
  unfold writeWindow
  unfold lockedOffset at hk
  cases hl : locate off with
  | none =>
    have := locate_none h h4 hl
    exact .ignored (by unfold lockedOffset; omega) (by omega) (by omega) (by omega)
  | some nj =>
    obtain ⟨name, j⟩ := nj
    obtain ⟨hoff, hj⟩ := locate_aligned h h4 hl
    simp only
    have idle : lockedOffset s.cfg off → ¬ (off = 0x008 ∧ v.getLsbD 31 = true) → s.busy = false := fun h1 h2 => by
      cases hb : s.busy with
      | true => exact absurd ⟨hb, h1, h2⟩ hk
      | false => rfl
    unfold lockedOffset at idle
    cases name <;> simp only [offsetOf, wordCount] at hoff hj <;> simp only [writeReg]
    case ID => exact .ignored (by unfold lockedOffset; omega) (by omega) (by omega) (by omega)
    case CFG => exact .ignored (by unfold lockedOffset; omega) (by omega) (by omega) (by omega)
    case MLEN => exact .ignored (by unfold lockedOffset; omega) (by omega) (by omega) (by omega)
    case CTRL =>
      split
      · exact .softReset hoff ‹_›
      · rename_i hv
        have hb := idle (.inl hoff) (fun hc => hv hc.2)
        rw [unlessBusy_idle _ hb]
        exact .ctrl hoff (by simpa using hv) hb
    case STATUS =>
      split
      · exact .clearWerr hoff ‹_›
      · rename_i hv
        exact .ignored (by unfold lockedOffset; omega) (by omega) (by omega) (fun _ => by simpa using hv)
    case INT_EN => exact .intEn hoff
    case INT_STAT =>
      split
      · exact .ack hoff ‹_›
      · rename_i hv
        exact .ignored (by unfold lockedOffset; omega) (by omega) (fun _ => by simpa using hv) (by omega)
    case wide r =>
      have hr := wideBase_range r
      split
      · have hb := idle (by omega) (by omega)
        rw [unlessBusy_idle _ hb]
        exact .wide r j hoff hj ‹_› hb
      · exact .ignored (by unfold lockedOffset; omega) (by omega) (by omega) (by omega)
    case coord r =>
      have hr := coordBase_range r
      have hb := idle (by omega) (by omega)
      rw [unlessBusy_idle _ hb]
      exact .coord r j hoff hj hb
    case PFLAGS =>
      have hb := idle (by omega) (by omega)
      rw [unlessBusy_idle _ hb]
      exact .pflags hoff hb
    case PBLEN =>
      have hb := idle (by omega) (by omega)
      rw [unlessBusy_idle _ hb]
      exact .pblen hoff hb
    case PB =>
      have hb := idle (by omega) (by omega)
      rw [unlessBusy_idle _ hb]
      exact .pb j hoff hj hb

/-- The host side and the parameters are untouched by every write (R156). -/
theorem writeWindow_host (off : Nat) (v : Word) (s : State) (h : off < 0x1000) (h4 : off % 4 = 0) :
    (writeWindow off v s).cfg = s.cfg ∧ (writeWindow off v s).schedule = s.schedule ∧
      (writeWindow off v s).reply = s.reply := by
  generalize hw : writeWindow off v s = t
  have hc := writeWindow_cases off v s h h4
  rw [hw] at hc
  cases hc with
  | ctrl => unfold writeCtrl; split <;> simp
  | wide r => unfold writeWide; split <;> simp
  | coord r => simp [writeCoord]
  | _ => simp

end Sys2Proof.Machine
end

