-- ==== Sys2Proof/Laws/Exec.lean ====
section
/-! SUPPORT. What a completion can do, said once for all sixteen commands: the outcome of each, the modulus it
selects, and the frame of its writes. -/

namespace Sys2Proof.Machine

/-- The result a command of `MODCMDS` writes to D, from `Msel` and `Lsel`; 0 for the other commands. -/
def modResult (i : Instr) (s : State) (m l : Nat) : Nat :=
  match i with
  | .montmul _ => s.a * s.b * radixInv m l % m
  | .tomont _ => s.a * 2 ^ l % m
  | .frommont _ => s.a * radixInv m l % m
  | .modmul _ => s.a * s.b % m
  | .modadd _ => (s.a + s.b) % m
  | .modsub _ => residue ((s.a : Int) - s.b) m
  | .modred _ => s.a % m
  | .modexp _ => powMod s.a s.e m
  | .modinv _ => fermatInv s.a m
  | .nop => 0
  | .setmod => 0
  | .ecadd => 0
  | .ecmul => 0
  | .ecmulLadder => 0
  | .compress => 0
  | .decompress => 0

/-- The point an ECC command writes to R (R109, R114, R117); the identity for the other commands. -/
def pointResult (i : Instr) (s : State) : Point :=
  match i with
  | .ecadd => ecadd (pointP s) (pointQ s)
  | .ecmul => ecmul s.k.toNat (pointP s)
  | .ecmulLadder => ladder s.k.toNat (pointP s)
  | _ => identityPoint

/-- The outcome of a command: the state with its writes applied, or the error (R73, R132). -/
def outcome (i : Instr) (s : State) : Except ErrCode State :=
  match i with
  | .nop => .ok s
  | .setmod => setmodOutcome s
  | .ecadd => .ok (writeR (pointResult .ecadd s) s)
  | .ecmul => .ok (writeR (pointResult .ecmul s) s)
  | .ecmulLadder => .ok (writeR (pointResult .ecmulLadder s) s)
  | .compress => compressOutcome s
  | .decompress => decompressOutcome s
  | .montmul ms => modCommand ms (modResult (.montmul ms) s) s
  | .tomont ms => modCommand ms (modResult (.tomont ms) s) s
  | .frommont ms => modCommand ms (modResult (.frommont ms) s) s
  | .modmul ms => modCommand ms (modResult (.modmul ms) s) s
  | .modadd ms => modCommand ms (modResult (.modadd ms) s) s
  | .modsub ms => modCommand ms (modResult (.modsub ms) s) s
  | .modred ms => modCommand ms (modResult (.modred ms) s) s
  | .modexp ms => modCommand ms (modResult (.modexp ms) s) s
  | .modinv ms => modCommand ms (modResult (.modinv ms) s) s

/-- Every command completes, with its outcome (R73). -/
theorem exec_eq (i : Instr) (s : State) : exec i s = .next (complete (outcome i s) s) := by
  cases i <;> rfl

/-- The nine commands of `MODCMDS` have one shape (R80 to R82). -/
theorem outcome_modcmd {i : Instr} {ms : ModSel} (s : State) (h : i.modsel? = some ms) :
    outcome i s = modCommand ms (modResult i s) s := by
  cases i <;> simp [Instr.modsel?] at h <;> subst h <;> rfl

/-- `selectModulus` answers a modulus exactly when MODSEL selects one (R80, R81). -/
theorem selectModulus_ok {ms : ModSel} {s : State} {m l : Nat} :
    selectModulus ms s = .ok (m, l) ↔ Selects ms s m l := by
  cases ms with
  | p =>
    simp only [selectModulus, Selects, Except.ok.injEq, Prod.mk.injEq, reduceCtorEq, true_and, false_and, or_false]
    exact and_congr eq_comm eq_comm
  | n =>
    simp only [selectModulus, Selects, Except.ok.injEq, Prod.mk.injEq, reduceCtorEq, true_and, false_and, or_false,
      false_or]
    exact and_congr eq_comm eq_comm
  | reserved => simp [selectModulus, Selects]
  | user =>
    simp only [selectModulus, Selects]
    cases hm : s.mrdy <;> cases hc : s.mconst with
    | none => simp
    | some c =>
      obtain ⟨x, y⟩ := c
      simp

/-- The two errors of the common checks (R135, R136); MCONST is there whenever MRDY = 1. -/
theorem selectModulus_error {ms : ModSel} {s : State} {code : ErrCode} (h : selectModulus ms s = .error code) :
    (ms = .reserved ∧ code = .badModsel) ∨
      (ms = .user ∧ code = .modNotReady ∧ (s.mrdy = false ∨ s.mconst = none)) := by
  cases ms with
  | p => simp [selectModulus] at h
  | n => simp [selectModulus] at h
  | reserved =>
    simp only [selectModulus, Except.error.injEq] at h
    exact .inl ⟨rfl, h.symm⟩
  | user =>
    simp only [selectModulus] at h
    cases hm : s.mrdy <;> cases hc : s.mconst <;> simp_all

theorem outcome_of_selects {i : Instr} {ms : ModSel} {s : State} {m l : Nat} (h : i.modsel? = some ms)
    (hs : Selects ms s m l) : outcome i s = .ok (writeD (modResult i s m l) s) := by
  rw [outcome_modcmd s h, modCommand, selectModulus_ok.mpr hs]

/-- The completion of a command of `MODCMDS` whose modulus is selected (R82). -/
theorem exec_of_selects {i : Instr} {ms : ModSel} {s : State} {m l : Nat} (h : i.modsel? = some ms)
    (hs : Selects ms s m l) : exec i s = .next (finish false .none (writeD (modResult i s m l) s)) := by
  rw [exec_eq, outcome_of_selects h hs, complete_ok]

/-- `outcome` answers its error as R73 and R143 order the checks. -/
theorem exec_of_error {i : Instr} {s : State} {code : ErrCode} (h : outcome i s = .error code) :
    exec i s = .next (finish true code s) := by
  rw [exec_eq, h, complete_error]

/-! ### The selected modulus -/

theorem fieldP_odd : fieldP % 2 = 1 := by decide

theorem orderN_odd : orderN % 2 = 1 := by decide

theorem fieldP_lt : fieldP < 2 ^ 256 := by decide

theorem orderN_lt : orderN < 2 ^ 256 := by decide

theorem fieldP_pos : 0 < fieldP := by decide

/-- A selected modulus is odd in every state that meets the invariant (R42, R80). -/
theorem selects_odd {ms : ModSel} {s : State} {m l : Nat} (hi : Inv s) (h : Selects ms s m l) : m % 2 = 1 := by
  rcases h with ⟨-, rfl, -⟩ | ⟨-, rfl, -⟩ | ⟨-, hr, hc⟩
  · exact fieldP_odd
  · exact orderN_odd
  · obtain ⟨hodd, hm, -⟩ := hi.ready hr
    rw [hm] at hc
    simp only [Option.some.injEq, MConst.mk.injEq] at hc
    exact hc.1 ▸ hodd

/-- `MAXBITS` holds the fixed moduli (R8). -/
theorem maxBits_ge {c : Config} (h : c.wf = true) : 256 ≤ c.maxBits := by
  simp [Config.wf] at h
  unfold Config.maxBits
  omega

/-- A selected modulus fits a wide register in every state that meets the invariant (R82). -/
theorem selects_lt {ms : ModSel} {s : State} {m l : Nat} (hi : Inv s) (h : Selects ms s m l) :
    m < 2 ^ s.cfg.maxBits := by
  have hge : 2 ^ 256 ≤ 2 ^ s.cfg.maxBits := Nat.pow_le_pow_right (by norm_num) (maxBits_ge hi.cfg)
  rcases h with ⟨-, rfl, -⟩ | ⟨-, rfl, -⟩ | ⟨-, hr, hc⟩
  · exact fieldP_lt.trans_le hge
  · exact orderN_lt.trans_le hge
  · obtain ⟨-, hm, -⟩ := hi.ready hr
    rw [hm] at hc
    simp only [Option.some.injEq, MConst.mk.injEq] at hc
    exact hc.1 ▸ hi.wide .M

/-- Every result of a command of `MODCMDS` is below its modulus (R92). -/
theorem modResult_lt (i : Instr) (s : State) {m : Nat} (l : Nat) (h : 0 < m) : modResult i s m l < m := by
  cases i
  case modsub => exact residue_lt _ h
  case modexp =>
    show powMod s.a s.e m < m
    rw [powMod_eq]
    exact Nat.mod_lt _ h
  case modinv =>
    show fermatInv s.a m < m
    rw [fermatInv_eq]
    split
    · exact h
    · exact Nat.mod_lt _ h
  all_goals first | exact Nat.mod_lt _ h | exact h

/-! ### The shape of every outcome -/

/-- Everything a completion can write (R21, R132). -/
inductive OutcomeCase (i : Instr) (s : State) : Except ErrCode State → Prop where
  /-- NOP writes nothing (R83). -/
  | nothing (h : i = .nop) : OutcomeCase i s (.ok s)
  /-- A modular result (R82). -/
  | modular (ms : ModSel) (m l : Nat) (h : i.modsel? = some ms) (hs : Selects ms s m l) :
      OutcomeCase i s (.ok (writeD (modResult i s m l) s))
  /-- A prepared modulus (R84). -/
  | modulus (h : i = .setmod) (h0 : s.m ≠ 0) (h2 : s.m % 2 = 1) :
      OutcomeCase i s (.ok (writeModulus s.m (radixBits s.m) s))
  /-- A result point (R109, R114, R117). -/
  | point (h : i = .ecadd ∨ i = .ecmul ∨ i = .ecmulLadder) : OutcomeCase i s (.ok (writeR (pointResult i s) s))
  /-- A compressed encoding (R122). -/
  | encoded (b : Vector Byte 33) (h : i = .compress) (hb : encodePoint (pointR s) = .ok b) :
      OutcomeCase i s (.ok (writeCompressed b s))
  /-- A decoded point (R124). -/
  | decoded (P : Point) (h : i = .decompress) (hP : decodePoint s.pblen.toNat s.pb = .ok P) :
      OutcomeCase i s (.ok (writeP P s))
  /-- An error: nothing is written (R144). -/
  | error (code : ErrCode) (h : code ≠ .none) : OutcomeCase i s (.error code)

theorem encodePoint_error {R : Point} {code : ErrCode} (h : encodePoint R = .error code) :
    R.inf = true ∧ code = .identityNoEncoding := by
  unfold encodePoint at h
  split at h
  · simp_all
  · simp at h

theorem decodePoint_error {n : Nat} {pb : Vector Byte 65} {code : ErrCode} (h : decodePoint n pb = .error code) :
    code = .invalidEncoding := by
  unfold decodePoint at h
  split at h
  · simp at h
  · split at h
    · simp at h
    · simpa using h.symm

/-- The one inversion lemma of the sixteen meanings. -/
theorem outcome_cases (i : Instr) (s : State) : OutcomeCase i s (outcome i s) := by
  cases hi : i.modsel? with
  | some ms =>
    rw [outcome_modcmd s hi, modCommand]
    cases hsel : selectModulus ms s with
    | ok ml => exact .modular ms ml.1 ml.2 hi (selectModulus_ok.mp hsel)
    | error code =>
      refine .error code ?_
      rcases selectModulus_error hsel with ⟨-, rfl⟩ | ⟨-, rfl, -⟩ <;> simp
  | none =>
    cases i <;> simp [Instr.modsel?] at hi
    case nop => exact .nothing rfl
    case setmod =>
      simp only [outcome, setmodOutcome]
      split
      · exact .error _ (by simp)
      · split
        · exact .error _ (by simp)
        · exact .modulus rfl ‹_› (by omega)
    case ecadd => exact .point (.inl rfl)
    case ecmul => exact .point (.inr (.inl rfl))
    case ecmulLadder => exact .point (.inr (.inr rfl))
    case compress =>
      simp only [outcome, compressOutcome]
      cases hb : encodePoint (pointR s) with
      | ok b => exact .encoded b rfl hb
      | error code => exact .error code (by rw [(encodePoint_error hb).2]; simp)
    case decompress =>
      simp only [outcome, decompressOutcome]
      cases hP : decodePoint s.pblen.toNat s.pb with
      | ok P => exact .decoded P rfl hP
      | error code => exact .error code (by rw [decodePoint_error hP]; simp)

/-- What every completion leaves alone, and the status it always writes (R73). -/
theorem complete_frame (i : Instr) (s : State) :
    (complete (outcome i s) s).cfg = s.cfg ∧ (complete (outcome i s) s).schedule = s.schedule ∧
      (complete (outcome i s) s).reply = s.reply ∧ (complete (outcome i s) s).werr = s.werr ∧
      (complete (outcome i s) s).doneIe = s.doneIe ∧ (complete (outcome i s) s).busy = false ∧
      (complete (outcome i s) s).done = true ∧ (complete (outcome i s) s).doneIp = true := by
  have h := outcome_cases i s
  revert h
  generalize outcome i s = o
  intro h
  cases h <;> simp [complete, completeOk, raiseEngineError, writeD, writeModulus, writeR, writeCompressed, writeP]

/-- A completion neither reads nor writes WERR, DONE_IE and the host side, and does not read DONE_IP (R33, R36,
R73). -/
theorem complete_side (i : Instr) (s : State) (w ie ip : Bool) (events : List Event) (lastReply : Option Word) :
    complete (outcome i { s with werr := w, doneIe := ie, doneIp := ip, schedule := events, reply := lastReply })
        { s with werr := w, doneIe := ie, doneIp := ip, schedule := events, reply := lastReply } =
      { complete (outcome i s) s with werr := w, doneIe := ie, schedule := events, reply := lastReply } := by
  cases hm : i.modsel? with
  | some ms =>
    rw [outcome_modcmd _ hm, outcome_modcmd _ hm]
    have h1 : selectModulus ms { s with werr := w, doneIe := ie, doneIp := ip, schedule := events, reply := lastReply } =
        selectModulus ms s := by cases ms <;> rfl
    have h2 : modResult i { s with werr := w, doneIe := ie, doneIp := ip, schedule := events, reply := lastReply } =
        modResult i s := by cases i <;> rfl
    unfold modCommand
    rw [h1, h2]
    cases selectModulus ms s <;> rfl
  | none =>
    cases i <;> simp [Instr.modsel?] at hm
    case setmod =>
      simp only [outcome, setmodOutcome]
      split
      · rfl
      · split <;> rfl
    case compress =>
      simp only [outcome, compressOutcome, pointR]
      cases encodePoint { x := s.rx, y := s.ry, inf := s.rinf } <;> rfl
    case decompress =>
      simp only [outcome, decompressOutcome]
      cases decodePoint s.pblen.toNat s.pb <;> rfl
    all_goals rfl

end Sys2Proof.Machine
end

