-- ==== Sys2Proof/Laws/Primes.lean ====
section
/-! SUPPORT. `p` and `n` are prime (R4), by Lucas certificates down to primes that trial division settles. -/

namespace Sys2Proof.Machine

set_option Elab.async false

/-- Lucas: an element whose order modulo `p` is `p − 1` makes `p` prime. `qs` is the factorisation of `p − 1`. -/
theorem prime_of_lucas {p a : Nat} {qs : List Nat} (h1 : 1 < p) (hprod : qs.prod = p - 1)
    (ha : powMod a (p - 1) p = 1) (hne : ∀ q ∈ qs, powMod a ((p - 1) / q) p ≠ 1)
    (hqs : ∀ q ∈ qs, Nat.Prime q) : Nat.Prime p := by
  have hone : (1 : Nat) % p = 1 := Nat.mod_eq_of_lt h1
  have key : ∀ e : Nat, ((a : ZMod p) ^ e = 1) ↔ powMod a e p = 1 := by
    intro e
    have hc : (((a ^ e : Nat) : ZMod p) = ((1 : Nat) : ZMod p)) ↔ a ^ e % p = 1 % p := ZMod.natCast_eq_natCast_iff' _ _ _
    rw [powMod_eq]
    rw [hone] at hc
    simpa using hc
  refine lucas_primality p (a : ZMod p) ((key _).mpr ha) fun q hq hdvd => ?_
  rw [Ne, key]
  rw [← hprod] at hdvd
  obtain ⟨r, hr, hqr⟩ := (Prime.dvd_prod_iff hq.prime).mp hdvd
  have : q = r := (Nat.prime_dvd_prime_iff_eq hq (hqs r hr)).mp hqr
  exact this ▸ hne r hr

theorem prime_21_bits_781 : Nat.Prime 1206781 := by
  refine prime_of_lucas (a := 10) (qs := [2, 2, 3, 5, 20113]) (by decide +kernel) (by decide +kernel)
    (by decide +kernel) (by decide +kernel) ?_
  simp only [List.forall_mem_cons, List.not_mem_nil, false_imp_iff, implies_true, and_true]
  exact ⟨by norm_num, by norm_num, by norm_num, by norm_num, by norm_num⟩

theorem prime_23_bits_687 : Nat.Prime 7240687 := by
  refine prime_of_lucas (a := 3) (qs := [2, 3, 1206781]) (by decide +kernel) (by decide +kernel)
    (by decide +kernel) (by decide +kernel) ?_
  simp only [List.forall_mem_cons, List.not_mem_nil, false_imp_iff, implies_true, and_true]
  exact ⟨by norm_num, by norm_num, prime_21_bits_781⟩

theorem prime_27_bits_1 : Nat.Prime 107590001 := by
  refine prime_of_lucas (a := 3) (qs := [2, 2, 2, 2, 5, 5, 5, 5, 7, 29, 53]) (by decide +kernel) (by decide +kernel)
    (by decide +kernel) (by decide +kernel) ?_
  simp only [List.forall_mem_cons, List.not_mem_nil, false_imp_iff, implies_true, and_true]
  exact ⟨by norm_num, by norm_num, by norm_num, by norm_num, by norm_num, by norm_num, by norm_num, by norm_num, by norm_num, by norm_num, by norm_num⟩

theorem prime_128_bits_977 : Nat.Prime 255515944373312847190720520512484175977 := by
  refine prime_of_lucas (a := 3) (qs := [2, 2, 2, 7, 7, 11, 1627, 2657, 4423, 41201, 96557, 7240687, 107590001]) (by decide +kernel) (by decide +kernel)
    (by decide +kernel) (by decide +kernel) ?_
  simp only [List.forall_mem_cons, List.not_mem_nil, false_imp_iff, implies_true, and_true]
  exact ⟨by norm_num, by norm_num, by norm_num, by norm_num, by norm_num, by norm_num, by norm_num, by norm_num, by norm_num, by norm_num, by norm_num, prime_23_bits_687, prime_27_bits_1⟩

theorem prime_24_bits_831 : Nat.Prime 13331831 := by
  refine prime_of_lucas (a := 13) (qs := [2, 5, 971, 1373]) (by decide +kernel) (by decide +kernel)
    (by decide +kernel) (by decide +kernel) ?_
  simp only [List.forall_mem_cons, List.not_mem_nil, false_imp_iff, implies_true, and_true]
  exact ⟨by norm_num, by norm_num, by norm_num, by norm_num⟩

theorem prime_58_bits_801 : Nat.Prime 173378833005251801 := by
  refine prime_of_lucas (a := 6) (qs := [2, 2, 2, 5, 5, 2621, 24809, 13331831]) (by decide +kernel) (by decide +kernel)
    (by decide +kernel) (by decide +kernel) ?_
  simp only [List.forall_mem_cons, List.not_mem_nil, false_imp_iff, implies_true, and_true]
  exact ⟨by norm_num, by norm_num, by norm_num, by norm_num, by norm_num, by norm_num, by norm_num, prime_24_bits_831⟩

theorem prime_75_bits_353 : Nat.Prime 22149492674086928081353 := by
  refine prime_of_lucas (a := 5) (qs := [2, 2, 2, 3, 5323, 173378833005251801]) (by decide +kernel) (by decide +kernel)
    (by decide +kernel) (by decide +kernel) ?_
  simp only [List.forall_mem_cons, List.not_mem_nil, false_imp_iff, implies_true, and_true]
  exact ⟨by norm_num, by norm_num, by norm_num, by norm_num, by norm_num, prime_58_bits_801⟩

theorem prime_77_bits_119 : Nat.Prime 132896956044521568488119 := by
  refine prime_of_lucas (a := 6) (qs := [2, 3, 22149492674086928081353]) (by decide +kernel) (by decide +kernel)
    (by decide +kernel) (by decide +kernel) ?_
  simp only [List.forall_mem_cons, List.not_mem_nil, false_imp_iff, implies_true, and_true]
  exact ⟨by norm_num, by norm_num, prime_75_bits_353⟩

theorem prime_237_bits_371 : Nat.Prime 205115282021455665897114700593932402728804164701536103180137503955397371 := by
  refine prime_of_lucas (a := 10) (qs := [2, 3, 5, 29, 29, 31, 7723, 132896956044521568488119, 255515944373312847190720520512484175977]) (by decide +kernel) (by decide +kernel)
    (by decide +kernel) (by decide +kernel) ?_
  simp only [List.forall_mem_cons, List.not_mem_nil, false_imp_iff, implies_true, and_true]
  exact ⟨by norm_num, by norm_num, by norm_num, by norm_num, by norm_num, by norm_num, by norm_num, prime_77_bits_119, prime_128_bits_977⟩

theorem fieldP_prime : Nat.Prime fieldP := by
  refine prime_of_lucas (a := 3) (qs := [2, 3, 7, 13441, 205115282021455665897114700593932402728804164701536103180137503955397371]) (by decide +kernel) (by decide +kernel)
    (by decide +kernel) (by decide +kernel) ?_
  simp only [List.forall_mem_cons, List.not_mem_nil, false_imp_iff, implies_true, and_true]
  exact ⟨by norm_num, by norm_num, by norm_num, by norm_num, prime_237_bits_371⟩

theorem prime_26_bits_919 : Nat.Prime 44706919 := by
  refine prime_of_lucas (a := 6) (qs := [2, 3, 797, 9349]) (by decide +kernel) (by decide +kernel)
    (by decide +kernel) (by decide +kernel) ?_
  simp only [List.forall_mem_cons, List.not_mem_nil, false_imp_iff, implies_true, and_true]
  exact ⟨by norm_num, by norm_num, by norm_num, by norm_num⟩

theorem prime_17_bits_233 : Nat.Prime 120233 := by
  refine prime_of_lucas (a := 3) (qs := [2, 2, 2, 7, 19, 113]) (by decide +kernel) (by decide +kernel)
    (by decide +kernel) (by decide +kernel) ?_
  simp only [List.forall_mem_cons, List.not_mem_nil, false_imp_iff, implies_true, and_true]
  exact ⟨by norm_num, by norm_num, by norm_num, by norm_num, by norm_num, by norm_num⟩

theorem prime_68_bits_449 : Nat.Prime 174723607534414371449 := by
  refine prime_of_lucas (a := 3) (qs := [2, 2, 2, 17, 59, 4051, 120233, 44706919]) (by decide +kernel) (by decide +kernel)
    (by decide +kernel) (by decide +kernel) ?_
  simp only [List.forall_mem_cons, List.not_mem_nil, false_imp_iff, implies_true, and_true]
  exact ⟨by norm_num, by norm_num, by norm_num, by norm_num, by norm_num, by norm_num, prime_17_bits_233, prime_26_bits_919⟩

theorem prime_23_bits_609 : Nat.Prime 4681609 := by
  refine prime_of_lucas (a := 23) (qs := [2, 2, 2, 3, 97, 2011]) (by decide +kernel) (by decide +kernel)
    (by decide +kernel) (by decide +kernel) ?_
  simp only [List.forall_mem_cons, List.not_mem_nil, false_imp_iff, implies_true, and_true]
  exact ⟨by norm_num, by norm_num, by norm_num, by norm_num, by norm_num, by norm_num⟩

theorem prime_57_bits_537 : Nat.Prime 107361793816595537 := by
  refine prime_of_lucas (a := 3) (qs := [2, 2, 2, 2, 16699, 85831, 4681609]) (by decide +kernel) (by decide +kernel)
    (by decide +kernel) (by decide +kernel) ?_
  simp only [List.forall_mem_cons, List.not_mem_nil, false_imp_iff, implies_true, and_true]
  exact ⟨by norm_num, by norm_num, by norm_num, by norm_num, by norm_num, by norm_num, prime_23_bits_609⟩

theorem prime_19_bits_873 : Nat.Prime 305873 := by
  refine prime_of_lucas (a := 3) (qs := [2, 2, 2, 2, 7, 2731]) (by decide +kernel) (by decide +kernel)
    (by decide +kernel) (by decide +kernel) ?_
  simp only [List.forall_mem_cons, List.not_mem_nil, false_imp_iff, implies_true, and_true]
  exact ⟨by norm_num, by norm_num, by norm_num, by norm_num, by norm_num, by norm_num⟩

theorem prime_21_bits_771 : Nat.Prime 1627771 := by
  refine prime_of_lucas (a := 3) (qs := [2, 3, 5, 29, 1871]) (by decide +kernel) (by decide +kernel)
    (by decide +kernel) (by decide +kernel) ?_
  simp only [List.forall_mem_cons, List.not_mem_nil, false_imp_iff, implies_true, and_true]
  exact ⟨by norm_num, by norm_num, by norm_num, by norm_num, by norm_num⟩

theorem prime_39_bits_677 : Nat.Prime 297159362677 := by
  refine prime_of_lucas (a := 2) (qs := [2, 2, 3, 3, 11, 461, 1627771]) (by decide +kernel) (by decide +kernel)
    (by decide +kernel) (by decide +kernel) ?_
  simp only [List.forall_mem_cons, List.not_mem_nil, false_imp_iff, implies_true, and_true]
  exact ⟨by norm_num, by norm_num, by norm_num, by norm_num, by norm_num, by norm_num, prime_21_bits_771⟩

theorem prime_30_bits_713 : Nat.Prime 545358713 := by
  refine prime_of_lucas (a := 5) (qs := [2, 2, 2, 41, 59, 28181]) (by decide +kernel) (by decide +kernel)
    (by decide +kernel) (by decide +kernel) ?_
  simp only [List.forall_mem_cons, List.not_mem_nil, false_imp_iff, implies_true, and_true]
  exact ⟨by norm_num, by norm_num, by norm_num, by norm_num, by norm_num, by norm_num⟩

theorem prime_95_bits_179 : Nat.Prime 29047611873442575647497758179 := by
  refine prime_of_lucas (a := 2) (qs := [2, 293, 305873, 545358713, 297159362677]) (by decide +kernel) (by decide +kernel)
    (by decide +kernel) (by decide +kernel) ?_
  simp only [List.forall_mem_cons, List.not_mem_nil, false_imp_iff, implies_true, and_true]
  exact ⟨by norm_num, by norm_num, prime_19_bits_873, prime_30_bits_713, prime_39_bits_677⟩

theorem prime_109_bits_189 : Nat.Prime 341948486974166000522343609283189 := by
  refine prime_of_lucas (a := 2) (qs := [2, 2, 3, 3, 3, 109, 29047611873442575647497758179]) (by decide +kernel) (by decide +kernel)
    (by decide +kernel) (by decide +kernel) ?_
  simp only [List.forall_mem_cons, List.not_mem_nil, false_imp_iff, implies_true, and_true]
  exact ⟨by norm_num, by norm_num, by norm_num, by norm_num, by norm_num, by norm_num, prime_95_bits_179⟩

theorem orderN_prime : Nat.Prime orderN := by
  refine prime_of_lucas (a := 7) (qs := [2, 2, 2, 2, 2, 2, 3, 149, 631, 107361793816595537, 174723607534414371449, 341948486974166000522343609283189]) (by decide +kernel) (by decide +kernel)
    (by decide +kernel) (by decide +kernel) ?_
  simp only [List.forall_mem_cons, List.not_mem_nil, false_imp_iff, implies_true, and_true]
  exact ⟨by norm_num, by norm_num, by norm_num, by norm_num, by norm_num, by norm_num, by norm_num, by norm_num, by norm_num, prime_57_bits_537, prime_68_bits_449, prime_109_bits_189⟩

end Sys2Proof.Machine
end

