-- ==== Sys2Proof/Laws/GroupLaw.lean ====
section
/-! SUPPORT. `ecadd` is the group law of a Weierstrass curve `y² = x³ + b` over the integers modulo `p`, and what
follows for the two scalar multiplications (R111, R118, R119). -/

namespace Sys2Proof.Machine

set_option Elab.async false

/-- The field the curve formulas work in (R106). -/
abbrev FieldP := ZMod fieldP

theorem fact_fieldP : Fact (Nat.Prime fieldP) := ⟨fieldP_prime⟩

/-! ### The identity operand -/

theorem ecadd_identity_right {P : Point} (h : P.inf = false) : ecadd P identityPoint = P := by
  obtain ⟨x, y, i⟩ := P
  simp_all [ecadd, identityPoint]

theorem ecadd_identity_left {P : Point} (h : P.inf = false) : ecadd identityPoint P = P := by
  obtain ⟨x, y, i⟩ := P
  simp_all [ecadd, identityPoint]

theorem ecadd_identities : ecadd identityPoint identityPoint = identityPoint := rfl

/-- The affine point with these coordinates, reduced. -/
def pointOf (x y : FieldP) : Point := { x := BitVec.ofNat 256 x.val, y := BitVec.ofNat 256 y.val, inf := false }

@[simp] theorem pointOf_inf (x y : FieldP) : (pointOf x y).inf = false := rfl

/-! ### Scalars and operands -/

/-- The scalar bits from `i` up, split at bit `i`. -/
theorem bits_from (k i n : Nat) :
    k / 2 ^ i % 2 ^ (n + 1) = (if k.testBit i then 1 else 0) + 2 * (k / 2 ^ (i + 1) % 2 ^ n) := by
  rw [pow_succ', Nat.mod_mul, Nat.div_div_eq_div_mul, ← pow_succ]
  congr 1
  rw [Nat.testBit_eq_decide_div_mod_eq]
  have := Nat.mod_two_eq_zero_or_one (k / 2 ^ i)
  split <;> simp_all

/-- The scalar bits below `i + 1`, split at bit `i`. -/
theorem bits_below (k i : Nat) : k % 2 ^ (i + 1) = (if k.testBit i then 2 ^ i else 0) + k % 2 ^ i := by
  rw [Nat.mod_pow_succ, Nat.testBit_eq_decide_div_mod_eq]
  have := Nat.mod_two_eq_zero_or_one (k / 2 ^ i)
  split <;> simp_all [add_comm]

theorem ecOperand_affine {P : Point} (h : P.inf = false) : ecOperand P = P := by
  obtain ⟨x, y, i⟩ := P
  simp_all [ecOperand]

theorem ecmulLoop_identity (k n : Nat) {R : Point} (hR : ecadd R identityPoint = R) :
    ∀ i, ecmulLoop k n i R identityPoint = R := by
  induction n with
  | zero => exact fun i => rfl
  | succ n ih =>
    intro i
    rw [ecmulLoop, ecadd_identities, hR]
    split <;> exact ih _

theorem ladderLoop_of_zero (k n : Nat) {P : Point} (hP : P.inf = false) (h2 : ecadd P P = identityPoint) :
    ladderLoop k n identityPoint P = (if k % 2 ^ n % 2 = 0 then identityPoint else P) ∧
      ladderLoop k n P identityPoint = if n = 0 ∨ k % 2 ^ n % 2 = 1 then P else identityPoint := by
  induction n with
  | zero => simp [ladderLoop, Nat.mod_one]
  | succ n ih =>
    have hlow : k % 2 ^ (n + 1) % 2 = k % 2 := Nat.mod_mod_of_dvd k (Dvd.intro_left (2 ^ n) (pow_succ 2 n).symm)
    simp only [ladderLoop, ecadd_identity_left hP, ecadd_identity_right hP, ecadd_identities, h2, ih.1, ih.2, hlow]
    cases n with
    | zero =>
      simp [Nat.testBit_zero, Nat.mod_one]
      rcases Nat.mod_two_eq_zero_or_one k with h | h <;> simp [h]
    | succ n =>
      have hlow' : k % 2 ^ (n + 1) % 2 = k % 2 := Nat.mod_mod_of_dvd k (Dvd.intro_left (2 ^ n) (pow_succ 2 n).symm)
      rcases Nat.mod_two_eq_zero_or_one k with h | h <;> simp [h, hlow']

/-- Both multiplications answer the identity for an identity operand (R115). -/
theorem mul_of_identity {P : Point} (h : P.inf = true) (k : Nat) :
    ecmul k P = identityPoint ∧ ladder k P = identityPoint := by
  have ho : ecOperand P = identityPoint := by simp [ecOperand, h]
  refine ⟨?_, ?_⟩
  · unfold ecmul
    rw [ho]
    exact ecmulLoop_identity k 256 ecadd_identities 0
  · unfold ladder
    rw [ho]
    have : ∀ n, ladderLoop k n identityPoint identityPoint = identityPoint := fun n => by
      induction n with
      | zero => rfl
      | succ n ih =>
        rw [ladderLoop, ecadd_identities, ih]
        split <;> rfl
    exact this 256

/-! ### The base point -/

/-- `n·G = O`, by running double-and-add (R4, R115). -/
theorem ecmul_orderN : ecmul orderN baseG = identityPoint := by decide +kernel

theorem onCurve_baseG : OnCurve baseG := by
  right
  decide +kernel

section field

variable [Fact (Nat.Prime fieldP)]

/-! ### The field operations of the engine, read in the field -/

theorem fred_cast (a : Nat) : ((fred a : Nat) : FieldP) = (a : FieldP) := by
  unfold fred
  exact ZMod.natCast_mod a fieldP

theorem fred_eq_iff {a b : Nat} : fred a = fred b ↔ (a : FieldP) = (b : FieldP) := by
  unfold fred
  exact (ZMod.natCast_eq_natCast_iff' a b fieldP).symm

theorem fred_eq_val (a : Nat) : fred a = (a : FieldP).val := (ZMod.val_natCast fieldP a).symm

theorem residue_eq_val (a : Int) : residue a fieldP = (a : FieldP).val := by
  rw [← residue_zmod a fieldP_prime.pos, ZMod.val_natCast, Nat.mod_eq_of_lt (residue_lt a fieldP_prime.pos)]

/-- `finv` is the inverse of the field, with `0⁻¹ = 0` (R107). -/
theorem finv_cast (a : Nat) : ((finv a : Nat) : FieldP) = (a : FieldP)⁻¹ := by
  rw [finv_eq, ZMod.natCast_mod, Nat.cast_pow, ZMod.natCast_mod]
  by_cases h : (a : FieldP) = 0
  · rw [h, inv_zero, zero_pow]
    decide
  · have hp : 2 ≤ fieldP := fieldP_prime.two_le
    have h1 : (a : FieldP) ^ (fieldP - 2) * (a : FieldP) = 1 := by
      rw [← pow_succ, show fieldP - 2 + 1 = fieldP - 1 by omega]
      exact ZMod.pow_card_sub_one_eq_one h
    exact eq_inv_of_mul_eq_one_left h1

theorem two_ne_zero_fieldP : (2 : FieldP) ≠ 0 := by
  have h : ((2 : Nat) : FieldP) ≠ 0 := by
    rw [Ne, ZMod.natCast_eq_zero_iff]
    decide
  exact_mod_cast h

/-- 3 is no square modulo `p`. -/
theorem three_not_square : ¬ IsSquare (3 : FieldP) := by
  intro h
  have h3 : (3 : FieldP) ≠ 0 := by
    have : ((3 : Nat) : FieldP) ≠ 0 := by
      rw [Ne, ZMod.natCast_eq_zero_iff]
      decide
    exact_mod_cast this
  have he := (ZMod.euler_criterion fieldP h3).mp h
  have hn : ((3 ^ (fieldP / 2) % fieldP : Nat) : FieldP) = ((1 : Nat) : FieldP) := by
    rw [ZMod.natCast_mod, Nat.cast_pow, Nat.cast_one]
    exact_mod_cast he
  rw [← powMod_eq, ZMod.natCast_eq_natCast_iff'] at hn
  revert hn
  decide +kernel

/-! ### The group law -/

/-- The curve `y² = x³ + b`; secp256k1 has `b = 7` (R111, R118). -/
def curve (b : FieldP) : WeierstrassCurve.Affine FieldP := { a₁ := 0, a₂ := 0, a₃ := 0, a₄ := 0, a₆ := b }

/-- The form in which the engine writes a group element: the identity, or reduced coordinates (R105). -/
def canonical {b : FieldP} : (curve b).Point → Point
  | .zero => identityPoint
  | .some x y _ => pointOf x y

/-- A point operand denotes a group element: any identity, or coordinates read modulo `p` (R105). -/
def Denotes {b : FieldP} (P : Point) : (curve b).Point → Prop
  | .zero => P.inf = true
  | .some x y _ => P.inf = false ∧ (P.x.toNat : FieldP) = x ∧ (P.y.toNat : FieldP) = y

theorem val_toNat (x : FieldP) : (BitVec.ofNat 256 x.val).toNat = x.val := by
  rw [BitVec.toNat_ofNat, Nat.mod_eq_of_lt]
  exact (ZMod.val_lt x).trans (by decide)

@[simp] theorem pointOf_x (x y : FieldP) : ((pointOf x y).x.toNat : FieldP) = x := by
  rw [pointOf, val_toNat, ZMod.natCast_zmod_val]

@[simp] theorem pointOf_y (x y : FieldP) : ((pointOf x y).y.toNat : FieldP) = y := by
  rw [pointOf, val_toNat, ZMod.natCast_zmod_val]

theorem denotes_canonical {b : FieldP} (A : (curve b).Point) : Denotes (canonical A) A := by
  cases A with
  | zero => rfl
  | some x y h => exact ⟨rfl, pointOf_x x y, pointOf_y x y⟩

/-- The slope of two affine points, in the field (R108). -/
def fieldSlope (x1 y1 x2 y2 : FieldP) : FieldP :=
  if x1 = x2 ∧ y1 = y2 then 3 * x1 ^ 2 / (2 * y1) else (y1 - y2) / (x1 - x2)

theorem ecSlope_cast (x1 y1 x2 y2 : Nat) :
    ((ecSlope (fred x1) (fred y1) (fred x2) (fred y2) : Nat) : FieldP) = fieldSlope x1 y1 x2 y2 := by
  unfold ecSlope fieldSlope
  simp only [fred_eq_iff]
  split
  · rw [ZMod.natCast_mod, Nat.cast_mul, finv_cast, ZMod.natCast_mod, div_eq_mul_inv]
    push_cast [fred_cast]
    rfl
  · rw [ZMod.natCast_mod, Nat.cast_mul, finv_cast, residue_zmod _ fieldP_prime.pos,
      residue_zmod _ fieldP_prime.pos, div_eq_mul_inv]
    push_cast [fred_cast]
    rfl

theorem ecChord_eq (s x1 y1 x2 : Nat) : ecChord s (fred x1) (fred y1) (fred x2) =
    pointOf ((s : FieldP) ^ 2 - x1 - x2) ((s : FieldP) * (x1 - ((s : FieldP) ^ 2 - x1 - x2)) - y1) := by
  have hx : ((residue ((s : Int) ^ 2 - fred x1 - fred x2) fieldP : Nat) : FieldP) = (s : FieldP) ^ 2 - x1 - x2 := by
    rw [residue_zmod _ fieldP_prime.pos]
    push_cast [fred_cast]
    rfl
  unfold ecChord pointOf
  simp only [Point.mk.injEq, and_true]
  refine ⟨?_, ?_⟩
  · rw [residue_eq_val]
    congr 2
    push_cast [fred_cast]
    rfl
  · rw [residue_eq_val]
    congr 2
    push_cast [fred_cast, hx]
    rfl

theorem neg_eq_iff {y1 y2 : Nat} : fred y1 = (fieldP - fred y2) % fieldP ↔ (y1 : FieldP) = -(y2 : FieldP) := by
  have hlt : fred y2 ≤ fieldP := (Nat.mod_lt _ fieldP_prime.pos).le
  rw [show (fieldP - fred y2) % fieldP = fred (fieldP - fred y2) from rfl, fred_eq_iff, Nat.cast_sub hlt,
    ZMod.natCast_self, fred_cast, zero_sub]

/-- `ecadd` of two affine points, in the field (R108). -/
theorem ecadd_affine {P Q : Point} (hP : P.inf = false) (hQ : Q.inf = false) {x1 y1 x2 y2 : FieldP}
    (hx1 : (P.x.toNat : FieldP) = x1) (hy1 : (P.y.toNat : FieldP) = y1) (hx2 : (Q.x.toNat : FieldP) = x2)
    (hy2 : (Q.y.toNat : FieldP) = y2) :
    ecadd P Q = if x1 = x2 ∧ y1 = -y2 then identityPoint
      else pointOf (fieldSlope x1 y1 x2 y2 ^ 2 - x1 - x2)
        (fieldSlope x1 y1 x2 y2 * (x1 - (fieldSlope x1 y1 x2 y2 ^ 2 - x1 - x2)) - y1) := by
  subst hx1 hy1 hx2 hy2
  unfold ecadd ecaddAffine
  simp only [hP, hQ, Bool.false_eq_true, if_false, fred_eq_iff, neg_eq_iff]
  split
  · rfl
  · rw [ecChord_eq, ecSlope_cast]

theorem curve_negY (b x y : FieldP) : (curve b).negY x y = -y := by
  simp [WeierstrassCurve.Affine.negY, curve]

theorem curve_slope {b x1 y1 x2 y2 : FieldP} (h1 : (curve b).Equation x1 y1) (h2 : (curve b).Equation x2 y2)
    (h : ¬(x1 = x2 ∧ y1 = -y2)) : (curve b).slope x1 x2 y1 y2 = fieldSlope x1 y1 x2 y2 := by
  unfold fieldSlope
  by_cases hx : x1 = x2
  · have hy : y1 ≠ (curve b).negY x2 y2 := by
      rw [curve_negY]
      exact fun hn => h ⟨hx, hn⟩
    have hyy : y1 = y2 := WeierstrassCurve.Affine.Y_eq_of_Y_ne h1 h2 hx hy
    rw [if_pos ⟨hx, hyy⟩, WeierstrassCurve.Affine.slope_of_Y_ne hx hy, curve_negY]
    simp [curve]
    ring
  · rw [if_neg (fun hn => hx hn.1), WeierstrassCurve.Affine.slope_of_X_ne hx]

/-- On affine operands `ecadd` writes the group law's result, reduced (R111). -/
theorem ecadd_of_affine {b : FieldP} {P Q : Point} {A B : (curve b).Point} (hP : P.inf = false)
    (hQ : Q.inf = false) (hA : Denotes P A) (hB : Denotes Q B) : ecadd P Q = canonical (A + B) := by
  cases A with
  | zero =>
    have : P.inf = true := hA
    simp [hP] at this
  | some x1 y1 h1 =>
    cases B with
    | zero =>
      have : Q.inf = true := hB
      simp [hQ] at this
    | some x2 y2 h2 =>
      rw [ecadd_affine hP hQ hA.2.1 hA.2.2 hB.2.1 hB.2.2]
      split
      · rename_i hn
        rw [WeierstrassCurve.Affine.Point.add_of_Y_eq hn.1 (by rw [curve_negY]; exact hn.2)]
        rfl
      · rename_i hn
        rw [WeierstrassCurve.Affine.Point.add_some (by rw [curve_negY]; exact hn)]
        simp only [canonical]
        rw [curve_slope h1.1 h2.1 hn]
        congr 1
        · simp [WeierstrassCurve.Affine.addX, curve]
        · simp [WeierstrassCurve.Affine.addY, WeierstrassCurve.Affine.negAddY, WeierstrassCurve.Affine.negY,
            WeierstrassCurve.Affine.addX, curve]
          ring

/-- On operands in the engine's own form `ecadd` is the group law (R111). -/
theorem ecadd_canonical {b : FieldP} (A B : (curve b).Point) :
    ecadd (canonical A) (canonical B) = canonical (A + B) := by
  cases A with
  | zero =>
    rw [← WeierstrassCurve.Affine.Point.zero_def, zero_add]
    cases B with
    | zero => rfl
    | some x y h => exact ecadd_identity_left rfl
  | some x y h =>
    cases B with
    | zero =>
      rw [← WeierstrassCurve.Affine.Point.zero_def, add_zero]
      exact ecadd_identity_right rfl
    | some x' y' h' => exact ecadd_of_affine rfl rfl (denotes_canonical _) (denotes_canonical _)

/-! ### Scalar multiples -/

/-- The nonsingular affine point of its curve that an operand with `Y ≢ 0` denotes. -/
theorem exists_denotes {P : Point} (hP : P.inf = false) (hy : (P.y.toNat : FieldP) ≠ 0) :
    ∃ (b : FieldP) (A : (curve b).Point), Denotes P A := by
  refine ⟨(P.y.toNat : FieldP) ^ 2 - (P.x.toNat : FieldP) ^ 3,
    .some (P.x.toNat : FieldP) (P.y.toNat : FieldP) ?_, hP, rfl, rfl⟩
  rw [WeierstrassCurve.Affine.nonsingular_iff]
  refine ⟨?_, .inr ?_⟩
  · rw [WeierstrassCurve.Affine.equation_iff]
    simp [curve]
  · simp only [curve, zero_mul, sub_zero]
    intro h
    have h2 : (2 : FieldP) * (P.y.toNat : FieldP) = 0 := by linear_combination h
    rcases mul_eq_zero.mp h2 with h2 | h2
    · exact two_ne_zero_fieldP h2
    · exact hy h2

/-- No element has order 4: otherwise 3 would be a square (R118). -/
theorem no_order_four {b : FieldP} (T : (curve b).Point) (h : (T + T) + (T + T) = 0) : T + T = 0 := by
  cases T with
  | zero => exact add_zero _
  | some x y hT =>
    by_cases hy : y = 0
    · exact WeierstrassCurve.Affine.Point.add_self_of_Y_eq (by rw [curve_negY, hy, neg_zero])
    have hne : ¬(x = x ∧ y = -y) := by
      rintro ⟨-, h2⟩
      have h3 : (2 : FieldP) * y = 0 := by linear_combination h2
      rcases mul_eq_zero.mp h3 with h3 | h3
      · exact two_ne_zero_fieldP h3
      · exact hy h3
    have hadd := WeierstrassCurve.Affine.Point.add_some (W := curve b) (h₁ := hT) (h₂ := hT)
      (by rw [curve_negY]; exact hne)
    have hslope : (curve b).slope x x y y = 3 * x ^ 2 / (2 * y) := by
      rw [curve_slope hT.1 hT.1 hne, fieldSlope, if_pos ⟨rfl, rfl⟩]
    rw [hadd] at h
    exfalso
    have hneg := eq_neg_of_add_eq_zero_left h
    rw [WeierstrassCurve.Affine.Point.neg_some, WeierstrassCurve.Affine.Point.some.injEq, curve_negY] at hneg
    generalize (curve b).slope x x y y = s at hslope hneg
    have hsy : s * (2 * y) = 3 * x ^ 2 := by
      rw [hslope, div_mul_cancel₀]
      exact mul_ne_zero two_ne_zero_fieldP hy
    have hY : (curve b).addY x x y s = 0 := by
      have h2 : (2 : FieldP) * (curve b).addY x x y s = 0 := by linear_combination hneg.2
      exact (mul_eq_zero.mp h2).resolve_left two_ne_zero_fieldP
    have hcub : s ^ 3 - 3 * x * s + y = 0 := by
      have h2 : (curve b).addY x x y s = -(s ^ 3 - 3 * x * s + y) := by
        simp [WeierstrassCurve.Affine.addY, WeierstrassCurve.Affine.negAddY, WeierstrassCurve.Affine.negY,
          WeierstrassCurve.Affine.addX, curve]
        ring
      rw [h2] at hY
      exact neg_eq_zero.mp hY
    have hpoly : 8 * y ^ 4 - 36 * x ^ 3 * y ^ 2 + 27 * x ^ 6 = 0 := by
      linear_combination (8 * y ^ 3) * hcub -
        (4 * y ^ 2 * s ^ 2 + s * (2 * y) * 3 * x ^ 2 + 9 * x ^ 4 - 12 * x * y ^ 2) * hsy
    have hsq : (8 * y ^ 2 - 18 * x ^ 3) ^ 2 = 3 * (6 * x ^ 3) ^ 2 := by linear_combination 8 * hpoly
    by_cases hx : 6 * x ^ 3 = 0
    · have hx3 : x ^ 3 = 0 := by
        rcases mul_eq_zero.mp hx with h6 | h6
        · exfalso
          have h3 : (3 : FieldP) = 0 := by
            have h23 : (2 : FieldP) * 3 = 0 := by linear_combination h6
            exact (mul_eq_zero.mp h23).resolve_left two_ne_zero_fieldP
          exact three_not_square ⟨0, by rw [h3, mul_zero]⟩
        · exact h6
      have hx6 : 8 * y ^ 4 = 0 := by linear_combination hpoly + (36 * y ^ 2 - 27 * x ^ 3) * hx3
      have h8 : (2 : FieldP) ^ 3 * y ^ 4 = 0 := by linear_combination hx6
      rcases mul_eq_zero.mp h8 with h8 | h8
      · exact two_ne_zero_fieldP (pow_eq_zero_iff (by norm_num) |>.mp h8)
      · exact hy (pow_eq_zero_iff (by norm_num) |>.mp h8)
    · apply three_not_square
      refine ⟨(8 * y ^ 2 - 18 * x ^ 3) / (6 * x ^ 3), ?_⟩
      rw [div_mul_div_comm, ← pow_two, ← pow_two, hsq, mul_div_assoc, div_self (pow_ne_zero 2 hx), mul_one]

/-- Doubling an element that is not of order 2 never reaches the identity (R118). -/
theorem double_ne_zero {b : FieldP} {A : (curve b).Point} (h : A + A ≠ 0) (j : Nat) : 2 ^ j • A ≠ 0 := by
  induction j with
  | zero =>
    rw [pow_zero, one_smul]
    rintro rfl
    exact h (add_zero _)
  | succ j ih =>
    cases j with
    | zero =>
      rw [pow_one, two_smul]
      exact h
    | succ j =>
      intro h4
      apply ih
      rw [pow_succ', mul_smul, two_smul] at h4 ⊢
      rw [pow_succ', mul_smul, two_smul] at h4
      exact no_order_four _ h4

/-- Double-and-add on engine-written operands (R113). -/
theorem ecmulLoop_canonical {b : FieldP} (k n : Nat) : ∀ (i : Nat) (A T : (curve b).Point),
    ecmulLoop k n i (canonical A) (canonical T) = canonical (A + (k / 2 ^ i % 2 ^ n) • T) := by
  induction n with
  | zero =>
    intro i A T
    rw [ecmulLoop, pow_zero, Nat.mod_one, zero_nsmul, add_zero]
  | succ n ih =>
    intro i A T
    rw [ecmulLoop, ecadd_canonical, ecadd_canonical, bits_from, ← two_nsmul]
    split
    · rw [ih, add_smul, one_smul, mul_comm, mul_smul, add_assoc]
    · rw [ih, zero_add, mul_comm, mul_smul]

/-- Double-and-add once the accumulator holds the operand itself, verbatim (R115, R118). -/
theorem ecmulLoop_verbatim {b : FieldP} {P : Point} {A : (curve b).Point} (hP : P.inf = false)
    (hA : Denotes P A) (k n : Nat) : ∀ (i : Nat), (∀ j, 2 ^ j • (2 ^ i • A) ≠ 0) →
    ecmulLoop k n i P (canonical (2 ^ i • A)) =
      if k / 2 ^ i % 2 ^ n = 0 then P else canonical (A + (k / 2 ^ i % 2 ^ n) • (2 ^ i • A)) := by
  induction n with
  | zero =>
    intro i _
    rw [ecmulLoop, if_pos (by rw [pow_zero, Nat.mod_one])]
  | succ n ih =>
    intro i hne
    have hT : (canonical (2 ^ i • A)).inf = false := by
      have h0 := hne 0
      rw [pow_zero, one_smul] at h0
      revert h0
      cases 2 ^ i • A with
      | zero => exact fun h0 => absurd rfl h0
      | some x y h => exact fun _ => rfl
    have hdbl : 2 ^ i • A + 2 ^ i • A = 2 ^ (i + 1) • A := by rw [← two_nsmul, pow_succ', mul_smul]
    rw [ecmulLoop, ecadd_canonical, ecadd_of_affine hP hT hA (denotes_canonical _), hdbl, bits_from]
    split
    · rw [if_neg (by omega), ecmulLoop_canonical, add_smul, one_smul, mul_comm, mul_smul, two_nsmul, hdbl, add_assoc]
    · rw [ih (i + 1) (fun j => by
        have := hne (j + 1)
        rwa [pow_succ, mul_smul, two_nsmul, hdbl] at this), zero_add]
      by_cases hz : k / 2 ^ (i + 1) % 2 ^ n = 0
      · rw [if_pos hz, if_pos (by omega)]
      · rw [if_neg hz, if_neg (by omega), mul_comm, mul_smul, two_nsmul, hdbl]

/-- The ladder on engine-written operands, with its invariant `R1 = R0 + P` (R116). -/
theorem ladderLoop_canonical {b : FieldP} (k n : Nat) : ∀ (A D : (curve b).Point),
    ladderLoop k n (canonical A) (canonical (A + D)) = canonical (2 ^ n • A + (k % 2 ^ n) • D) := by
  induction n with
  | zero =>
    intro A D
    rw [ladderLoop, pow_zero, Nat.mod_one, zero_nsmul, add_zero, one_smul]
  | succ n ih =>
    intro A D
    rw [ladderLoop, bits_below]
    simp only [ecadd_canonical]
    split
    · rw [show A + D + (A + D) = A + (A + D) + D by abel, ih, add_smul, nsmul_add, nsmul_add, pow_succ, mul_smul,
        two_nsmul, nsmul_add]
      congr 1
      abel
    · rw [show A + (A + D) = A + A + D by abel, ih, zero_add, pow_succ, mul_smul, two_nsmul]

/-- The ladder one pass after its first set bit: `R0` is the operand, verbatim (R118). -/
theorem ladderLoop_verbatim {b : FieldP} {P : Point} {A : (curve b).Point} (hP : P.inf = false)
    (hA : Denotes P A) (h2 : A + A ≠ 0) (k n : Nat) : ladderLoop k n P (canonical (A + A)) =
      if n = 0 then P else canonical (2 ^ n • A + (k % 2 ^ n) • A) := by
  cases n with
  | zero => rfl
  | succ n =>
    have hT : (canonical (A + A)).inf = false := by
      revert h2
      cases A + A with
      | zero => exact fun h0 => absurd rfl h0
      | some x y h => exact fun _ => rfl
    rw [ladderLoop, if_neg (Nat.succ_ne_zero n), bits_below]
    simp only [ecadd_canonical, ecadd_of_affine hP hT hA (denotes_canonical _), ecadd_of_affine hP hP hA hA]
    split
    · rw [show A + A + (A + A) = A + (A + A) + A by abel, ladderLoop_canonical, add_smul, nsmul_add, nsmul_add,
        pow_succ, mul_smul, two_nsmul, nsmul_add]
      congr 1
      abel
    · rw [show A + (A + A) = A + A + A by abel, ladderLoop_canonical, zero_add, pow_succ, mul_smul, two_nsmul]

/-- The ladder from the start, on an affine operand whose double is not the identity (R116). -/
theorem ladderLoop_start {b : FieldP} {P : Point} {A : (curve b).Point} (hP : P.inf = false)
    (hA : Denotes P A) (h2 : A + A ≠ 0) (k n : Nat) : ladderLoop k n identityPoint P =
      if k % 2 ^ n = 0 then identityPoint else if k % 2 ^ n = 1 then P else canonical ((k % 2 ^ n) • A) := by
  induction n with
  | zero => rw [ladderLoop, pow_zero, Nat.mod_one, if_pos rfl]
  | succ n ih =>
    have hlt : k % 2 ^ n < 2 ^ n := Nat.mod_lt _ (by positivity)
    rw [ladderLoop, bits_below]
    simp only [ecadd_identity_left hP, ecadd_identities]
    split
    · rw [ecadd_of_affine hP hP hA hA, ladderLoop_verbatim hP hA h2]
      have hpos := Nat.two_pow_pos n
      cases n with
      | zero => simp [Nat.mod_one]
      | succ n =>
        have : 2 ≤ 2 ^ (n + 1) := by
          rw [pow_succ]
          have := Nat.one_le_two_pow (n := n)
          omega
        rw [if_neg (Nat.succ_ne_zero n), if_neg (by omega), if_neg (by omega), add_smul]
    · rw [ih, zero_add]

/-! ### The ladder and double-and-add agree -/

/-- Double-and-add on an affine operand whose double is not the identity (R113). -/
theorem ecmul_affine {b : FieldP} {P : Point} {A : (curve b).Point} (hP : P.inf = false)
    (hA : Denotes P A) (h2 : A + A ≠ 0) {k : Nat} (hk : k < 2 ^ 256) : ecmul k P =
      if k = 0 then identityPoint else if k = 1 then P else canonical (k • A) := by
  have hne : ∀ i j, 2 ^ j • (2 ^ i • A) ≠ 0 := fun i j => by
    rw [← mul_smul, ← pow_add]
    exact double_ne_zero h2 (j + i)
  have hbits := bits_from k 0 255
  rw [pow_zero, Nat.div_one, Nat.mod_eq_of_lt hk, Nat.zero_add] at hbits
  have h1 : A + A = 2 ^ 1 • A := by rw [pow_one, two_nsmul]
  unfold ecmul
  rw [ecOperand_affine hP, ecmulLoop, ecadd_identity_left hP, ecadd_of_affine hP hP hA hA, h1, zero_add]
  split at hbits
  · rename_i hbit
    rw [if_pos hbit, ecmulLoop_verbatim hP hA k 255 1 (hne 1)]
    generalize k / 2 ^ 1 % 2 ^ 255 = q at hbits
    by_cases hz : q = 0
    · rw [if_pos hz, if_neg (by omega), if_pos (by omega)]
    · rw [if_neg hz, if_neg (by omega), if_neg (by omega), hbits, add_smul, one_smul, mul_comm, mul_smul, pow_one]
  · rename_i hbit
    have := ecmulLoop_canonical k 255 1 0 (2 ^ 1 • A)
    rw [zero_add] at this
    rw [if_neg hbit]
    refine this.trans ?_
    generalize k / 2 ^ 1 % 2 ^ 255 = q at hbits
    by_cases hz : k = 0
    · rw [if_pos hz, show q = 0 by omega, zero_nsmul]
      rfl
    · rw [if_neg hz, if_neg (by omega), hbits, zero_add, mul_comm, mul_smul, pow_one]

/-- The ladder on an affine operand whose double is not the identity (R116). -/
theorem ladder_affine {b : FieldP} {P : Point} {A : (curve b).Point} (hP : P.inf = false)
    (hA : Denotes P A) (h2 : A + A ≠ 0) {k : Nat} (hk : k < 2 ^ 256) : ladder k P =
      if k = 0 then identityPoint else if k = 1 then P else canonical (k • A) := by
  unfold ladder
  rw [ecOperand_affine hP, ladderLoop_start hP hA h2, Nat.mod_eq_of_lt hk]

/-- An affine operand with `Y ≡ 0` is its own negative (R110). -/
theorem ecadd_self_of_zero {P : Point} (hP : P.inf = false) (hy : (P.y.toNat : FieldP) = 0) :
    ecadd P P = identityPoint := by
  rw [ecadd_affine hP hP rfl rfl rfl rfl, if_pos ⟨rfl, by rw [hy, neg_zero]⟩]

/-- On an affine operand of order 2 both multiplications look at the parity of the scalar alone (R115, R118). -/
theorem mul_of_zero {P : Point} (hP : P.inf = false) (hy : (P.y.toNat : FieldP) = 0) {k : Nat}
    (hk : k < 2 ^ 256) :
    ecmul k P = (if k % 2 = 0 then identityPoint else P) ∧ ladder k P = if k % 2 = 0 then identityPoint else P := by
  have h2 := ecadd_self_of_zero hP hy
  refine ⟨?_, ?_⟩
  · unfold ecmul
    rw [ecOperand_affine hP, ecmulLoop, h2, ecadd_identity_left hP, Nat.testBit_zero]
    rcases Nat.mod_two_eq_zero_or_one k with h | h
    · simp only [h]
      exact ecmulLoop_identity k 255 ecadd_identities 1
    · simp only [h, decide_true, if_true]
      exact ecmulLoop_identity k 255 (ecadd_identity_right hP) 1
  · unfold ladder
    rw [ecOperand_affine hP, (ladderLoop_of_zero k 256 hP h2).1, Nat.mod_eq_of_lt hk]

theorem add_self_ne_zero {b : FieldP} {P : Point} {A : (curve b).Point} (hP : P.inf = false) (hA : Denotes P A)
    (hy : (P.y.toNat : FieldP) ≠ 0) : A + A ≠ 0 := by
  cases A with
  | zero =>
    have : P.inf = true := hA
    simp [hP] at this
  | some x y h =>
    intro h0
    have hneg := eq_neg_of_add_eq_zero_left h0
    rw [WeierstrassCurve.Affine.Point.neg_some, WeierstrassCurve.Affine.Point.some.injEq, curve_negY] at hneg
    have h3 : (2 : FieldP) * y = 0 := by linear_combination hneg.2
    rcases mul_eq_zero.mp h3 with h3 | h3
    · exact two_ne_zero_fieldP h3
    · exact hy (hA.2.2.trans h3)

/-- The scalar 0 gives the identity (R115). -/
theorem mul_scalar_zero (P : Point) : ecmul 0 P = identityPoint ∧ ladder 0 P = identityPoint := by
  cases hP : P.inf with
  | true => exact mul_of_identity hP 0
  | false =>
    by_cases hy : (P.y.toNat : FieldP) = 0
    · have h := mul_of_zero hP hy (k := 0) (Nat.two_pow_pos 256)
      rwa [if_pos (Nat.zero_mod 2)] at h
    · obtain ⟨b, A, hA⟩ := exists_denotes hP hy
      have h2 := add_self_ne_zero hP hA hy
      have h := ecmul_affine hP hA h2 (Nat.two_pow_pos 256)
      have h' := ladder_affine hP hA h2 (Nat.two_pow_pos 256)
      rw [if_pos rfl] at h h'
      exact ⟨h, h'⟩

/-- The scalar 1 copies an affine operand verbatim (R115). -/
theorem mul_scalar_one {P : Point} (hP : P.inf = false) : ecmul 1 P = P ∧ ladder 1 P = P := by
  have h1 : 1 < 2 ^ 256 := Nat.one_lt_two_pow (by decide)
  by_cases hy : (P.y.toNat : FieldP) = 0
  · have h := mul_of_zero hP hy h1
    rwa [if_neg (by decide)] at h
  · obtain ⟨b, A, hA⟩ := exists_denotes hP hy
    have h2 := add_self_ne_zero hP hA hy
    have h := ecmul_affine hP hA h2 h1
    have h' := ladder_affine hP hA h2 h1
    rw [if_neg one_ne_zero, if_pos rfl] at h h'
    exact ⟨h, h'⟩

/-! ### The curve itself -/

/-- Over the integers modulo `p` the curve equation is the one of the field (R9). -/
theorem equation_iff_mod {x y : Nat} : (y : FieldP) ^ 2 = (x : FieldP) ^ 3 + 7 ↔
    y ^ 2 % fieldP = (x ^ 3 + 7) % fieldP := by
  rw [← ZMod.natCast_eq_natCast_iff']
  push_cast
  rfl

/-- `−7` is no cube modulo `p`, so no point of the curve has `Y = 0` (R115, R123). -/
theorem neg_seven_not_cube (x : FieldP) : x ^ 3 + 7 ≠ 0 := by
  intro h
  have h3 : x ^ 3 = -7 := by linear_combination h
  have hx : x ≠ 0 := by
    rintro rfl
    have h7 : ((7 : Nat) : FieldP) = 0 := by
      push_cast
      linear_combination h
    rw [ZMod.natCast_eq_zero_iff] at h7
    revert h7
    decide
  have hf := ZMod.pow_card_sub_one_eq_one hx
  rw [show fieldP - 1 = 3 * ((fieldP - 1) / 3) by decide +kernel, pow_mul, h3] at hf
  have hn : (((fieldP - 7) ^ ((fieldP - 1) / 3) % fieldP : Nat) : FieldP) = ((1 : Nat) : FieldP) := by
    rw [ZMod.natCast_mod, Nat.cast_pow, Nat.cast_sub (by decide), ZMod.natCast_self, zero_sub, Nat.cast_one]
    exact_mod_cast hf
  rw [← powMod_eq, ZMod.natCast_eq_natCast_iff'] at hn
  revert hn
  decide +kernel

theorem curve_nonsingular {x y : FieldP} (h : y ^ 2 = x ^ 3 + 7) : (curve 7).Nonsingular x y := by
  rw [WeierstrassCurve.Affine.nonsingular_iff]
  refine ⟨?_, .inr ?_⟩
  · rw [WeierstrassCurve.Affine.equation_iff]
    simpa [curve] using h
  · simp only [curve, zero_mul, sub_zero]
    intro h2
    have h3 : (2 : FieldP) * y = 0 := by linear_combination h2
    rcases mul_eq_zero.mp h3 with h3 | h3
    · exact two_ne_zero_fieldP h3
    · rw [h3, zero_pow (by decide)] at h
      exact neg_seven_not_cube x h.symm

/-- The curve's points with reduced coordinates are the group elements in the engine's form (R111). -/
theorem onCurve_iff {P : Point} : OnCurve P ↔ ∃ A : (curve 7).Point, P = canonical A := by
  constructor
  · rintro (rfl | ⟨hi, hx, hy, he⟩)
    · exact ⟨.zero, rfl⟩
    · refine ⟨.some (P.x.toNat : FieldP) (P.y.toNat : FieldP) (curve_nonsingular (equation_iff_mod.mpr he)), ?_⟩
      obtain ⟨x, y, i⟩ := P
      simp only at hi hx hy ⊢
      simp only [canonical, pointOf, hi, ZMod.val_natCast, Nat.mod_eq_of_lt hx,
        Nat.mod_eq_of_lt hy, BitVec.ofNat_toNat, BitVec.setWidth_eq]
  · rintro ⟨A, rfl⟩
    cases A with
    | zero => exact .inl rfl
    | some x y h =>
      refine .inr ⟨rfl, ?_, ?_, ?_⟩
      · show (BitVec.ofNat 256 x.val).toNat < fieldP
        rw [val_toNat]
        exact ZMod.val_lt x
      · show (BitVec.ofNat 256 y.val).toNat < fieldP
        rw [val_toNat]
        exact ZMod.val_lt y
      · have he := (WeierstrassCurve.Affine.equation_iff ..).mp h.1
        rw [← equation_iff_mod]
        show ((pointOf x y).y.toNat : FieldP) ^ 2 = ((pointOf x y).x.toNat : FieldP) ^ 3 + 7
        rw [pointOf_x, pointOf_y]
        simpa [curve] using he

theorem ecOperand_canonical {b : FieldP} (A : (curve b).Point) : ecOperand (canonical A) = canonical A := by
  cases A <;> rfl

/-- Double-and-add on an operand in the engine's form (R113). -/
theorem ecmul_canonical {b : FieldP} (A : (curve b).Point) {k : Nat} (hk : k < 2 ^ 256) :
    ecmul k (canonical A) = canonical (k • A) := by
  unfold ecmul
  rw [ecOperand_canonical]
  have := ecmulLoop_canonical k 256 0 0 A
  rw [pow_zero, Nat.div_one, Nat.mod_eq_of_lt hk, zero_add] at this
  exact this

/-- The ladder on an operand in the engine's form (R116). -/
theorem ladder_canonical {b : FieldP} (A : (curve b).Point) {k : Nat} (hk : k < 2 ^ 256) :
    ladder k (canonical A) = canonical (k • A) := by
  unfold ladder
  rw [ecOperand_canonical]
  have := ladderLoop_canonical k 256 0 A
  rw [Nat.mod_eq_of_lt hk, zero_add, nsmul_zero, zero_add] at this
  exact this

theorem canonical_injective {b : FieldP} {A B : (curve b).Point} (h : canonical A = canonical B) : A = B := by
  have hv : ∀ {x y : FieldP}, BitVec.ofNat 256 x.val = BitVec.ofNat 256 y.val → x = y := fun {x y} hb => by
    have := congrArg BitVec.toNat hb
    rw [val_toNat, val_toNat] at this
    exact ZMod.val_injective fieldP this
  cases A <;> cases B
  · rfl
  · simp [canonical, identityPoint, pointOf] at h
  · simp [canonical, identityPoint, pointOf] at h
  · simp only [canonical, pointOf, Point.mk.injEq, and_true] at h
    obtain ⟨hx, hy⟩ := h
    obtain rfl := hv hx
    obtain rfl := hv hy
    rfl

/-- G generates a group of the prime order `n` (R4, R9). -/
theorem exists_base : ∃ A : (curve 7).Point, baseG = canonical A ∧ A ≠ 0 ∧ addOrderOf A = orderN := by
  obtain ⟨A, hA⟩ := onCurve_iff.mp onCurve_baseG
  have hA0 : A ≠ 0 := by
    rintro rfl
    have h0 : baseG = identityPoint := hA
    exact absurd h0 (by decide +kernel)
  refine ⟨A, hA, hA0, ?_⟩
  have : Fact (Nat.Prime orderN) := ⟨orderN_prime⟩
  refine addOrderOf_eq_prime ?_ hA0
  apply canonical_injective
  rw [← ecmul_canonical A (by decide +kernel : orderN < 2 ^ 256), ← hA, ecmul_orderN]
  rfl

end field

end Sys2Proof.Machine
end

