-- ==== Sys2Proof/Laws/PerInstr.lean ====
section
/-! SUPPORT. Statements made per command: the latch decodes back to the command it was encoded from. -/

namespace Sys2Proof.Laws.LatchDecode

/-- A command's OPC and MODSEL fields, latched, decode to that command (R70, R71, R74). -/
def Statement (i : Instr) : Prop := decodeCommand i.opc i.modselField = .ok i

theorem nop : Statement .nop := rfl
theorem setmod : Statement .setmod := rfl
theorem montmul (ms : ModSel) : Statement (.montmul ms) := by cases ms <;> rfl
theorem tomont (ms : ModSel) : Statement (.tomont ms) := by cases ms <;> rfl
theorem frommont (ms : ModSel) : Statement (.frommont ms) := by cases ms <;> rfl
theorem modmul (ms : ModSel) : Statement (.modmul ms) := by cases ms <;> rfl
theorem modadd (ms : ModSel) : Statement (.modadd ms) := by cases ms <;> rfl
theorem modsub (ms : ModSel) : Statement (.modsub ms) := by cases ms <;> rfl
theorem modred (ms : ModSel) : Statement (.modred ms) := by cases ms <;> rfl
theorem modexp (ms : ModSel) : Statement (.modexp ms) := by cases ms <;> rfl
theorem modinv (ms : ModSel) : Statement (.modinv ms) := by cases ms <;> rfl
theorem ecadd : Statement .ecadd := rfl
theorem ecmul : Statement .ecmul := rfl
theorem ecmulLadder : Statement .ecmulLadder := rfl
theorem compress : Statement .compress := rfl
theorem decompress : Statement .decompress := rfl

end Sys2Proof.Laws.LatchDecode
end

