-- ==== Sys2Proof/Laws/Step.lean ====
section
/-! SUPPORT. What one step can do, said once, and the invariant through each kind of step. -/

namespace Sys2Proof.Machine

/-- The state an event is taken from: the schedule without its first event. -/
def popped (s : State) : State := { s with schedule := s.schedule.tail }

/-- Everything a step can do (R63, R73). -/
inductive StepCase (s : State) : State → Prop where
  /-- The engine's turn with no command in flight: nothing happens. -/
  | idle (h : engineTurn s) (hb : s.busy = false) : StepCase s (popped s)
  /-- The command in flight completes. -/
  | completes (i : Instr) (h : engineTurn s) (hb : s.busy = true)
      (hd : decodeCommand s.latchOpc s.latchModsel = .ok i) :
      StepCase s (complete (outcome i (popped s)) (popped s))
  /-- An illegal opcode completes with its error. -/
  | illegal (r : DecodeReject) (h : engineTurn s) (hb : s.busy = true)
      (hd : decodeCommand s.latchOpc s.latchModsel = .error r) :
      StepCase s (finish true .illegalOpcode (popped s))
  /-- A bus read. -/
  | read (off : Nat) (rest : List Event) (h : hostReads s off rest) (ho : off < 0x1000) (h4 : off % 4 = 0) :
      StepCase s { popped s with reply := some (readWindow off (popped s)) }
  /-- A bus write. -/
  | write (off : Nat) (v : Word) (rest : List Event) (t : State) (h : hostWrites s off v rest)
      (ho : off < 0x1000) (h4 : off % 4 = 0) (hw : writeWindow off v (popped s) = t) : StepCase s t
  /-- The reset input. -/
  | hardReset (rest : List Event) (h : s.schedule = .hardReset :: rest) : StepCase s (resetBlock (popped s))

theorem served_offset {c : Config} {size addr : Nat} (h : served c size addr) :
    size = 32 ∧ addr = c.mmBase + (addr - c.mmBase) ∧ addr - c.mmBase < 0x1000 ∧ (addr - c.mmBase) % 4 = 0 := by
  unfold served at h
  omega

theorem engineStep_cases {s t : State} (h : engineStep s = .next t) :
    (s.busy = false ∧ t = s) ∨
      (s.busy = true ∧ ((∃ i, decodeCommand s.latchOpc s.latchModsel = .ok i ∧ t = complete (outcome i s) s) ∨
        (∃ r, decodeCommand s.latchOpc s.latchModsel = .error r ∧ t = finish true .illegalOpcode s))) := by
  unfold engineStep at h
  split at h
  · rename_i hb
    refine .inr ⟨hb, ?_⟩
    unfold completeStep at h
    split at h
    · rename_i i hd
      rw [exec_eq] at h
      exact .inl ⟨i, hd, by simpa using h.symm⟩
    · rename_i r hd
      exact .inr ⟨r, hd, by simpa using h.symm⟩
  · rename_i hb
    exact .inl ⟨by simpa using hb, by simpa using h.symm⟩

/-- The one inversion lemma of `step`. -/
theorem step_cases {s t : State} (h : step s = .next t) : StepCase s t := by
  unfold step at h
  split at h
  · rename_i hs
    have hp : popped s = s := by
      unfold popped
      rw [hs, List.tail_nil, ← hs]
    have ht : engineTurn s := .inl hs
    rcases engineStep_cases h with ⟨hb, rfl⟩ | ⟨hb, ⟨i, hd, rfl⟩ | ⟨r, hd, rfl⟩⟩
    · rw [← hp]
      exact hp.symm ▸ .idle ht hb
    · have := StepCase.completes i ht hb hd
      rwa [hp] at this
    · have := StepCase.illegal r ht hb hd
      rwa [hp] at this
  · rename_i ev rest hs
    have hp : { s with schedule := rest } = popped s := by
      unfold popped
      rw [hs, List.tail_cons]
    rw [hp] at h
    cases ev with
    | engine =>
      have ht : engineTurn s := .inr ⟨rest, hs⟩
      rcases engineStep_cases h with ⟨hb, rfl⟩ | ⟨hb, ⟨i, hd, rfl⟩ | ⟨r, hd, rfl⟩⟩
      · exact .idle ht hb
      · exact .completes i ht hb hd
      · exact .illegal r ht hb hd
    | read size addr =>
      obtain ⟨hsv, rfl⟩ := busRead_next h
      obtain ⟨rfl, ha, ho, h4⟩ := served_offset hsv
      refine .read (addr - (popped s).cfg.mmBase) rest ?_ ho h4
      unfold hostReads
      rw [hs, show s.cfg = (popped s).cfg from rfl, ← ha]
    | write size addr v =>
      obtain ⟨hsv, rfl⟩ := busWrite_next h
      obtain ⟨rfl, ha, ho, h4⟩ := served_offset hsv
      refine .write (addr - (popped s).cfg.mmBase) v rest _ ?_ ho h4 rfl
      unfold hostWrites
      rw [hs, show s.cfg = (popped s).cfg from rfl, ← ha]
    | hardReset =>
      have : t = resetBlock (popped s) := by simpa [eventStep] using h.symm
      exact this ▸ .hardReset rest hs

/-! ### Steps forward -/

theorem step_engineTurn {s : State} (h : engineTurn s) : step s = engineStep (popped s) := by
  rcases h with hs | ⟨rest, hs⟩ <;> unfold step popped <;> rw [hs]
  · simp only [List.tail_nil]
    rw [← hs]
  · simp only [List.tail_cons, eventStep]

/-- At the engine's turn a command in flight completes with its outcome (R73). -/
theorem step_completes {s : State} {i : Instr} (h : engineTurn s) (hb : s.busy = true)
    (hd : decodeCommand s.latchOpc s.latchModsel = .ok i) : step s = exec i (popped s) := by
  rw [step_engineTurn h]
  simp [engineStep, completeStep, popped, hb, hd]

theorem step_write {s : State} {off : Nat} {v : Word} {rest : List Event} (h : hostWrites s off v rest)
    (ho : off < 0x1000) (h4 : off % 4 = 0) : step s = .next (writeWindow off v (popped s)) := by
  unfold hostWrites at h
  unfold step
  rw [h]
  simp only [eventStep]
  rw [show { s with schedule := rest } = popped s by unfold popped; rw [h, List.tail_cons]]
  exact busWrite_at v ho h4

/-- The step of a bus write, with the schedule after it written out. -/
theorem step_hostWrites {s : State} {off : Nat} {v : Word} {rest : List Event} (h : hostWrites s off v rest)
    (ho : off < 0x1000) (h4 : off % 4 = 0) :
    step s = .next (writeWindow off v { s with schedule := rest }) := by
  rw [step_write h ho h4]
  unfold popped
  rw [h, List.tail_cons]

/-- An event's offset, value and rest are determined by the schedule. -/
theorem hostWrites_inj {s : State} {off off' : Nat} {v v' : Word} {rest rest' : List Event}
    (h : hostWrites s off v rest) (h' : hostWrites s off' v' rest') : off = off' ∧ v = v' ∧ rest = rest' := by
  unfold hostWrites at h h'
  rw [h] at h'
  simp only [List.cons.injEq, Event.write.injEq, true_and] at h'
  exact ⟨by omega, h'.1.2, h'.2⟩

/-- At the engine's turn the host does not write. -/
theorem not_hostWrites_of_engineTurn {s : State} (h : engineTurn s) (off : Nat) (v : Word) (rest : List Event) :
    ¬ hostWrites s off v rest := by
  unfold hostWrites
  rcases h with h | ⟨rest', h⟩ <;> rw [h] <;> simp

/-! ### Which event is next -/

/-- At the engine's turn nothing the host does comes next. -/
theorem next_of_engineTurn {s : State} (h : engineTurn s) : ¬ acceptsStart s ∧ ¬ resetsNext s ∧
    ¬ writesModulusNext s ∧ ¬ acknowledgesNext s ∧ ¬ clearsWerrNext s ∧ ¬ dropsWriteNext s := by
  have hw := not_hostWrites_of_engineTurn h
  refine ⟨?_, ?_, ?_, ?_, ?_, ?_⟩
  · rintro ⟨-, v, rest, -, -, h⟩
    exact hw _ _ _ h
  · rintro ⟨rest, h' | ⟨v, -, h'⟩⟩
    · rcases h with h | ⟨_, h⟩ <;> rw [h] at h' <;> simp at h'
    · exact hw _ _ _ h'
  · rintro ⟨-, j, v, rest, -, -, h⟩
    exact hw _ _ _ h
  · rintro ⟨v, rest, -, h⟩
    exact hw _ _ _ h
  · rintro ⟨v, rest, -, h⟩
    exact hw _ _ _ h
  · rintro ⟨-, off, v, rest, -, -, -, h⟩
    exact hw _ _ _ h

/-- At a bus read nothing else comes next. -/
theorem next_of_hostReads {s : State} {off : Nat} {rest : List Event} (h : hostReads s off rest) :
    ¬ acceptsStart s ∧ ¬ resetsNext s ∧ ¬ writesModulusNext s ∧ ¬ acknowledgesNext s ∧ ¬ clearsWerrNext s ∧
      ¬ dropsWriteNext s ∧ ¬ completesNext s := by
  unfold hostReads at h
  have hw : ∀ off v rest, ¬ hostWrites s off v rest := fun off v rest => by
    unfold hostWrites
    rw [h]
    simp
  refine ⟨?_, ?_, ?_, ?_, ?_, ?_, ?_⟩
  · rintro ⟨-, v, rest, -, -, h⟩
    exact hw _ _ _ h
  · rintro ⟨rest, h' | ⟨v, -, h'⟩⟩
    · rw [h] at h'
      simp at h'
    · exact hw _ _ _ h'
  · rintro ⟨-, j, v, rest, -, -, h⟩
    exact hw _ _ _ h
  · rintro ⟨v, rest, -, h⟩
    exact hw _ _ _ h
  · rintro ⟨v, rest, -, h⟩
    exact hw _ _ _ h
  · rintro ⟨-, off, v, rest, -, -, -, h⟩
    exact hw _ _ _ h
  · rintro ⟨-, h' | ⟨_, h'⟩⟩ <;> rw [h] at h' <;> simp at h'

/-- At the reset input only a reset comes next. -/
theorem next_of_hardReset {s : State} {rest : List Event} (h : s.schedule = .hardReset :: rest) :
    ¬ acceptsStart s ∧ resetsNext s ∧ ¬ dropsWriteNext s ∧ ¬ completesNext s := by
  have hw : ∀ off v rest, ¬ hostWrites s off v rest := fun off v rest => by
    unfold hostWrites
    rw [h]
    simp
  refine ⟨?_, ⟨rest, .inl h⟩, ?_, ?_⟩
  · rintro ⟨-, v, rest, -, -, h⟩
    exact hw _ _ _ h
  · rintro ⟨-, off, v, rest, -, -, -, h⟩
    exact hw _ _ _ h
  · rintro ⟨-, h' | ⟨_, h'⟩⟩ <;> rw [h] at h' <;> simp at h'

/-- At a bus write the events to come are read off its offset and value. -/
theorem next_of_hostWrites {s : State} {off : Nat} {v : Word} {rest : List Event} (h : hostWrites s off v rest) :
    (acceptsStart s ↔ s.busy = false ∧ off = 0x008 ∧ v.getLsbD 31 = false ∧ v.getLsbD 0 = true) ∧
    (resetsNext s ↔ off = 0x008 ∧ v.getLsbD 31 = true) ∧
    (writesModulusNext s ↔ s.busy = false ∧ ∃ j, j < 128 ∧ j < s.cfg.maxWords ∧ off = 0x800 + 4 * j) ∧
    (acknowledgesNext s ↔ off = 0x014 ∧ v.getLsbD 0 = true) ∧
    (clearsWerrNext s ↔ off = 0x00C ∧ v.getLsbD 3 = true) ∧
    (dropsWriteNext s ↔ s.busy = true ∧ off % 4 = 0 ∧ lockedOffset s.cfg off ∧
      ¬ (off = 0x008 ∧ v.getLsbD 31 = true)) ∧
    ¬ completesNext s := by
  refine ⟨⟨?_, ?_⟩, ⟨?_, ?_⟩, ⟨?_, ?_⟩, ⟨?_, ?_⟩, ⟨?_, ?_⟩, ⟨?_, ?_⟩, ?_⟩
  · rintro ⟨hb, v', rest', h1, h2, h3⟩
    obtain ⟨rfl, rfl, rfl⟩ := hostWrites_inj h h3
    exact ⟨hb, rfl, h1, h2⟩
  · rintro ⟨hb, rfl, h1, h2⟩
    exact ⟨hb, v, rest, h1, h2, h⟩
  · rintro ⟨rest', h' | ⟨v', h1, h3⟩⟩
    · unfold hostWrites at h
      rw [h] at h'
      simp at h'
    · obtain ⟨rfl, rfl, rfl⟩ := hostWrites_inj h h3
      exact ⟨rfl, h1⟩
  · rintro ⟨rfl, h1⟩
    exact ⟨rest, .inr ⟨v, h1, h⟩⟩
  · rintro ⟨hb, j, v', rest', h0, h1, h3⟩
    obtain ⟨rfl, rfl, rfl⟩ := hostWrites_inj h h3
    exact ⟨hb, j, h0, h1, rfl⟩
  · rintro ⟨hb, j, h0, h1, rfl⟩
    exact ⟨hb, j, v, rest, h0, h1, h⟩
  · rintro ⟨v', rest', h1, h3⟩
    obtain ⟨rfl, rfl, rfl⟩ := hostWrites_inj h h3
    exact ⟨rfl, h1⟩
  · rintro ⟨rfl, h1⟩
    exact ⟨v, rest, h1, h⟩
  · rintro ⟨v', rest', h1, h3⟩
    obtain ⟨rfl, rfl, rfl⟩ := hostWrites_inj h h3
    exact ⟨rfl, h1⟩
  · rintro ⟨rfl, h1⟩
    exact ⟨v, rest, h1, h⟩
  · rintro ⟨hb, off', v', rest', h1, h2, h3, h4⟩
    obtain ⟨rfl, rfl, rfl⟩ := hostWrites_inj h h4
    exact ⟨hb, h1, h2, h3⟩
  · rintro ⟨hb, h1, h2, h3⟩
    exact ⟨hb, off, v, rest, h1, h2, h3, h⟩
  · rintro ⟨-, h'⟩
    exact not_hostWrites_of_engineTurn h' _ _ _ h

theorem step_read {s : State} {off : Nat} {rest : List Event} (h : hostReads s off rest)
    (ho : off < 0x1000) (h4 : off % 4 = 0) :
    step s = .next { popped s with reply := some (readWindow off (popped s)) } := by
  unfold hostReads at h
  unfold step
  rw [h]
  simp only [eventStep]
  rw [show { s with schedule := rest } = popped s by unfold popped; rw [h, List.tail_cons]]
  exact busRead_at ho h4

/-! ### The invariant through each operation -/

theorem inv_popped {s : State} (h : Inv s) : Inv (popped s) :=
  ⟨h.cfg, fun r => by cases r <;> first | exact h.wide .A | exact h.wide .B | exact h.wide .E | exact h.wide .M | exact h.wide .D,
    h.ready, h.unready, h.inFlight, h.errAgrees, h.errDone⟩

/-- The status fields of a completion agree with one another, whatever the command wrote. -/
theorem inv_finish {s : State} {err : Bool} {code : ErrCode} (h : Inv s) (hc : err = true ↔ code ≠ .none) :
    Inv (finish err code s) where
  cfg := h.cfg
  wide r := by
    have := h.wide r
    cases r <;> exact this
  ready := h.ready
  unready := h.unready
  inFlight := by simp
  errAgrees := hc
  errDone := by simp

theorem radixBits_small {s : State} (h : Inv s) : radixBits s.m ≤ 32 * s.cfg.maxWords :=
  radixBits_le (h.wide .M)

/-- The writes of a successful command keep the invariant (R82, R84). -/
theorem inv_outcome {i : Instr} {s t : State} (h : Inv s) (ho : outcome i s = .ok t) : Inv t := by
  have hc := outcome_cases i s
  rw [ho] at hc
  cases hc with
  | nothing => exact h
  | modular ms m l _ hs =>
    have hpos : 0 < m := by
      have := selects_odd h hs
      omega
    have hlt : modResult i s m l < 2 ^ s.cfg.maxBits := (modResult_lt i s l hpos).trans (selects_lt h hs)
    exact { h with
      wide := fun r => by
        have hw := h.wide r
        cases r
        case D => exact hlt
        all_goals exact hw }
  | modulus _ h0 h2 =>
    exact { h with
      wide := fun r => by
        have hw := h.wide r
        cases r <;> exact hw
      ready := fun _ => ⟨h2, rfl, rfl⟩
      unready := fun hf => by simp at hf }
  | point => exact { h with wide := fun r => by have hw := h.wide r; cases r <;> exact hw }
  | encoded b =>
    exact { h with wide := fun r => by have hw := h.wide r; cases r <;> exact hw }
  | decoded P => exact { h with wide := fun r => by have hw := h.wide r; cases r <;> exact hw }

theorem inv_complete {i : Instr} {s : State} (h : Inv s) : Inv (complete (outcome i s) s) := by
  cases ho : outcome i s with
  | ok t => exact inv_finish (inv_outcome h ho) (by simp)
  | error code =>
    have hc := outcome_cases i s
    rw [ho] at hc
    cases hc with
    | error _ hne => exact inv_finish h (by simpa using hne)

/-- Reset meets the invariant, whatever the parameters and the host side. -/
theorem inv_resetBlock {s : State} (h : s.cfg.wf = true) : Inv (resetBlock s) where
  cfg := h
  wide r := by cases r <;> exact Nat.two_pow_pos _
  ready := by simp
  unready := by simp
  inFlight := by simp
  errAgrees := by simp
  errDone := by simp

theorem inv_setWide {s : State} (r : WideReg) {x : Nat} (h : Inv s) (hr : r ≠ .M) (hx : x < 2 ^ s.cfg.maxBits) :
    Inv (setWide r x s) := by
  have hw : ∀ q, getWide q (setWide r x s) < 2 ^ s.cfg.maxBits := fun q => by
    by_cases hq : q = r
    · rw [hq, getWide_setWide]
      exact hx
    · rw [getWide_setWide_ne s x hq]
      exact h.wide q
  cases r
  case M => exact absurd rfl hr
  all_goals exact { h with wide := hw }

/-- A new value of M leaves the modulus unprepared (R34). -/
theorem inv_setModulus {s : State} {x : Nat} (h : Inv s) (hx : x < 2 ^ s.cfg.maxBits) :
    Inv (invalidateModulus (setWide .M x s)) where
  cfg := h.cfg
  wide q := by
    have hq := h.wide q
    cases q
    case M => exact hx
    all_goals exact hq
  ready := by simp
  unready := by simp
  inFlight := h.inFlight
  errAgrees := h.errAgrees
  errDone := h.errDone

theorem inv_setCoord {s : State} (r : CoordReg) (x : Coord) (h : Inv s) : Inv (setCoord r x s) := by
  cases r <;> exact { h with wide := fun q => by have hq := h.wide q; cases q <;> exact hq }

/-- A bus write keeps the invariant (R57). -/
theorem inv_writeWindow {s : State} {off : Nat} (v : Word) (h : Inv s) (ho : off < 0x1000) (h4 : off % 4 = 0) :
    Inv (writeWindow off v s) := by
  generalize hw : writeWindow off v s = t
  have hc := writeWindow_cases off v s ho h4
  rw [hw] at hc
  have hwide : ∀ {u : State}, u.a = s.a → u.b = s.b → u.e = s.e → u.m = s.m → u.d = s.d → u.cfg = s.cfg →
      ∀ r, getWide r u < 2 ^ u.cfg.maxBits := by
    intro u h1 h2 h3 h4 h5 h6 r
    have := h.wide r
    rw [h6]
    cases r <;> simp only [getWide] at this ⊢ <;> omega
  cases hc with
  | softReset => exact inv_resetBlock h.cfg
  | ctrl _ _ hb =>
    unfold writeCtrl
    split
    · exact { cfg := h.cfg, wide := hwide rfl rfl rfl rfl rfl rfl, ready := h.ready, unready := h.unready,
              inFlight := by simp, errAgrees := by simp, errDone := by simp }
    · exact { h with wide := hwide rfl rfl rfl rfl rfl rfl }
  | intEn => exact { h with wide := hwide rfl rfl rfl rfl rfl rfl }
  | ack => exact { h with wide := hwide rfl rfl rfl rfl rfl rfl }
  | clearWerr => exact { h with wide := hwide rfl rfl rfl rfl rfl rfl }
  | ignored => exact h
  | dropped => exact { h with wide := hwide rfl rfl rfl rfl rfl rfl }
  | wide r j _ _ hj hb =>
    have hx : setWord (getWide r s) j v < 2 ^ s.cfg.maxBits := setWord_lt v (h.wide r) hj
    unfold writeWide
    split
    · subst r
      exact inv_setModulus h hx
    · exact inv_setWide r h ‹_› hx
  | coord r =>
    exact inv_setCoord r _ h
  | pflags => exact { h with wide := hwide rfl rfl rfl rfl rfl rfl }
  | pblen => exact { h with wide := hwide rfl rfl rfl rfl rfl rfl }
  | pb => exact { h with wide := hwide rfl rfl rfl rfl rfl rfl }

end Sys2Proof.Machine
end

