-- ==== Sys2Proof/Tests/Slice0.lean ====
section
/-! SUPPORT. The tests of the model and the witnesses of its statements. Every expected result is taken from the
spec: an encoding rule, or a vector V<n> of 95_test_vectors.md. -/

namespace Sys2Proof.Tests

set_option Elab.async false

open Sys2Proof Sys2Proof.Machine

/-! ### Small states -/

/-- The reset state with events to come. -/
def idle (events : List Event) : State := { State.reset with schedule := events }

/-- The reset state with a command in flight. -/
def flight (opc : BitVec 8) (ms : BitVec 2) (events : List Event) : State :=
  { State.reset with latchOpc := opc, latchModsel := ms, busy := true, schedule := events }

/-- The reset state with `M = 225` prepared (V3). -/
def prepared : State :=
  { State.reset with m := 225, mrdy := true, mconst := some { muser := 225, luser := 32 }, mlen := 1 }

/-- The reset state with points P and Q. -/
def points (P Q : Point) : State :=
  { State.reset with px := P.x, py := P.y, pinf := P.inf, qx := Q.x, qy := Q.y, qinf := Q.inf }

/-- The smallest block, `MAXBITS = 256` (R8). -/
def small : Config := { maxWords := 8, mmBase := 0x40000000, mmIrq := 5 }

/-- The next state, if there is one. -/
def nextOf : Host.Outcome State Fault Refusal → Option State
  | .next t => some t
  | .fault _ => none
  | .refused _ => none

/-- What `f` reads after the command word `w` has run on `s`. -/
def after {α : Type} (f : State → α) (s : State) (w : Nat) : Option α := (nextOf (step (s.withFetchWord 32 w))).map f

/-- What `f` reads after the one event `ev` at `s`. -/
def afterEvent {α : Type} (f : State → α) (s : State) (ev : Event) : Option α :=
  (nextOf (step { s with schedule := [ev] })).map f

/-- STATUS as a number. -/
def status (s : State) : Nat := (readWindow 0x00C s).toNat

/-- A point buffer that begins with the given bytes. -/
def bufferOf (prefixByte : Byte) (x : Nat) : Vector Byte 65 :=
  Vector.ofFn fun i => if i.val = 0 then prefixByte else if i.val ≤ 32 then be32Byte x (i.val - 1) else 0

/-! ### Ill-formed terms that the checks refuse -/

theorem test_wf_reserved_modsel : Instr.wf (.modmul .reserved) = false := by decide

theorem test_wf_user_modsel : Instr.wf (.modmul .user) = true := by decide

theorem test_wf_maxbits_low : Config.wf { maxWords := 7, mmBase := 0, mmIrq := 0 } = false := by decide

theorem test_wf_maxbits_high : Config.wf { maxWords := 129, mmBase := 0, mmIrq := 0 } = false := by decide

theorem test_wf_base_unaligned : Config.wf { maxWords := 8, mmBase := 4, mmIrq := 0 } = false := by decide

/-! ### Command words, field by field: SRST, reserved, MODSEL, OPC, reserved, START (R68, R70, R71) -/

theorem test_decode_nop : decode 0b0_0000000000000_00_00000000_0000000_1 = .ok .nop := by decide

theorem test_decode_setmod : decode 0b0_0000000000000_00_00000001_0000000_1 = .ok .setmod := by decide

theorem test_decode_montmul : decode 0b0_0000000000000_00_00000010_0000000_1 = .ok (.montmul .p) ∧
    decode 0b0_0000000000000_01_00000010_0000000_1 = .ok (.montmul .n) ∧
    decode 0b0_0000000000000_10_00000010_0000000_1 = .ok (.montmul .user) ∧
    decode 0b0_0000000000000_11_00000010_0000000_1 = .ok (.montmul .reserved) := by decide

theorem test_decode_tomont : decode 0b0_0000000000000_10_00000011_0000000_1 = .ok (.tomont .user) := by decide

theorem test_decode_frommont : decode 0b0_0000000000000_01_00000100_0000000_1 = .ok (.frommont .n) := by decide

theorem test_decode_modmul : decode 0b0_0000000000000_01_00000101_0000000_1 = .ok (.modmul .n) := by decide

theorem test_decode_modadd : decode 0b0_0000000000000_00_00000110_0000000_1 = .ok (.modadd .p) := by decide

theorem test_decode_modsub : decode 0b0_0000000000000_10_00000111_0000000_1 = .ok (.modsub .user) := by decide

theorem test_decode_modred : decode 0b0_0000000000000_01_00001000_0000000_1 = .ok (.modred .n) := by decide

theorem test_decode_modexp : decode 0b0_0000000000000_10_00001001_0000000_1 = .ok (.modexp .user) := by decide

theorem test_decode_modinv : decode 0b0_0000000000000_01_00001010_0000000_1 = .ok (.modinv .n) := by decide

theorem test_decode_ecadd : decode 0b0_0000000000000_00_00010000_0000000_1 = .ok .ecadd := by decide

theorem test_decode_ecmul : decode 0b0_0000000000000_00_00010001_0000000_1 = .ok .ecmul := by decide

theorem test_decode_ecmulLadder : decode 0b0_0000000000000_00_00010010_0000000_1 = .ok .ecmulLadder := by decide

theorem test_decode_compress : decode 0b0_0000000000000_00_00011000_0000000_1 = .ok .compress := by decide

theorem test_decode_decompress : decode 0b0_0000000000000_00_00011001_0000000_1 = .ok .decompress := by decide

/-- Reserved bits are ignored, and MODSEL where the command ignores it (R71, R75). -/
theorem test_decode_ignored_bits : decode 0b0_1111111111111_11_00010000_1111111_1 = .ok .ecadd := by decide

/-- SRST comes first, then START, then OPC (R68, R77, R74). -/
theorem test_decode_rejects : decode 0x80000501 = .error .softReset ∧ decode 0x00000500 = .error .notStarted ∧
    decode 0x00000B01 = .error (.illegalOpcode 0x0B) ∧ decode 0x0000FF01 = .error (.illegalOpcode 0xFF) := by decide

theorem test_encode : encode (.modmul .p) = 0x00000501 ∧ encode (.modexp .user) = 0x00020901 := by decide

/-! ### The commands, against the vectors -/

/-- V1, V2. -/
theorem test_nop : after status State.reset 0x00000001 = some 0x00000002 ∧
    after (readWindow 0x014) State.reset 0x00000001 = some 1 ∧
    after status State.reset 0x00030001 = some 0x00000002 := by decide +kernel

/-- V3, V4, V5, V6, V7. -/
theorem test_setmod : after status { State.reset with m := 225 } 0x00000101 = some 0x00000012 ∧
    after (readWindow 0x018) { State.reset with m := 225 } 0x00000101 = some 1 ∧
    after status { State.reset with m := 224 } 0x00000101 = some 0x00000506 ∧
    after status State.reset 0x00030101 = some 0x00000406 ∧
    after status { State.reset with m := 1 } 0x00000101 = some 0x00000012 := by decide +kernel

/-- V8: `2^255 + 1` has 8 limbs. -/
theorem test_setmod_limbs :
    after (readWindow 0x018) { State.reset with m := 2 ^ 255 + 1 } 0x00000101 = some 8 := by decide +kernel

/-- V9, V12. -/
theorem test_montmul : after State.d { State.reset with a := 1, b := 1 } 0x00000201 =
      some 0xC9BD1905155383999C46C2C295F2B761BCB223FEDC24A059D838091D0868192A ∧
    after State.d { prepared with a := 10, b := 20 } 0x00020201 = some 50 := by decide +kernel

/-- V15, V16. -/
theorem test_tomont : after State.d { State.reset with a := 2 } 0x00000301 = some 0x2000007A2 ∧
    after State.d { prepared with a := 10 } 0x00020301 = some 85 := by decide +kernel

/-- V17, V19. -/
theorem test_frommont : after State.d { State.reset with a := 0x1000003D1 } 0x00000401 = some 1 ∧
    after State.d { prepared with a := 10 } 0x00020401 = some 160 := by decide +kernel

/-- V22, V23. -/
theorem test_modmul : after State.d { State.reset with a := 2 ^ 255, b := 2 } 0x00000501 = some 0x1000003D1 ∧
    after State.d { prepared with a := 106, b := 143 } 0x00020501 = some 83 := by decide +kernel

/-- V33, V34: the two errors of the nine modular commands, with D kept. -/
theorem test_modmul_errors : after status { State.reset with d := 9 } 0x00020501 = some 0x00000306 ∧
    after status { State.reset with d := 9 } 0x00030501 = some 0x00000206 ∧
    after State.d { State.reset with d := 9 } 0x00030501 = some 9 := by decide +kernel

/-- V26. -/
theorem test_modadd : after State.d { State.reset with
      a := 0xFFFFFFFFFFFFFFFFFFFFFFFFFFFFFFFFFFFFFFFFFFFFFFFFFFFFFFFEFFFFFC2E
      b := 0xFFFFFFFFFFFFFFFFFFFFFFFFFFFFFFFFFFFFFFFFFFFFFFFFFFFFFFFEFFFFFC2E } 0x00000601 =
    some 0xFFFFFFFFFFFFFFFFFFFFFFFFFFFFFFFFFFFFFFFFFFFFFFFFFFFFFFFEFFFFFC2D := by decide +kernel

/-- V27, V28. -/
theorem test_modsub : after State.d { State.reset with a := 0, b := 1 } 0x00000701 =
      some 0xFFFFFFFFFFFFFFFFFFFFFFFFFFFFFFFFFFFFFFFFFFFFFFFFFFFFFFFEFFFFFC2E ∧
    after State.d { State.reset with a := 5, b := 3 } 0x00000701 = some 2 := by decide +kernel

/-- V31: a full 4096-bit A. -/
theorem test_modred : after State.d { State.reset with a := 2 ^ 4096 - 1 } 0x00000801 =
    some 0x3EC1C3F33A159AEE35EBB9E41D96A52EB393DA305DF66588E441C092AB38A5C7 := by decide +kernel

/-- V32. -/
theorem test_modred_n : after State.d { State.reset with a := 2 ^ 256 - 1 } 0x00010801 =
    some 0x14551231950B75FC4402DA1732FC9BEBE := by decide +kernel

/-- V38, V42. -/
theorem test_modexp : after State.d State.reset 0x00000901 = some 1 ∧
    after State.d { prepared with a := 16, e := 7 } 0x00020901 = some 106 := by decide +kernel

/-- The first row of part 2.4: `3^31575 mod 252601`. -/
theorem test_modexp_witness : after State.d { State.reset with
      m := 252601, mrdy := true, mconst := some { muser := 252601, luser := 32 }, mlen := 1, a := 3, e := 31575 }
    0x00020901 = some 155732 := by decide +kernel

/-- V45, V46. -/
theorem test_modinv : after State.d { State.reset with a := 2 } 0x00010A01 =
      some 0x7FFFFFFFFFFFFFFFFFFFFFFFFFFFFFFF5D576E7357A4501DDFE92F46681B20A1 ∧
    after State.d { prepared with a := 7 } 0x00020A01 = some 43 := by decide +kernel

/-- V49: `G + 2G = 3G`. -/
theorem test_ecadd : after pointR (points baseG
      { x := 0xC6047F9441ED7D6D3045406E95C07CD85C778E4B8CEF3CA7ABAC09B95C709EE5,
        y := 0x1AE168FEA63DC339A3C58419466CEAEEF7F632653266D0E1236431A950CFE52A, inf := false }) 0x00001001 =
    some { x := 0xF9308A019258C31049344F85F89D5229B531C845836F99B08601F113BCE036F9,
           y := 0x388F7B0F632DE8140FE337E62A37F3566500A99934C2231B6CB9FD7584B8E672, inf := false } := by
  decide +kernel

/-- V57 (off the curve), V59 (a verbatim copy). -/
theorem test_ecadd_corners :
    after pointR (points { x := 5, y := 9, inf := false } { x := 5, y := 7, inf := false }) 0x00001001 =
      some { x := 0xFFFFFFFFFFFFFFFFFFFFFFFFFFFFFFFFFFFFFFFFFFFFFFFFFFFFFFFEFFFFFC25,
             y := 0xFFFFFFFFFFFFFFFFFFFFFFFFFFFFFFFFFFFFFFFFFFFFFFFFFFFFFFFEFFFFFC26, inf := false } ∧
    after pointR (points { x := 1, y := 2, inf := true }
        { x := 0xFFFFFFFFFFFFFFFFFFFFFFFFFFFFFFFFFFFFFFFFFFFFFFFFFFFFFFFEFFFFFC30, y := 2, inf := false })
      0x00001001 =
      some { x := 0xFFFFFFFFFFFFFFFFFFFFFFFFFFFFFFFFFFFFFFFFFFFFFFFFFFFFFFFEFFFFFC30, y := 2, inf := false } := by
  decide +kernel

/-- V63: `2·G`. -/
theorem test_ecmul : after pointR { points baseG identityPoint with k := 2 } 0x00001101 =
    some { x := 0xC6047F9441ED7D6D3045406E95C07CD85C778E4B8CEF3CA7ABAC09B95C709EE5,
           y := 0x1AE168FEA63DC339A3C58419466CEAEEF7F632653266D0E1236431A950CFE52A, inf := false } := by
  decide +kernel

/-- V74: `3·(p + 3, 0)` is a verbatim copy. -/
theorem test_ecmul_verbatim : after pointR { points
      { x := 0xFFFFFFFFFFFFFFFFFFFFFFFFFFFFFFFFFFFFFFFFFFFFFFFFFFFFFFFEFFFFFC32, y := 0, inf := false }
      identityPoint with k := 3 } 0x00001101 =
    some { x := 0xFFFFFFFFFFFFFFFFFFFFFFFFFFFFFFFFFFFFFFFFFFFFFFFFFFFFFFFEFFFFFC32, y := 0, inf := false } := by
  decide +kernel

/-- V64: `3·G`. -/
theorem test_ecmulLadder : after pointR { points baseG identityPoint with k := 3 } 0x00001201 =
    some { x := 0xF9308A019258C31049344F85F89D5229B531C845836F99B08601F113BCE036F9,
           y := 0x388F7B0F632DE8140FE337E62A37F3566500A99934C2231B6CB9FD7584B8E672, inf := false } := by
  decide +kernel

/-- V67: `(n + 1)·G = G`, through all 256 passes. -/
theorem test_ecmulLadder_order : after pointR { points baseG identityPoint with
      k := 0xFFFFFFFFFFFFFFFFFFFFFFFFFFFFFFFEBAAEDCE6AF48A03BBFD25E8CD0364142 } 0x00001201 = some baseG := by
  decide +kernel

/-- V79: the first word of PB after COMPRESS of 2G, and PBLEN. -/
theorem test_compress : after (fun t => (readWindow 0xD00 t, readWindow 0x020 t)) { State.reset with
      rx := 0xC6047F9441ED7D6D3045406E95C07CD85C778E4B8CEF3CA7ABAC09B95C709EE5
      ry := 0x1AE168FEA63DC339A3C58419466CEAEEF7F632653266D0E1236431A950CFE52A } 0x00001801 =
    some (0x7F04C602, 33) := by decide +kernel

/-- V83. -/
theorem test_compress_identity : after status { State.reset with rinf := true } 0x00001801 = some 0x00001106 := by
  decide +kernel

/-- V90: X is kept verbatim, and Y is that of `X mod p`. -/
theorem test_decompress : after pointP { State.reset with
      pblen := 33, pb := bufferOf 0x02 0xFFFFFFFFFFFFFFFFFFFFFFFFFFFFFFFFFFFFFFFFFFFFFFFFFFFFFFFEFFFFFC30 }
    0x00001901 =
    some { x := 0xFFFFFFFFFFFFFFFFFFFFFFFFFFFFFFFFFFFFFFFFFFFFFFFFFFFFFFFEFFFFFC30,
           y := 0x4218F20AE6C646B363DB68605822FB14264CA8D2587FDD6FBC750D587E76A7EE, inf := false } := by
  decide +kernel

/-- V92, V93, V94, V95: strings that do not decode. -/
theorem test_decompress_invalid :
    after status { State.reset with pblen := 33, pb := bufferOf 0x04 0 } 0x00001901 = some 0x00001006 ∧
    after status { State.reset with pblen := 65, pb := bufferOf 0x02 0 } 0x00001901 = some 0x00001006 ∧
    after status { State.reset with pblen := 0, pb := bufferOf 0x02 0 } 0x00001901 = some 0x00001006 ∧
    after status { State.reset with pblen := 127, pb := bufferOf 0x04 0 } 0x00001901 = some 0x00001006 := by
  decide +kernel

/-! ### The bus, against the vectors -/

/-- V97: an illegal opcode is accepted and completes with its error. -/
theorem test_illegal_opcode :
    nextOf (step (flight 0x55 0 [])) = some (failed .illegalOpcode (flight 0x55 0 [])) := by decide +kernel

/-- V35: a write to M, even of the value it holds, makes the modulus not ready. -/
theorem test_write_modulus : afterEvent status prepared (.write 32 0x800 225) = some 0 ∧
    afterEvent (readWindow 0x018) prepared (.write 32 0x800 225) = some 0 := by decide +kernel

/-- V96: PBLEN keeps bits 6:0. -/
theorem test_write_pblen : afterEvent (readWindow 0x020) State.reset (.write 32 0x020 0x1FF) = some 127 := by
  decide +kernel

/-- V100. -/
theorem test_soft_reset : nextOf (step { prepared with busy := true, schedule := [.write 32 0x008 0x80000501] }) =
    some State.reset := by decide +kernel

/-- V101. -/
theorem test_identity : readWindow 0x000 State.reset = 0x4D4D0100 ∧ readWindow 0x004 State.reset = 0x1000 := by
  decide +kernel

/-- V103, V104: a dropped write sets WERR, and a word that does not exist is ignored without it. -/
theorem test_busy_write :
    afterEvent status { flight 0x09 0 [] with cfg := small } (.write 32 0x4000021C 5) = some 0x00000009 ∧
    afterEvent status { flight 0x09 0 [] with cfg := small } (.write 32 0x40000220 5) = some 0x00000001 := by
  decide +kernel

/-- V105. -/
theorem test_bus_error : nextOf (busRead 16 0x000 State.reset) = none ∧ nextOf (busWrite 8 0x200 0 State.reset) = none ∧
    nextOf (busRead 32 0x002 State.reset) = none := by decide +kernel

/-! ### Witnesses: states and operands that meet the hypotheses of each statement -/

/-- `s` with one event to come, a write of `v` at offset `off`. -/
def writes (s : State) (off : Nat) (v : Word) : State :=
  { s with schedule := [.write 32 (s.cfg.mmBase + off) v] }

/-- `s` with one event to come, a read at offset `off`. -/
def reads (s : State) (off : Nat) : State := { s with schedule := [.read 32 (s.cfg.mmBase + off)] }

/-- The reset state of the smallest block. -/
def smallReset : State := State.resetWith small [] none

/-- The reset state with `M = 3` prepared, an odd prime. -/
def prepared3 : State :=
  { State.reset with m := 3, mrdy := true, mconst := some { muser := 3, luser := 32 }, mlen := 1 }

theorem hostWrites_writes (s : State) (off : Nat) (v : Word) : hostWrites (writes s off v) off v [] := rfl

theorem hostReads_reads (s : State) (off : Nat) : hostReads (reads s off) off [] := rfl

theorem inv_resetWith {c : Config} (h : c.wf = true) (events : List Event) (lastReply : Option Word) :
    Inv (State.resetWith c events lastReply) :=
  inv_resetBlock (s := State.resetWith c events lastReply) h

theorem inv_prepared : Inv prepared where
  cfg := by decide
  wide r := by cases r <;> decide +kernel
  ready _ := by decide +kernel
  unready h := by cases h
  inFlight h := by cases h
  errAgrees := by decide
  errDone h := by cases h

theorem witness_StepRunsLatchedCommand :
    (engineTurn (flight 0x05 2 []) ∧ (flight 0x05 2 []).busy = true ∧
      decodeCommand (flight 0x05 2 []).latchOpc (flight 0x05 2 []).latchModsel = .ok (.modmul .user)) ∧
    (engineTurn (flight 0x05 2 [.engine]) ∧ (flight 0x05 2 [.engine]).busy = true ∧
      decodeCommand (flight 0x05 2 [.engine]).latchOpc (flight 0x05 2 [.engine]).latchModsel = .ok (.modmul .user)) :=
  ⟨⟨.inl rfl, rfl, rfl⟩, .inr ⟨[], rfl⟩, rfl, rfl⟩

theorem witness_AcceptedStartIssues :
    (hostWrites (writes State.reset 0x008 0x0000B501) 0x008 0x0000B501 [] ∧ (0x0000B501#32).getLsbD 31 = false ∧
      (0x0000B501#32).getLsbD 0 = true ∧ (writes State.reset 0x008 0x0000B501).busy = false) ∧
    (hostWrites (writes (flight 0 0 []) 0x008 1) 0x008 1 [] ∧ (writes (flight 0 0 []) 0x008 1).busy = true) :=
  ⟨⟨rfl, by decide, by decide, rfl⟩, rfl, rfl⟩

theorem witness_CommandWordRuns :
    (decode 0x00020901 = .ok (.modexp .user) ∧ (idle [.write 32 0x008 0x00020901, .engine]).busy = false ∧
      hostWrites (idle [.write 32 0x008 0x00020901, .engine]) 0x008 0x00020901 [.engine]) ∧
    decodeTableWord 32 0x00020901 = some (.modexp .user) :=
  ⟨⟨by decide, rfl, rfl⟩, by decide⟩

/-- Both ends of each of the three ranges. -/
theorem witness_IllegalOpcodeCompletes :
    engineTurn (flight 0x0B 3 []) ∧ (flight 0x0B 3 []).busy = true ∧ illegalOpc 0x0B ∧ illegalOpc 0x0F ∧
      illegalOpc 0x13 ∧ illegalOpc 0x17 ∧ illegalOpc 0x1A ∧ illegalOpc 0xFF ∧ ¬ illegalOpc 0x0A ∧ ¬ illegalOpc 0x10 ∧
      ¬ illegalOpc 0x12 ∧ ¬ illegalOpc 0x18 ∧ ¬ illegalOpc 0x19 := by
  refine ⟨.inl rfl, rfl, ?_⟩
  unfold illegalOpc
  decide

theorem witness_CommandWritesFrame :
    (∃ t, exec .nop State.reset = .next t) ∧ (∃ t, exec (.modadd .p) State.reset = .next t) ∧
      (∃ t, exec .setmod State.reset = .next t) ∧ (∃ t, exec .ecadd State.reset = .next t) ∧
      (∃ t, exec .compress State.reset = .next t) ∧ (∃ t, exec .decompress State.reset = .next t) :=
  ⟨⟨_, rfl⟩, ⟨_, rfl⟩, ⟨_, rfl⟩, ⟨_, rfl⟩, ⟨_, rfl⟩, ⟨_, rfl⟩⟩

theorem witness_ErrorWritesNothingElse :
    (exec .setmod State.reset = .next (failed .modZero State.reset) ∧ (failed .modZero State.reset).err = true) ∧
    completesNext (flight 0x55 0 []) ∧ step (flight 0x55 0 []) = .next (failed .illegalOpcode (flight 0x55 0 [])) :=
  ⟨⟨rfl, rfl⟩, ⟨rfl, .inl rfl⟩, rfl⟩

theorem witness_ErrorCodes :
    (Inv State.reset ∧ (∃ t, exec (.modmul .reserved) State.reset = .next t) ∧
      (∃ t, exec (.modexp .user) State.reset = .next t) ∧ (∃ t, exec .setmod State.reset = .next t) ∧
      (∃ t, exec .compress State.reset = .next t) ∧ (∃ t, exec .decompress State.reset = .next t)) ∧
    Inv prepared ∧ (∃ t, exec (.modmul .user) prepared = .next t) ∧ (∃ t, exec .setmod prepared = .next t) :=
  ⟨⟨inv_resetWith (by decide) _ _, ⟨_, rfl⟩, ⟨_, rfl⟩, ⟨_, rfl⟩, ⟨_, rfl⟩, ⟨_, rfl⟩⟩, inv_prepared, ⟨_, rfl⟩, ⟨_, rfl⟩⟩

theorem witness_ModselErrors : (Instr.montmul .reserved).modsel? = some .reserved ∧
    ((Instr.modinv .user).modsel? = some .user ∧ State.reset.mrdy = false) ∧ Instr.ecmulLadder.modsel? = none := by
  decide

/-- The last word of the window, the last byte of it, and an access of another width. -/
theorem witness_AccessServedIffAligned :
    ((reads smallReset 0xFFC).schedule = [.read 32 0x40000FFC] ∧ small.mmBase ≤ 0x40000FFC ∧
      0x40000FFC < small.mmBase + 0x1000 ∧ (0x40000FFC - small.mmBase) % 4 = 0) ∧
    (small.mmBase ≤ 0x40000FFF ∧ 0x40000FFF < small.mmBase + 0x1000 ∧ ¬ (0x40000FFF - small.mmBase) % 4 = 0) ∧
    (idle [.write 16 0x200 7]).schedule = [.write 16 0x200 7] := by decide

theorem witness_ReadsChangeNothing : hostReads (reads smallReset 0xFFC) 0xFFC [] ∧ hostReads (reads smallReset 0) 0 [] :=
  ⟨rfl, rfl⟩

theorem witness_ControlRegistersRead : Inv smallReset ∧ Inv prepared := ⟨inv_resetWith (by decide) _ _, inv_prepared⟩

/-- The first word, the last word that exists, and the first that does not. -/
theorem witness_WideRegisterWords :
    (0 < smallReset.cfg.maxWords ∧ 7 < smallReset.cfg.maxWords ∧ smallReset.cfg.maxWords ≤ 8 ∧
      127 < State.reset.cfg.maxWords ∧ smallReset.busy = false) ∧
    hostWrites (writes smallReset (0x800 + 4 * 7) 5) (0x800 + 4 * 7) 5 [] ∧
    hostWrites (writes smallReset (0xA00 + 4 * 8) 5) (0xA00 + 4 * 8) 5 [] := ⟨by decide, rfl, rfl⟩

theorem witness_CoordRegisterWords : (writes State.reset (0xCC0 + 4 * 7) 5).busy = false ∧
    hostWrites (writes State.reset (0xCC0 + 4 * 7) 5) (0xCC0 + 4 * 7) 5 [] := ⟨rfl, rfl⟩

theorem witness_PointBufferWords : (writes State.reset (0xD00 + 4 * 16) 5).busy = false ∧
    hostWrites (writes State.reset (0xD00 + 4 * 16) 5) (0xD00 + 4 * 16) 5 [] := ⟨rfl, rfl⟩

theorem witness_ReadAfterWrite :
    (hostWrites (writes smallReset 0xD40 5) 0xD40 5 [] ∧ lockedOffset small 0xD40) ∧
    (hostWrites (writes smallReset 0x800 5) 0x800 5 [] ∧ lockedOffset small 0x800) ∧
    hostWrites (writes smallReset 0xBFC 5) 0xBFC 5 [] ∧ ¬ lockedOffset small 0xBFC := by
  refine ⟨⟨rfl, ?_⟩, ⟨rfl, ?_⟩, rfl, ?_⟩ <;> (unfold lockedOffset; decide)

theorem witness_WritesWhileBusy : (flight 0x09 0 []).busy = true ∧ (0x80000501#32).getLsbD 31 = true ∧
    (lockedOffset small 0x21C ∧ lockedOffset small 0x008 ∧ lockedOffset small 0xCDC ∧ lockedOffset small 0xD40) := by
  unfold lockedOffset
  decide

/-- The ends of the reserved ranges (R48). -/
theorem witness_reserved_ends : (reservedOffset small 0x024 ∧ reservedOffset small 0x1FC) ∧
    (reservedOffset small 0x220 ∧ reservedOffset small 0xCE0) ∧
    (reservedOffset small 0xD44 ∧ reservedOffset small 0xFFC) ∧ ¬ reservedOffset small 0x21C := by
  unfold reservedOffset
  decide

theorem witness_ControlWrites : (writes State.reset 0x008 0x00035500).busy = false ∧
    hostWrites (writes State.reset 0x008 0x00035500) 0x008 0x00035500 [] ∧ (0x00035500#32).getLsbD 31 = false ∧
    (0x00035500#32).getLsbD 0 = false ∧ hostWrites (writes State.reset 0x020 0x7F) 0x020 0x7F [] :=
  ⟨rfl, rfl, by decide, by decide, rfl⟩

theorem witness_ReservedReadZeroWriteIgnored :
    (reservedOffset small 0x220 ∧ small.wf = true ∧ hostWrites (writes smallReset 0x220 5) 0x220 5 []) ∧
    (hostWrites (writes smallReset 0x00C 0x17) 0x00C 0x17 [] ∧ (0x17#32).getLsbD 3 = false) ∧
    (0xFFFFFF05 : Word) &&& ~~~ reservedBits 0xD40 = 0x00000105 &&& ~~~ reservedBits 0xD40 := by
  refine ⟨⟨?_, by decide, rfl⟩, ⟨rfl, by decide⟩, by decide⟩
  unfold reservedOffset
  decide

theorem witness_LoadingARegister :
    (Inv { smallReset with schedule := mmldWide small .M 225 } ∧ (225 : Nat) < 2 ^ small.maxBits ∧
      ({ smallReset with schedule := mmldWide small .M 225 } : State).schedule = mmldWide small .M 225 ++ []) ∧
    ({ smallReset with schedule := mmldCoord small .K 2 } : State).schedule = mmldCoord small .K (2 : Coord).toNat ++ [] :=
  ⟨⟨inv_resetWith (by decide) _ _, by decide, by simp⟩, by simp⟩

theorem witness_SoftResetIsHardReset :
    (idle [.hardReset]).schedule = [.hardReset] ∧ (0x80000000#32).getLsbD 31 = true ∧
    hostWrites (writes (flight 0x09 0 []) 0x008 0x80000000) 0x008 0x80000000 [] := ⟨rfl, by decide, rfl⟩

theorem witness_InvAtReset : small.wf = true := by decide

theorem witness_StepKeepsInv : Inv { prepared with schedule := [.write 32 0x800 9] } ∧
    ∃ t, step { prepared with schedule := [.write 32 0x800 9] } = .next t := by
  refine ⟨⟨inv_prepared.cfg, fun r => ?_, inv_prepared.ready, inv_prepared.unready, inv_prepared.inFlight,
    inv_prepared.errAgrees, inv_prepared.errDone⟩, _, rfl⟩
  cases r <;> decide +kernel

theorem witness_StepTakesOneEvent : step (idle [.engine, .hardReset]) = .next (idle [.hardReset]) ∧
    ∀ off rest, ¬ hostReads (idle [.engine, .hardReset]) off rest := by
  refine ⟨rfl, fun off rest h => ?_⟩
  simp [hostReads, idle] at h

theorem witness_OnlyBadAccessesStop : SafeSchedule (idle [.read 32 0xFFC, .engine, .hardReset]) ∧
    step (idle [.read 32 0xFFE]) = .fault (.busError 0xFFE) ∧
    step (idle [.read 32 0x1000]) = .fault (.outsideWindow 0x1000) := by
  refine ⟨?_, rfl, rfl⟩
  simp [SafeSchedule, idle, lawful, served, State.reset, State.resetWith, Config.default]

theorem witness_StatusChanges :
    (acceptsStart (writes State.reset 0x008 1) ∧ ∃ t, step (writes State.reset 0x008 1) = .next t) ∧
    (completesNext (flight 0 0 [.engine]) ∧ ∃ t, step (flight 0 0 [.engine]) = .next t) ∧
    (resetsNext (idle [.hardReset]) ∧ ∃ t, step (idle [.hardReset]) = .next t) ∧
    ∃ t, step (idle []) = .next t :=
  ⟨⟨⟨rfl, 1, [], by decide, by decide, rfl⟩, _, rfl⟩, ⟨⟨rfl, .inr ⟨[], rfl⟩⟩, _, rfl⟩,
    ⟨⟨[], .inl rfl⟩, _, rfl⟩, _, rfl⟩

theorem witness_WerrChanges :
    (dropsWriteNext (writes (flight 0 0 []) 0x200 5) ∧ ∃ t, step (writes (flight 0 0 []) 0x200 5) = .next t) ∧
    (clearsWerrNext (writes State.reset 0x00C 8) ∧ ∃ t, step (writes State.reset 0x00C 8) = .next t) ∧
    ∃ t, exec .nop State.reset = .next t := by
  refine ⟨⟨⟨rfl, 0x200, 5, [], by decide, ?_, by decide, rfl⟩, _, rfl⟩, ⟨⟨8, [], by decide, rfl⟩, _, rfl⟩, _, rfl⟩
  unfold lockedOffset
  decide

theorem witness_MrdyChanges :
    (completesNext { flight 0x01 0 [] with m := 225 } ∧ ({ flight 0x01 0 [] with m := 225 } : State).m % 2 = 1 ∧
      ∃ t, step { flight 0x01 0 [] with m := 225 } = .next t) ∧
    writesModulusNext (writes prepared 0x9FC 0) ∧ ∃ t, step (writes prepared 0x9FC 0) = .next t :=
  ⟨⟨⟨rfl, .inl rfl⟩, by decide, _, rfl⟩, ⟨rfl, 127, 0, [], by decide, by decide, rfl⟩, _, rfl⟩

theorem witness_InterruptChanges :
    acknowledgesNext (writes { State.reset with doneIp := true } 0x014 1) ∧
    (∃ t, step (writes { State.reset with doneIp := true } 0x014 1) = .next t) ∧
    irqLine { smallReset with doneIp := true, doneIe := true } 5 = true ∧
    irqLine { smallReset with doneIp := true, doneIe := true } 4 = false :=
  ⟨⟨1, [], by decide, rfl⟩, ⟨_, rfl⟩, by decide, by decide⟩

theorem witness_InterleavingDoesNotMatter :
    (flight 0x09 0 [.write 32 0x200 9, .read 32 0x200, .engine]).busy = true ∧
    decodeCommand 0x09 0 = .ok (.modexp .p) ∧
    (∀ ev ∈ ([.write 32 0x200 9, .read 32 0x200] : List Event), harmless Config.default ev) := by
  refine ⟨rfl, by decide, ?_⟩
  simp [harmless, served, Config.default]

theorem witness_Selects : Selects .p State.reset fieldP 256 ∧ Selects .n State.reset orderN 256 ∧
    Selects .user prepared 225 32 ∧ Selects .user prepared3 3 32 ∧ fieldP % 2 = 1 ∧ orderN % 2 = 1 ∧ 0 < fieldP ∧
    0 < orderN :=
  ⟨.inl ⟨rfl, rfl, rfl⟩, .inr (.inl ⟨rfl, rfl, rfl⟩), .inr (.inr ⟨rfl, rfl, rfl⟩), .inr (.inr ⟨rfl, rfl, rfl⟩),
    by decide, by decide, by decide, by decide⟩

theorem witness_SetmodPreparesModulus : prepared.m % 2 = 1 ∧ State.reset.m = 0 ∧
    ({ State.reset with m := 224 } : State).m ≠ 0 ∧ ({ State.reset with m := 224 } : State).m % 2 = 0 := by decide

theorem witness_ModinvIsInverse : Selects .user prepared3 3 32 ∧ Nat.Prime 3 ∧ 3 % 2 = 1 ∧
    ({ prepared3 with a := 2 } : State).a % 3 ≠ 0 ∧ prepared3.a % 3 = 0 :=
  ⟨.inr (.inr ⟨rfl, rfl, rfl⟩), Nat.prime_three, rfl, by decide, by decide⟩

theorem witness_ResultsBelowModulus : (Instr.modmul .user).modsel? = some .user ∧ Inv prepared ∧
    Selects .user prepared 225 32 := ⟨rfl, inv_prepared, .inr (.inr ⟨rfl, rfl, rfl⟩)⟩

theorem witness_FieldInverse : 2 % fieldP ≠ 0 ∧ ({ State.reset with a := 2 } : State).a = 2 := by decide

theorem witness_EcaddIdentity :
    ((points identityPoint identityPoint).pinf = true ∧ (points identityPoint identityPoint).qinf = true) ∧
    ((points identityPoint baseG).pinf = true ∧ (points identityPoint baseG).qinf = false) ∧
    (points baseG identityPoint).pinf = false ∧ (points baseG identityPoint).qinf = true := by decide

/-- `(3, 0) + (3, 0)`, where the points are opposite, and `(5, 7) + (5, 9)`, where they only share X (R110). -/
theorem witness_EcaddAffine :
    ((3 : ZMod fieldP) = 3 ∧ (0 : ZMod fieldP) = -0) ∧
    ¬ (((7 : Nat) : ZMod fieldP) = -((9 : Nat) : ZMod fieldP)) ∧
    ¬ (((7 : Nat) : ZMod fieldP) = ((9 : Nat) : ZMod fieldP)) ∧
    ¬ (((1 : Nat) : ZMod fieldP) = ((2 : Nat) : ZMod fieldP)) ∧
    (points { x := 5, y := 7, inf := false } { x := 5, y := 9, inf := false }).pinf = false ∧
    (points { x := 5, y := 7, inf := false } { x := 5, y := 9, inf := false }).qinf = false := by
  refine ⟨⟨rfl, by simp⟩, ?_, ?_, ?_, rfl, rfl⟩
  · intro h
    have h16 : ((7 + 9 : Nat) : ZMod fieldP) = 0 := by rw [Nat.cast_add, h]; exact neg_add_cancel _
    exact absurd ((ZMod.natCast_eq_zero_iff _ _).1 h16) (by decide)
  · intro h
    exact absurd ((ZMod.natCast_eq_natCast_iff' _ _ _).1 h) (by decide)
  · intro h
    exact absurd ((ZMod.natCast_eq_natCast_iff' _ _ _).1 h) (by decide)

theorem witness_EcaddCommutes : 5 % fieldP = 5 % fieldP ∧ 7 % fieldP ≠ 9 % fieldP ∧ (7 + 9) % fieldP ≠ 0 ∧
    1 % fieldP ≠ 2 % fieldP := by decide

theorem onCurve_baseG : OnCurve baseG := .inr ⟨rfl, by decide, by decide, by decide +kernel⟩

/-- The identity, the base point and its double (V48). -/
theorem witness_CurveGroupLaw : OnCurve identityPoint ∧ OnCurve baseG ∧ OnCurve
    { x := 0xC6047F9441ED7D6D3045406E95C07CD85C778E4B8CEF3CA7ABAC09B95C709EE5,
      y := 0x1AE168FEA63DC339A3C58419466CEAEEF7F632653266D0E1236431A950CFE52A, inf := false } :=
  ⟨.inl rfl, onCurve_baseG, .inr ⟨rfl, by decide, by decide, by decide +kernel⟩⟩

theorem witness_CurveClosure : OnCurve (pointP (points baseG baseG)) ∧ OnCurve (pointQ (points baseG baseG)) :=
  ⟨onCurve_baseG, onCurve_baseG⟩

theorem witness_LadderPasses : OnCurve (pointP (points baseG identityPoint)) := onCurve_baseG

theorem witness_ScalarCorners :
    (points baseG identityPoint).k = 0 ∧ (points identityPoint identityPoint).pinf = true ∧
    (({ points baseG identityPoint with k := 1 } : State).k = 1 ∧ (points baseG identityPoint).pinf = false) ∧
    (points { x := 3, y := 0, inf := false } identityPoint).py.toNat % fieldP = 0 ∧
    ({ points baseG identityPoint with k := 2 } : State).k.toNat % 2 = 0 ∧
    ({ points baseG identityPoint with k := 3 } : State).k.toNat % 2 = 1 := by decide

/-- The largest sum of scalars, and a scalar past the order. -/
theorem witness_ScalarHomomorphism : OnCurve baseG ∧ (2 ^ 256 - 2) + 1 < 2 ^ 256 ∧ orderN + 1 < 2 ^ 256 :=
  ⟨onCurve_baseG, by decide, by decide⟩

/-- Both ends of the range of the scalar. -/
theorem witness_ScalarClosure : pointP { points baseG identityPoint with k := 1 } = baseG ∧
    1 ≤ ({ points baseG identityPoint with k := 1 } : State).k.toNat ∧
    ({ points baseG identityPoint with
        k := 0xFFFFFFFFFFFFFFFFFFFFFFFFFFFFFFFEBAAEDCE6AF48A03BBFD25E8CD0364140 } : State).k.toNat = orderN - 1 := by
  decide

theorem witness_CompressResult : State.reset.rinf = false ∧ ({ State.reset with rinf := true } : State).rinf = true :=
  ⟨rfl, rfl⟩

theorem witness_DecompressResult :
    4 * 0x3FFFFFFFFFFFFFFFFFFFFFFFFFFFFFFFFFFFFFFFFFFFFFFFFFFFFFFFBFFFFF0C = fieldP + 1 ∧
    pbByte (bufferOf 0x04 5) 0 = 0x04 ∧ pbByte (bufferOf 0x02 5) 0 = 0x02 ∧ pbByte (bufferOf 0x03 5) 0 = 0x03 ∧
    (65 : BitVec 7).toNat = 65 ∧ pbByte State.reset.pb 0 = 0x00 := by decide +kernel

theorem witness_DecompressParity : ({ State.reset with pblen := 33, pb := bufferOf 0x03 1 } : State).pblen = 33 ∧
    pbByte ({ State.reset with pblen := 33, pb := bufferOf 0x03 1 } : State).pb 0 = 0x03 := by decide +kernel

/-- The reset state with point R. -/
def resultPoint (R : Point) : State := { State.reset with rx := R.x, ry := R.y, rinf := R.inf }

/-- The point `(1, Y)` of V87 with its X unreduced, `p + 1`. -/
def unreducedPoint : Point :=
  { x := 0xFFFFFFFFFFFFFFFFFFFFFFFFFFFFFFFFFFFFFFFFFFFFFFFFFFFFFFFEFFFFFC30,
    y := 0x4218F20AE6C646B363DB68605822FB14264CA8D2587FDD6FBC750D587E76A7EE, inf := false }

/-- R = G, which is reduced, and an R that is not. -/
theorem witness_CompressionRoundTrip :
    ((resultPoint baseG).rinf = false ∧ (resultPoint baseG).ry.toNat ^ 2 % fieldP =
        ((resultPoint baseG).rx.toNat ^ 3 + 7) % fieldP ∧
      (resultPoint baseG).rx.toNat < fieldP ∧ (resultPoint baseG).ry.toNat < fieldP) ∧
    ((resultPoint unreducedPoint).rinf = false ∧ (resultPoint unreducedPoint).ry.toNat ^ 2 % fieldP =
        ((resultPoint unreducedPoint).rx.toNat ^ 3 + 7) % fieldP ∧
      ¬ (resultPoint unreducedPoint).rx.toNat < fieldP) := by
  decide +kernel

end Sys2Proof.Tests
end

section
/-! The frame of one step: the parameters, the schedule and the host's last reply (R19, R63). -/

namespace Sys2Proof.Machine

@[simp] theorem popped_cfg (s : State) : (popped s).cfg = s.cfg := rfl
@[simp] theorem popped_schedule (s : State) : (popped s).schedule = s.schedule.tail := rfl
@[simp] theorem popped_reply (s : State) : (popped s).reply = s.reply := rfl

/-- Settles O30: `step_cases` lists what a step can do to the state without its first event, and each case has its
frame lemma (`complete_frame`, `writeWindow_host`); only a read writes the reply. -/
theorem stepTakesOneEvent : Obligations.StepTakesOneEvent := by
  unfold Obligations.StepTakesOneEvent
  intro s t h
  cases step_cases h with
  | idle => exact ⟨rfl, rfl, fun _ => rfl⟩
  | completes i =>
    obtain ⟨hcfg, hschedule, hreply, -⟩ := complete_frame i (popped s)
    exact ⟨hcfg, hschedule, fun _ => hreply⟩
  | illegal => simp
  | read off rest hread => exact ⟨rfl, rfl, fun hno => absurd hread (hno off rest)⟩
  | write off v _ _ _ ho h4 hw =>
    subst hw
    obtain ⟨hcfg, hschedule, hreply⟩ := writeWindow_host off v (popped s) ho h4
    exact ⟨hcfg, hschedule, fun _ => hreply⟩
  | hardReset => simp

end Sys2Proof.Machine
end

section
/-! The invariant along a step, what a command may write, and what a read or a write of a control register does. -/

namespace Sys2Proof.Machine

/-! ### The invariant (R20, R32, R34, R37, R42, R60) -/

/-- The invariant does not speak of the host's last reply. -/
theorem inv_reply {s : State} (lastReply : Option Word) (h : Inv s) : Inv { s with reply := lastReply } :=
  { h with wide := fun r => by have hr := h.wide r; cases r <;> exact hr }

/-- Settles O28: each of the operations a step can be (`step_cases`) keeps the invariant. -/
theorem stepKeepsInv : Obligations.StepKeepsInv := by
  unfold Obligations.StepKeepsInv
  intro s t hi h
  have hp : Inv (popped s) := inv_popped hi
  cases step_cases h with
  | idle => exact hp
  | completes i => exact inv_complete hp
  | illegal => exact inv_finish hp (by simp)
  | read => exact inv_reply _ hp
  | write off v _ _ _ ho h4 hw => exact hw ▸ inv_writeWindow v hp ho h4
  | hardReset => exact inv_resetBlock hi.cfg

/-! ### What each command may write (R20 to R24, R41) -/

/-- COMPRESS keeps the bytes of PB past its 33 (R122). -/
theorem pbByte_compressedPb {j : Nat} (b : Vector Byte 33) (pb : Vector Byte 65) (h : 33 ≤ j) :
    pbByte (compressedPb b pb) j = pbByte pb j := by
  by_cases hj : j < 65
  · rw [pbByte_of_lt hj, pbByte_of_lt hj, compressedPb_getElem, dif_neg (by omega)]
  · rw [pbByte_of_ge (by omega), pbByte_of_ge (by omega)]

/-- Settles O10: `outcome_cases` names the writes a command can make, each to its own registers, and an error makes
none. -/
theorem commandWritesFrame : Obligations.CommandWritesFrame := by
  unfold Obligations.CommandWritesFrame
  intro i s t h
  rw [exec_eq, Host.Outcome.next.injEq] at h
  subst h
  have hc := outcome_cases i s
  revert hc
  generalize outcome i s = o
  intro hc
  cases hc with
  | nothing => simp
  | modular ms m l hms => simp [hms]
  | modulus hi => simp [hi]
  | point hi => rcases hi with rfl | rfl | rfl <;> simp
  | encoded b hi => simp +contextual [hi, pbByte_compressedPb]
  | decoded P hi => simp [hi]
  | error => simp

/-! ### Accepted writes to the control and flag registers (R28, R33, R35, R36, R38, R39, R77) -/

/-- A STATUS write clears WERR when its bit 3 is set (R33). -/
theorem writeWindow_status (v : Word) (s : State) :
    writeWindow 0x00C v s = { s with werr := s.werr && !v.getLsbD 3 } := by
  simp only [writeWindow, locate_status, writeReg]
  cases v.getLsbD 3 <;> simp

/-- An INT_EN write stores its bit 0 (R35). -/
theorem writeWindow_intEn (v : Word) (s : State) : writeWindow 0x010 v s = { s with doneIe := v.getLsbD 0 } := by
  simp only [writeWindow, locate_intEn, writeReg]

/-- An INT_STAT write clears DONE_IP when its bit 0 is set (R36). -/
theorem writeWindow_intStat (v : Word) (s : State) :
    writeWindow 0x014 v s = { s with doneIp := s.doneIp && !v.getLsbD 0 } := by
  simp only [writeWindow, locate_intStat, writeReg]
  cases v.getLsbD 0 <;> simp [acknowledge]

section idle

variable {s : State} (v : Word) (hb : s.busy = false)
include hb

/-- A CTRL write to an idle block, without SRST and START, stores OPC and MODSEL only (R77). -/
theorem writeWindow_ctrl_stores (h31 : v.getLsbD 31 = false) (h0 : v.getLsbD 0 = false) :
    writeWindow 0x008 v s = storeCtrl v s := by
  have hsrst : Word.srst v = false := h31
  have hstart : Word.start v = false := h0
  simp [writeWindow, writeReg, unlessBusy_idle _ hb, writeCtrl, hsrst, hstart]

theorem writeWindow_pflags : writeWindow 0x01C v s = writePflags v s := by
  simp only [writeWindow, locate_pflags, writeReg, unlessBusy_idle _ hb]

theorem writeWindow_pblen : writeWindow 0x020 v s = writePblen v s := by
  simp only [writeWindow, locate_pblen, writeReg, unlessBusy_idle _ hb]

end idle

/-- Settles O22: the step is the write's, on the state without the event (`step_hostWrites`), and each register has
its lemma above. -/
theorem controlWrites : Obligations.ControlWrites := by
  unfold Obligations.ControlWrites
  intro s v rest hb
  have hb' : ({ s with schedule := rest } : State).busy = false := hb
  refine ⟨fun h h31 h0 => ?_, fun h => ?_, fun h => ?_, fun h => ?_, fun h => ?_, fun h => ?_⟩ <;>
    rw [step_hostWrites h (by decide) (by decide)]
  · rw [writeWindow_ctrl_stores v hb' h31 h0]
    rfl
  · rw [writeWindow_status]
  · rw [writeWindow_intEn]
  · rw [writeWindow_intStat]
  · rw [writeWindow_pflags v hb']
    rfl
  · rw [writeWindow_pblen v hb']
    rfl

end Sys2Proof.Machine
end

section
/-! The control and status registers as the bus reads them (R26 to R39). -/

namespace Sys2Proof.Machine

/-! ### Fields of a word -/

/-- Bit `i` of a word is bit `i - lo` of the field at `lo` when it lies in the field, else 0. -/
theorem placeAt_getLsbD_field {w lo : Nat} (x : BitVec w) (i : Nat) (h : lo + w ≤ 32) :
    (placeAt lo x).getLsbD i = if lo ≤ i ∧ i < lo + w then x.getLsbD (i - lo) else false := by
  rw [placeAt_getLsbD]
  by_cases hlo : lo ≤ i
  · by_cases hw : i < lo + w
    · simp [hlo, hw, show i < 32 by omega]
    · simp [hw, BitVec.getLsbD_of_ge x (i - lo) (by omega)]
  · simp [hlo]

/-- A flag at bit `k` is that bit and no other. -/
theorem placeAt_ofBool_getLsbD {k : Nat} (b : Bool) (i : Nat) (h : k < 32) :
    (placeAt k (BitVec.ofBool b)).getLsbD i = if i = k then b else false := by
  rw [placeAt_getLsbD_field _ _ h]
  by_cases hi : i = k
  · simp [hi]
  · rw [if_neg (by omega), if_neg hi]

/-- A field at bit 0 has its own value as the word's. -/
theorem placeAt_zero_toNat {w : Nat} (x : BitVec w) (h : w ≤ 32) : (placeAt 0 x).toNat = x.toNat := by
  simp [placeAt, BitVec.toNat_setWidth,
    Nat.mod_eq_of_lt (x.isLt.trans_le (Nat.pow_le_pow_right (by decide) h))]

/-! ### Each word, bit by bit -/

section words

variable (s : State) (i : Nat)

theorem ctrlWord_getLsbD : (ctrlWord s).getLsbD i =
    if 8 ≤ i ∧ i < 16 then s.opc.getLsbD (i - 8) else if 16 ≤ i ∧ i < 18 then s.modsel.getLsbD (i - 16) else false := by
  simp (disch := decide) only [ctrlWord, BitVec.getLsbD_or, placeAt_getLsbD_field]
  by_cases hopc : 8 ≤ i ∧ i < 16
  · simp [hopc, show ¬ 16 ≤ i by omega]
  · simp [hopc]

theorem statusWord_getLsbD : (statusWord s).getLsbD i =
    if i = 0 then s.busy else if i = 1 then s.done else if i = 2 then s.err else if i = 3 then s.werr
    else if i = 4 then s.mrdy else if 8 ≤ i ∧ i < 16 then s.errcode.code.getLsbD (i - 8) else false := by
  simp (disch := decide) only [statusWord, BitVec.getLsbD_or, placeAt_ofBool_getLsbD]
  rw [placeAt_getLsbD_field _ _ (by decide)]
  by_cases hflag : i < 5
  · have hcases : i = 0 ∨ i = 1 ∨ i = 2 ∨ i = 3 ∨ i = 4 := by omega
    rcases hcases with rfl | rfl | rfl | rfl | rfl <;> simp
  · simp [show i ≠ 0 by omega, show i ≠ 1 by omega, show i ≠ 2 by omega, show i ≠ 3 by omega, show i ≠ 4 by omega]

theorem pflagsWord_getLsbD : (pflagsWord s).getLsbD i =
    if i = 0 then s.pinf else if i = 1 then s.qinf else if i = 2 then s.rinf else false := by
  simp (disch := decide) only [pflagsWord, BitVec.getLsbD_or, placeAt_ofBool_getLsbD]
  by_cases h0 : i = 0
  · simp [h0]
  · by_cases h1 : i = 1 <;> simp [h0, h1]

end words

/-- CFG holds MAXBITS, which its sixteen bits can (R8, R27). -/
theorem cfgWord_toNat {s : State} (h : s.cfg.wf = true) : (cfgWord s).toNat = s.cfg.maxBits := by
  have hmax : s.cfg.maxBits < 2 ^ 16 := by
    simp [Config.wf] at h
    unfold Config.maxBits
    omega
  rw [cfgWord, placeAt_zero_toNat _ (by decide), BitVec.toNat_ofNat, Nat.mod_eq_of_lt hmax]

/-- MLEN holds the limb count of the prepared modulus, which its eight bits can, and 0 without one (R37). -/
theorem mlenWord_toNat {s : State} (h : Inv s) : (mlenWord s).toNat = if s.mrdy then radixBits s.m / 32 else 0 := by
  have hsmall : radixBits s.m / 32 < 2 ^ 8 := by
    have hwords : s.cfg.maxWords ≤ 128 := by
      have := h.cfg
      simp [Config.wf] at this
      omega
    have := radixBits_small h
    omega
  rw [mlenWord, placeAt_zero_toNat _ (by decide)]
  cases hr : s.mrdy with
  | false => rfl
  | true =>
    obtain ⟨-, -, hlen⟩ := h.ready hr
    simpa [hlen] using hsmall

@[simp] theorem locate_id : locate 0x000 = some (.ID, 0) := by decide +kernel

@[simp] theorem locate_cfg : locate 0x004 = some (.CFG, 0) := by decide +kernel

@[simp] theorem locate_mlen : locate 0x018 = some (.MLEN, 0) := by decide +kernel

/-- Settles O16: each offset reads its register's word, and each word has its lemma above. -/
theorem controlRegistersRead : Obligations.ControlRegistersRead := by
  unfold Obligations.ControlRegistersRead
  intro s hi
  simp only [readWindow, locate_id, locate_cfg, locate_ctrl, locate_status, locate_intEn, locate_intStat, locate_mlen,
    locate_pflags, locate_pblen, readReg]
  exact ⟨rfl, cfgWord_toNat hi.cfg, fun i _ => ctrlWord_getLsbD s i, fun i _ => statusWord_getLsbD s i,
    fun i _ => placeAt_ofBool_getLsbD _ i (by decide), fun i _ => placeAt_ofBool_getLsbD _ i (by decide),
    mlenWord_toNat hi, fun i _ => pflagsWord_getLsbD s i, placeAt_zero_toNat _ (by decide)⟩

end Sys2Proof.Machine
end

section
/-! The status fields, WERR, MRDY and the interrupt fields: the only events that change each (R30 to R36, R40). -/

namespace Sys2Proof.Machine

/-! ### The control fields after each update of the state -/

section fields

variable (s : State) (r : WideReg) (q : CoordReg) (j : Nat) (v : Word)

@[simp] theorem popped_m : (popped s).m = s.m := rfl
@[simp] theorem popped_busy : (popped s).busy = s.busy := rfl
@[simp] theorem popped_done : (popped s).done = s.done := rfl
@[simp] theorem popped_err : (popped s).err = s.err := rfl
@[simp] theorem popped_errcode : (popped s).errcode = s.errcode := rfl
@[simp] theorem popped_werr : (popped s).werr = s.werr := rfl
@[simp] theorem popped_mrdy : (popped s).mrdy = s.mrdy := rfl
@[simp] theorem popped_doneIe : (popped s).doneIe = s.doneIe := rfl
@[simp] theorem popped_doneIp : (popped s).doneIp = s.doneIp := rfl

@[simp] theorem writeCtrl_werr : (writeCtrl v s).werr = s.werr := by unfold writeCtrl; split <;> rfl
@[simp] theorem writeCtrl_mrdy : (writeCtrl v s).mrdy = s.mrdy := by unfold writeCtrl; split <;> rfl
@[simp] theorem writeCtrl_doneIe : (writeCtrl v s).doneIe = s.doneIe := by unfold writeCtrl; split <;> rfl
@[simp] theorem writeCtrl_doneIp : (writeCtrl v s).doneIp = s.doneIp := by unfold writeCtrl; split <;> rfl

@[simp] theorem writeWide_busy : (writeWide r j v s).busy = s.busy := by unfold writeWide; split <;> simp
@[simp] theorem writeWide_done : (writeWide r j v s).done = s.done := by unfold writeWide; split <;> simp
@[simp] theorem writeWide_err : (writeWide r j v s).err = s.err := by unfold writeWide; split <;> simp
@[simp] theorem writeWide_errcode : (writeWide r j v s).errcode = s.errcode := by unfold writeWide; split <;> simp
@[simp] theorem writeWide_werr : (writeWide r j v s).werr = s.werr := by unfold writeWide; split <;> simp
@[simp] theorem writeWide_doneIe : (writeWide r j v s).doneIe = s.doneIe := by unfold writeWide; split <;> simp
@[simp] theorem writeWide_doneIp : (writeWide r j v s).doneIp = s.doneIp := by unfold writeWide; split <;> simp

/-- Only a write to M clears MRDY (R34). -/
@[simp] theorem writeWide_mrdy : (writeWide r j v s).mrdy = (decide (r ≠ .M) && s.mrdy) := by
  unfold writeWide
  split <;> simp [*]

@[simp] theorem writeCoord_busy : (writeCoord q j v s).busy = s.busy := setCoord_busy s q _
@[simp] theorem writeCoord_done : (writeCoord q j v s).done = s.done := setCoord_done s q _
@[simp] theorem writeCoord_err : (writeCoord q j v s).err = s.err := setCoord_err s q _
@[simp] theorem writeCoord_errcode : (writeCoord q j v s).errcode = s.errcode := setCoord_errcode s q _
@[simp] theorem writeCoord_werr : (writeCoord q j v s).werr = s.werr := setCoord_werr s q _
@[simp] theorem writeCoord_mrdy : (writeCoord q j v s).mrdy = s.mrdy := setCoord_mrdy s q _
@[simp] theorem writeCoord_doneIe : (writeCoord q j v s).doneIe = s.doneIe := setCoord_doneIe s q _
@[simp] theorem writeCoord_doneIp : (writeCoord q j v s).doneIp = s.doneIp := setCoord_doneIp s q _

end fields

/-! ### BUSY, DONE, ERR and ERRCODE (R30 to R32, R72, R73) -/

/-- The two writes that touch the status fields are the soft reset and an accepted START; every other write keeps
them. -/
theorem writeWindow_statusFields {off : Nat} (v : Word) (s : State) (ho : off < 0x1000) (h4 : off % 4 = 0) :
    ((off = 0x008 ∧ v.getLsbD 31 = true) ∧ writeWindow off v s = resetBlock s) ∨
    ((s.busy = false ∧ off = 0x008 ∧ v.getLsbD 31 = false ∧ v.getLsbD 0 = true) ∧
      writeWindow off v s = issueCommand (storeCtrl v s)) ∨
    (¬ (off = 0x008 ∧ v.getLsbD 31 = true) ∧
      ¬ (s.busy = false ∧ off = 0x008 ∧ v.getLsbD 31 = false ∧ v.getLsbD 0 = true) ∧
      (writeWindow off v s).busy = s.busy ∧ (writeWindow off v s).done = s.done ∧
      (writeWindow off v s).err = s.err ∧ (writeWindow off v s).errcode = s.errcode) := by
  generalize hw : writeWindow off v s = t
  have hc := writeWindow_cases off v s ho h4
  rw [hw] at hc
  cases hc with
  | softReset h hv => exact .inl ⟨⟨h, hv⟩, rfl⟩
  | ctrl h hv hb =>
    have h31 : v.getLsbD 31 = false := hv
    unfold writeCtrl
    cases h0 : Word.start v with
    | true => exact .inr (.inl ⟨⟨hb, h, h31, h0⟩, rfl⟩)
    | false =>
      have h0' : v.getLsbD 0 = false := h0
      exact .inr (.inr ⟨by rw [h31]; simp, by rw [h0']; simp, rfl, rfl, rfl, rfl⟩)
  | ignored hk =>
    have hne : off ≠ 0x008 := fun h => hk (.inl h)
    simp [hne]
  | dropped hb hk hv => exact .inr (.inr ⟨hv, by simp [hb], rfl, rfl, rfl, rfl⟩)
  | wide r j h =>
    have := wideBase_range r
    simp [show off ≠ 0x008 by omega]
  | coord r j h =>
    have := coordBase_range r
    simp [show off ≠ 0x008 by omega]
  | pb j h => simp [show off ≠ 0x008 by omega]
  | _ h => simp [h]

/-- What a step can do to BUSY, DONE, ERR and ERRCODE, with the event that does it. -/
inductive StatusCase (s t : State) : Prop where
  /-- The command in flight completes (R73). -/
  | completes (hc : completesNext s) (hs : ¬ acceptsStart s) (hr : ¬ resetsNext s)
      (hbusy : t.busy = false) (hdone : t.done = true)
  /-- A command is issued (R72). -/
  | starts (hs : acceptsStart s) (hr : ¬ resetsNext s) (hc : ¬ completesNext s)
      (hbusy : t.busy = true) (hdone : t.done = false) (herr : t.err = false) (hcode : t.errcode = .none)
  /-- The block is reset (R155). -/
  | resets (hr : resetsNext s) (hs : ¬ acceptsStart s) (hc : ¬ completesNext s)
      (hbusy : t.busy = false) (hdone : t.done = false) (herr : t.err = false) (hcode : t.errcode = .none)
  /-- None of the three happens, and the four fields keep their values. -/
  | keeps (hs : ¬ acceptsStart s) (hr : ¬ resetsNext s) (hc : ¬ completesNext s)
      (hbusy : t.busy = s.busy) (hdone : t.done = s.done) (herr : t.err = s.err) (hcode : t.errcode = s.errcode)

theorem step_statusCases {s t : State} (h : step s = .next t) : StatusCase s t := by
  cases step_cases h with
  | idle ht hb =>
    obtain ⟨hs, hr, -⟩ := next_of_engineTurn ht
    exact .keeps hs hr (by simp [completesNext, hb]) rfl rfl rfl rfl
  | completes i ht hb =>
    obtain ⟨hs, hr, -⟩ := next_of_engineTurn ht
    obtain ⟨-, -, -, -, -, hbusy, hdone, -⟩ := complete_frame i (popped s)
    exact .completes ⟨hb, ht⟩ hs hr hbusy hdone
  | illegal r ht hb =>
    obtain ⟨hs, hr, -⟩ := next_of_engineTurn ht
    exact .completes ⟨hb, ht⟩ hs hr rfl rfl
  | read off rest hread =>
    obtain ⟨hs, hr, -, -, -, -, hc⟩ := next_of_hostReads hread
    exact .keeps hs hr hc rfl rfl rfl rfl
  | write off v rest _ hwrite ho h4 hw =>
    subst hw
    obtain ⟨hs, hr, -, -, -, -, hc⟩ := next_of_hostWrites hwrite
    rcases writeWindow_statusFields v (popped s) ho h4 with
      ⟨hreset, hw⟩ | ⟨hstart, hw⟩ | ⟨hreset, hstart, hbusy, hdone, herr, hcode⟩
    · have hns : ¬ acceptsStart s := by
        rw [hs, hreset.2]
        simp
      rw [hw]
      exact .resets (hr.mpr hreset) hns hc rfl rfl rfl rfl
    · have hnr : ¬ resetsNext s := by
        rw [hr, hstart.2.2.1]
        simp
      rw [hw]
      exact .starts (hs.mpr hstart) hnr hc rfl rfl rfl rfl
    · exact .keeps (mt hs.mp hstart) (mt hr.mp hreset) hc hbusy hdone herr hcode
  | hardReset rest hreset =>
    obtain ⟨hs, hr, -, hc⟩ := next_of_hardReset hreset
    exact .resets hr hs hc rfl rfl rfl rfl

/-- Settles O31: in each case of `step_statusCases` the event that comes next and the fields after it are known. -/
theorem statusChanges : Obligations.StatusChanges := by
  unfold Obligations.StatusChanges
  intro s t h
  cases step_statusCases h with
  | completes hc hs hr hbusy hdone => simp [hc, hs, hr, hbusy, hdone]
  | starts hs hr hc hbusy hdone herr hcode => simp [hs, hr, hc, hbusy, hdone, herr, hcode, hs.1]
  | resets hr hs hc hbusy hdone herr hcode => simp [hs, hr, hc, hbusy, hdone, herr, hcode]
  | keeps hs hr hc hbusy hdone herr hcode => simp +contextual [hs, hr, hc, hbusy, hdone, herr, hcode]

/-! ### WERR (R33) -/

/-- A write sets WERR when it is dropped, and clears it as STATUS's bit 3 or as a soft reset. -/
theorem writeWindow_werr_iff {off : Nat} (v : Word) (s : State) (ho : off < 0x1000) (h4 : off % 4 = 0) :
    (writeWindow off v s).werr = true ↔
      (s.busy = true ∧ off % 4 = 0 ∧ lockedOffset s.cfg off ∧ ¬ (off = 0x008 ∧ v.getLsbD 31 = true)) ∨
      (s.werr = true ∧ ¬ (off = 0x00C ∧ v.getLsbD 3 = true) ∧ ¬ (off = 0x008 ∧ v.getLsbD 31 = true)) := by
  generalize hw : writeWindow off v s = t
  have hc := writeWindow_cases off v s ho h4
  rw [hw] at hc
  cases hc with
  | softReset h hv =>
    have h31 : v.getLsbD 31 = true := hv
    rw [h31]
    simp [h]
  | ctrl h hv hb =>
    have h31 : v.getLsbD 31 = false := hv
    rw [h31]
    simp [h, hb]
  | intEn h | ack h => simp [h, lockedOffset]
  | clearWerr h hv =>
    rw [hv]
    simp [h, lockedOffset]
  | ignored hk _ _ hclear =>
    have hne : off ≠ 0x008 := fun h => hk (.inl h)
    have hkeep : ¬ (off = 0x00C ∧ v.getLsbD 3 = true) := fun ⟨h, hv⟩ => by
      rw [hclear h] at hv
      cases hv
    simp only [hk, hkeep, hne]
    simp
  | dropped hb hk hv =>
    simp only [hb, hk, hv]
    simp [h4]
  | wide r j h _ _ hb =>
    have := wideBase_range r
    simp [hb, show off ≠ 0x008 by omega, show off ≠ 0x00C by omega]
  | coord r j h _ hb =>
    have := coordBase_range r
    simp [hb, show off ≠ 0x008 by omega, show off ≠ 0x00C by omega]
  | pflags h hb | pblen h hb => simp [h, hb]
  | pb j h _ hb => simp [hb, show off ≠ 0x008 by omega, show off ≠ 0x00C by omega]

/-- The first half of O32: the step of each event does to WERR what the event says. -/
theorem step_werr_iff {s t : State} (h : step s = .next t) :
    t.werr = true ↔ dropsWriteNext s ∨ (s.werr = true ∧ ¬ clearsWerrNext s ∧ ¬ resetsNext s) := by
  cases step_cases h with
  | idle ht =>
    obtain ⟨-, hr, -, -, hcl, hd⟩ := next_of_engineTurn ht
    simp [hr, hcl, hd]
  | completes i ht =>
    obtain ⟨-, hr, -, -, hcl, hd⟩ := next_of_engineTurn ht
    obtain ⟨-, -, -, hwerr, -⟩ := complete_frame i (popped s)
    simp [hr, hcl, hd, hwerr]
  | illegal r ht =>
    obtain ⟨-, hr, -, -, hcl, hd⟩ := next_of_engineTurn ht
    simp [hr, hcl, hd]
  | read off rest hread =>
    obtain ⟨-, hr, -, -, hcl, hd, -⟩ := next_of_hostReads hread
    simp [hr, hcl, hd]
  | write off v rest _ hwrite ho h4 hw =>
    subst hw
    obtain ⟨-, hr, -, -, hcl, hd, -⟩ := next_of_hostWrites hwrite
    rw [hr, hcl, hd]
    exact writeWindow_werr_iff v (popped s) ho h4
  | hardReset rest hreset =>
    obtain ⟨-, hr, hd, -⟩ := next_of_hardReset hreset
    simp [hr, hd]

/-- No command reads or writes WERR: the completion is the same one with WERR as it was. -/
theorem exec_werr {i : Instr} {s t : State} (w : Bool) (h : exec i s = .next t) :
    exec i { s with werr := w } = .next { t with werr := w } := by
  rw [exec_eq, Host.Outcome.next.injEq] at h
  obtain ⟨-, hschedule, hreply, -, hdoneIe, -⟩ := complete_frame i s
  have hside := complete_side i s w s.doneIe s.doneIp s.schedule s.reply
  rw [exec_eq, hside, ← h]
  simp only [← hschedule, ← hreply, ← hdoneIe]

/-- Settles O32, from the two facts above. -/
theorem werrChanges : Obligations.WerrChanges :=
  ⟨fun _ _ h => step_werr_iff h, fun _ _ _ w h => exec_werr w h⟩

/-! ### MRDY (R34) -/

/-- Only OPC 0x01 is SETMOD (R70). -/
theorem decodeCommand_setmod_iff {opc : BitVec 8} {ms : BitVec 2} :
    decodeCommand opc ms = .ok .setmod ↔ opc = 0x01 := by
  constructor
  · intro h
    unfold decodeCommand at h
    split at h
    case h_2 hopc => exact BitVec.eq_of_toNat_eq hopc
    all_goals cases h
  · rintro rfl
    rfl

/-- A completion sets MRDY when it is a SETMOD of an odd M, and keeps it otherwise (R84). -/
theorem complete_mrdy_iff (i : Instr) (s : State) :
    (complete (outcome i s) s).mrdy = true ↔ (i = .setmod ∧ s.m % 2 = 1) ∨ s.mrdy = true := by
  by_cases hi : i = .setmod
  · subst hi
    simp only [outcome, setmodOutcome]
    split
    · simp [*]
    · split
      · simp [*]
      · simp [show s.m % 2 = 1 by omega]
  · obtain ⟨-, -, -, -, -, -, hframe⟩ := commandWritesFrame i s _ (exec_eq i s)
    simp [hi, (hframe hi).2.1]

/-- A write clears MRDY as a word of M or as a soft reset, and sets it never. -/
theorem writeWindow_mrdy_iff {off : Nat} (v : Word) (s : State) (ho : off < 0x1000) (h4 : off % 4 = 0) :
    (writeWindow off v s).mrdy = true ↔
      s.mrdy = true ∧ ¬ (s.busy = false ∧ ∃ j, j < 128 ∧ j < s.cfg.maxWords ∧ off = 0x800 + 4 * j) ∧
        ¬ (off = 0x008 ∧ v.getLsbD 31 = true) := by
  have outside : off < 0x800 ∨ 0xA00 ≤ off →
      ¬ (s.busy = false ∧ ∃ j, j < 128 ∧ j < s.cfg.maxWords ∧ off = 0x800 + 4 * j) := by
    rintro hout ⟨-, j, hj, -, rfl⟩
    omega
  generalize hw : writeWindow off v s = t
  have hc := writeWindow_cases off v s ho h4
  rw [hw] at hc
  cases hc with
  | softReset h hv =>
    have h31 : v.getLsbD 31 = true := hv
    rw [h31]
    simp [h]
  | ctrl h hv =>
    have h31 : v.getLsbD 31 = false := hv
    rw [h31]
    simp [outside (by omega)]
  | intEn h | ack h | clearWerr h | pflags h | pblen h =>
    simp [outside (by omega), show off ≠ 0x008 by omega]
  | ignored hk =>
    have hne : off ≠ 0x008 := fun h => hk (.inl h)
    have hM : ¬ ∃ j, j < 128 ∧ j < s.cfg.maxWords ∧ off = 0x800 + 4 * j := by
      rintro ⟨j, hj, hjw, rfl⟩
      exact hk (by unfold lockedOffset; omega)
    simp [hne, hM]
  | dropped hb _ hv =>
    simp only [hb, hv]
    simp
  | wide r j h hj hjw hb =>
    have := wideBase_range r
    have hne : off ≠ 0x008 := by omega
    by_cases hr : r = .M
    · subst hr
      have hM : ∃ j, j < 128 ∧ j < s.cfg.maxWords ∧ off = 0x800 + 4 * j := ⟨j, hj, hjw, h⟩
      simp [hb, hM]
    · have hout : off < 0x800 ∨ 0xA00 ≤ off := by
        cases r <;> simp only [wideBase] at h <;> first | omega | exact absurd rfl hr
      simp [hr, hne, outside hout]
  | coord r j h =>
    have := coordBase_range r
    simp [outside (by omega), show off ≠ 0x008 by omega]
  | pb j h => simp [outside (by omega), show off ≠ 0x008 by omega]

/-- Settles O33: a completion does to MRDY what `complete_mrdy_iff` says of the latched command, a write what
`writeWindow_mrdy_iff` says, and no other step but a reset touches it. -/
theorem mrdyChanges : Obligations.MrdyChanges := by
  unfold Obligations.MrdyChanges
  intro s t h
  cases step_cases h with
  | idle ht hb =>
    obtain ⟨-, hr, hm, -⟩ := next_of_engineTurn ht
    simp [hr, hm, completesNext, hb]
  | completes i ht hb hd =>
    obtain ⟨-, hr, hm, -⟩ := next_of_engineTurn ht
    have hi : i = .setmod ↔ s.latchOpc = 0x01 := by
      rw [← decodeCommand_setmod_iff (ms := s.latchModsel), hd, Except.ok.injEq]
    rw [complete_mrdy_iff, hi]
    simp [hr, hm, completesNext, hb, ht]
  | illegal r ht hb hd =>
    obtain ⟨-, hr, hm, -⟩ := next_of_engineTurn ht
    have hopc : s.latchOpc ≠ 1#8 := fun hopc => by
      rw [decodeCommand_setmod_iff.mpr hopc] at hd
      cases hd
    simp [hr, hm, hopc]
  | read off rest hread =>
    obtain ⟨-, hr, hm, -, -, -, hc⟩ := next_of_hostReads hread
    simp [hr, hm, hc]
  | write off v rest _ hwrite ho h4 hw =>
    subst hw
    obtain ⟨-, hr, hm, -, -, -, hc⟩ := next_of_hostWrites hwrite
    rw [hr, hm, writeWindow_mrdy_iff v (popped s) ho h4]
    simp [hc]
  | hardReset rest hreset =>
    obtain ⟨-, hr, -, hc⟩ := next_of_hardReset hreset
    simp [hr, hc]

/-! ### DONE_IP, DONE_IE and IRQ (R36, R40, R145 to R147) -/

/-- A write clears DONE_IP as INT_STAT's bit 0 or as a soft reset, and sets it never; it changes DONE_IE as INT_EN or
as a soft reset. -/
theorem writeWindow_interrupt {off : Nat} (v : Word) (s : State) (ho : off < 0x1000) (h4 : off % 4 = 0) :
    ((writeWindow off v s).doneIp = true ↔
      s.doneIp = true ∧ ¬ (off = 0x014 ∧ v.getLsbD 0 = true) ∧ ¬ (off = 0x008 ∧ v.getLsbD 31 = true)) ∧
    (¬ (off = 0x008 ∧ v.getLsbD 31 = true) → off ≠ 0x010 → (writeWindow off v s).doneIe = s.doneIe) := by
  generalize hw : writeWindow off v s = t
  have hc := writeWindow_cases off v s ho h4
  rw [hw] at hc
  cases hc with
  | softReset h hv =>
    have h31 : v.getLsbD 31 = true := hv
    rw [h31]
    simp [h]
  | ctrl h hv =>
    have h31 : v.getLsbD 31 = false := hv
    rw [h31]
    simp [h]
  | intEn h => simp [h]
  | ack h hv =>
    rw [hv]
    simp [h]
  | clearWerr h | pflags h | pblen h => simp [h]
  | ignored hk _ hack =>
    have hne : off ≠ 0x008 := fun h => hk (.inl h)
    have hkeep : ¬ (off = 0x014 ∧ v.getLsbD 0 = true) := fun ⟨h, hv⟩ => by
      rw [hack h] at hv
      cases hv
    simp only [hne, hkeep]
    simp
  | dropped _ hk hv =>
    have hne : off ≠ 0x014 := by
      unfold lockedOffset at hk
      omega
    simp only [hne, hv]
    simp
  | wide r j h =>
    have := wideBase_range r
    simp [show off ≠ 0x008 by omega, show off ≠ 0x014 by omega]
  | coord r j h =>
    have := coordBase_range r
    simp [show off ≠ 0x008 by omega, show off ≠ 0x014 by omega]
  | pb j h => simp [show off ≠ 0x008 by omega, show off ≠ 0x014 by omega]

/-- The interrupt fields along a step, case by case as `step_cases` lists them. -/
theorem step_interrupt {s t : State} (h : step s = .next t) :
    (t.doneIp = true ↔ completesNext s ∨ (s.doneIp = true ∧ ¬ acknowledgesNext s ∧ ¬ resetsNext s)) ∧
    (¬ resetsNext s → (∀ v rest, ¬ hostWrites s 0x010 v rest) → t.doneIe = s.doneIe) := by
  cases step_cases h with
  | idle ht hb =>
    obtain ⟨-, hr, -, hack, -⟩ := next_of_engineTurn ht
    simp [hr, hack, completesNext, hb]
  | completes i ht hb =>
    obtain ⟨-, -, -, -, hdoneIe, -, -, hdoneIp⟩ := complete_frame i (popped s)
    simp [completesNext, ht, hb, hdoneIe, hdoneIp]
  | illegal r ht hb => simp [completesNext, ht, hb]
  | read off rest hread =>
    obtain ⟨-, hr, -, hack, -, -, hc⟩ := next_of_hostReads hread
    simp [hr, hack, hc]
  | write off v rest _ hwrite ho h4 hw =>
    subst hw
    obtain ⟨-, hr, -, hack, -, -, hc⟩ := next_of_hostWrites hwrite
    obtain ⟨hdoneIp, hdoneIe⟩ := writeWindow_interrupt v (popped s) ho h4
    rw [hr, hack, hdoneIp]
    refine ⟨by simp [hc], fun hnr hno => hdoneIe hnr ?_⟩
    rintro rfl
    exact hno v rest hwrite
  | hardReset rest hreset =>
    obtain ⟨-, hr, -, hc⟩ := next_of_hardReset hreset
    simp [hr, hc]

/-- Settles O34: the fields along a step, and the output as the model defines it from them. -/
theorem interruptChanges : Obligations.InterruptChanges :=
  ⟨fun _ _ h => step_interrupt h, fun _ => rfl, fun _ _ => by simp [irqLine, irq]⟩

end Sys2Proof.Machine
end

section
/-! Bus accesses: which are served, and what a read does (R53, R55, R57, R60). -/

namespace Sys2Proof.Machine

/-- Inside the window only the width and the alignment of an access decide (R53, R58). -/
theorem busOffset_inWindow {c : Config} {addr : Nat} (size : Nat) (hlo : c.mmBase ≤ addr)
    (hhi : addr < c.mmBase + 0x1000) : busOffset c size addr =
      if size = 32 ∧ (addr - c.mmBase) % 4 = 0 then .ok (addr - c.mmBase) else .error (.busError addr) := by
  rw [busOffset, if_pos ⟨hlo, hhi⟩]
  simp only [and_comm]

section access

variable {s : State} {ev : Event} {rest : List Event} {size addr : Nat} (hs : s.schedule = ev :: rest)
  (hev : ev = .read size addr ∨ ∃ v, ev = .write size addr v)
include hs hev

theorem step_access_ok {off : Nat} (h : busOffset s.cfg size addr = .ok off) : ∃ t, step s = .next t := by
  rcases hev with rfl | ⟨v, rfl⟩
  · simp only [step, hs, eventStep, busRead, h]
    exact ⟨_, rfl⟩
  · simp only [step, hs, eventStep, busWrite, h]
    exact ⟨_, rfl⟩

theorem step_access_error {f : Fault} (h : busOffset s.cfg size addr = .error f) : step s = .fault f := by
  rcases hev with rfl | ⟨v, rfl⟩
  · simp only [step, hs, eventStep, busRead, h]
  · simp only [step, hs, eventStep, busWrite, h]

end access

/-- Settles O14: the address check decides the step of an access, a read as a write, and inside the window it is
`busOffset_inWindow`. -/
theorem accessServedIffAligned : Obligations.AccessServedIffAligned := by
  unfold Obligations.AccessServedIffAligned
  intro s ev rest size addr hs hev hlo hhi
  have hoff := busOffset_inWindow size hlo hhi
  by_cases hok : size = 32 ∧ (addr - s.cfg.mmBase) % 4 = 0
  · have hnext := step_access_ok hs hev (hoff.trans (if_pos hok))
    exact ⟨iff_of_true hnext hok, fun hno => absurd hok hno⟩
  · have hfault := step_access_error hs hev (hoff.trans (if_neg hok))
    exact ⟨iff_of_false (by simp [hfault]) hok, fun _ => hfault⟩

/-- Settles O15: `step_read`, with the schedule after it written out; the word does not depend on the schedule. -/
theorem readsChangeNothing : Obligations.ReadsChangeNothing := by
  unfold Obligations.ReadsChangeNothing
  intro s off rest h ho h4
  have hpop : popped s = { s with schedule := rest } := by rw [popped, h, List.tail_cons]
  rw [step_read h ho h4, hpop, readWindow_schedule]

end Sys2Proof.Machine
end

section
/-! The data words of the window: what a read of each returns and what an accepted write of it does (R49 to R51). -/

namespace Sys2Proof.Machine

/-! ### The registers do not depend on the events to come -/

@[simp] theorem getWide_popped (r : WideReg) (s : State) : getWide r (popped s) = getWide r s := by cases r <;> rfl

@[simp] theorem getCoord_popped (r : CoordReg) (s : State) : getCoord r (popped s) = getCoord r s := by
  cases r <;> rfl

theorem popped_of_hostWrites {s : State} {off : Nat} {v : Word} {rest : List Event} (h : hostWrites s off v rest) :
    popped s = { s with schedule := rest } := by
  unfold hostWrites at h
  rw [popped, h, List.tail_cons]

/-! ### Reads -/

section reads

variable (s : State) {j : Nat}

theorem readWindow_wide (r : WideReg) (hj : j < 128) (hw : j < s.cfg.maxWords) :
    readWindow (wideBase r + 4 * j) s = wordOf (getWide r s) j := by
  simp only [readWindow, locate_wide r hj, readReg, if_pos hw]

theorem readWindow_coord (r : CoordReg) (hj : j < 8) :
    readWindow (coordBase r + 4 * j) s = wordOf (getCoord r s).toNat j := by
  simp only [readWindow, locate_coord r hj, readReg]

theorem readWindow_pb (hj : j < 17) : readWindow (0xD00 + 4 * j) s = pbWord s.pb j := by
  simp only [readWindow, locate_pb hj, readReg]

end reads

/-- The words of a wide register past MAXWORDS are reserved (R49, R56). -/
theorem reservedOffset_wide {c : Config} (r : WideReg) {j : Nat} (hj : j < 128) (hw : c.maxWords ≤ j) :
    reservedOffset c (wideBase r + 4 * j) := by
  have := wideBase_range r
  unfold reservedOffset
  omega

/-! ### Accepted writes -/

theorem invalidateModulus_setWide (x : Nat) (s : State) :
    invalidateModulus (setWide .M x s) = { s with m := x, mrdy := false, mconst := none, mlen := 0 } := rfl

/-- An accepted write to M also discards the prepared modulus (R34, R37). -/
theorem writeWide_M (j : Nat) (v : Word) (s : State) :
    writeWide .M j v s = invalidateModulus (setWide .M (setWord (getWide .M s) j v) s) := if_pos rfl

theorem writeWide_of_ne {r : WideReg} (j : Nat) (v : Word) (s : State) (h : r ≠ .M) :
    writeWide r j v s = setWide r (setWord (getWide r s) j v) s := if_neg h

section writes

variable {s : State} (v : Word) (hb : s.busy = false) {j : Nat}
include hb

theorem writeWindow_wide (r : WideReg) (hj : j < 128) (hw : j < s.cfg.maxWords) :
    writeWindow (wideBase r + 4 * j) v s = writeWide r j v s := by
  simp only [writeWindow, locate_wide r hj, writeReg, if_pos hw, unlessBusy_idle _ hb]

theorem writeWindow_coord (r : CoordReg) (hj : j < 8) :
    writeWindow (coordBase r + 4 * j) v s = writeCoord r j v s := by
  simp only [writeWindow, locate_coord r hj, writeReg, unlessBusy_idle _ hb]

theorem writeWindow_pb (hj : j < 17) : writeWindow (0xD00 + 4 * j) v s = writePb j v s := by
  simp only [writeWindow, locate_pb hj, writeReg, unlessBusy_idle _ hb]

end writes

/-! ### The obligations -/

/-- Settles O17: the words below MAXWORDS have the read and the write lemma above, and `setWord_testBit` names the
bits that are written; the words from MAXWORDS up are reserved offsets. -/
theorem wideRegisterWords : Obligations.WideRegisterWords := by
  unfold Obligations.WideRegisterWords
  intro s r b j hrb hj
  have hbase : b = wideBase r := by
    rcases hrb with ⟨rfl, rfl⟩ | ⟨rfl, rfl⟩ | ⟨rfl, rfl⟩ | ⟨rfl, rfl⟩ | ⟨rfl, rfl⟩ <;> rfl
  have hrange := wideBase_range r
  subst hbase
  refine ⟨fun hw => ⟨fun i hi => ?_, fun v rest hb h => ⟨setWord (getWide r s) j v, fun i => ?_, ?_⟩⟩,
    fun hw => ⟨?_, fun v rest h => ?_⟩⟩
  · rw [readWindow_wide s r hj hw, wordOf_getLsbD]
    simp [hi]
  · exact setWord_testBit _ _ _ _
  · rw [step_write h (by omega) (by omega),
      writeWindow_wide (s := popped s) v hb r hj hw]
    by_cases hr : r = .M
    · subst hr
      rw [if_pos rfl, writeWide_M, getWide_popped, invalidateModulus_setWide, popped_of_hostWrites h]
    · rw [if_neg hr, writeWide_of_ne _ _ _ hr, getWide_popped, popped_of_hostWrites h]
  · exact readWindow_reserved (by omega) (reservedOffset_wide r hj hw)
  · rw [step_write h (by omega) (by omega),
      writeWindow_reserved (s := popped s) v (by omega) (reservedOffset_wide r hj hw),
      popped_of_hostWrites h]

/-- Settles O18: the read and the write lemma above, with the bits a write sets from `setWord_testBit`. -/
theorem coordRegisterWords : Obligations.CoordRegisterWords := by
  unfold Obligations.CoordRegisterWords
  intro s r b j hrb hj
  have hbase : b = coordBase r := by
    rcases hrb with ⟨rfl, rfl⟩ | ⟨rfl, rfl⟩ | ⟨rfl, rfl⟩ | ⟨rfl, rfl⟩ | ⟨rfl, rfl⟩ | ⟨rfl, rfl⟩ | ⟨rfl, rfl⟩ <;> rfl
  have hrange := coordBase_range r
  subst hbase
  refine ⟨fun i hi => ?_,
    fun v rest hb h => ⟨BitVec.ofNat 256 (setWord (getCoord r s).toNat j v), fun i hi => ?_, ?_⟩⟩
  · rw [readWindow_coord s r hj, wordOf_getLsbD, BitVec.getLsbD]
    simp [hi]
  · rw [BitVec.getLsbD_ofNat, setWord_testBit, BitVec.testBit_toNat]
    simp [hi]
  · rw [step_write h (by omega) (by omega),
      writeWindow_coord (s := popped s) v hb r hj, writeCoord, getCoord_popped,
      popped_of_hostWrites h]

/-- Settles O19: lane `k` of a word is its byte (`lane_pbWord`), and a write sets the bytes of its word
(`pbByte_setPbWord`). -/
theorem pointBufferWords : Obligations.PointBufferWords := by
  unfold Obligations.PointBufferWords
  intro s j hj
  refine ⟨fun k hk => ?_, fun v rest hb h => ⟨setPbWord s.pb j v, ?_, fun i hi => ?_⟩⟩
  · rw [readWindow_pb s (by omega)]
    refine (lane_pbWord s.pb j k hk).trans ?_
    split
    · rfl
    · exact pbByte_of_ge (by omega)
  · rw [step_write h (by omega) (by omega), writeWindow_pb (s := popped s) v hb (by omega),
      popped_of_hostWrites h]
    rfl
  · rw [pbByte_setPbWord, if_pos (by omega)]
    rfl

end Sys2Proof.Machine
end

section
/-! Writes that a busy block takes, drops or ignores, and reserved bits (R56, R59). -/

namespace Sys2Proof.Machine

/-! ### Writes to read-only registers (R56) -/

theorem writeWindow_readOnly {off : Nat} (v : Word) (s : State) (h : off = 0x000 ∨ off = 0x004 ∨ off = 0x018) :
    writeWindow off v s = s := by
  rcases h with rfl | rfl | rfl <;> simp only [writeWindow, locate_id, locate_cfg, locate_mlen, writeReg]

/-- A CTRL write with SRST = 1 resets the block, busy or not (R155, R157). -/
theorem writeWindow_softReset {v : Word} (s : State) (h : v.getLsbD 31 = true) :
    writeWindow 0x008 v s = resetBlock s := by
  have hsrst : Word.srst v = true := h
  simp only [writeWindow, locate_ctrl, writeReg, if_pos hsrst]

/-- Settles O21: the step is the write's, on the state without the event; the control writes, the locked and the
reserved offsets have their lemmas. -/
theorem writesWhileBusy : Obligations.WritesWhileBusy := by
  unfold Obligations.WritesWhileBusy
  intro s off v rest hb h h4 ho
  rw [step_hostWrites h ho h4]
  refine ⟨?_, ?_, ?_, ?_, fun hk hv => ?_, ?_⟩
  · rintro ⟨rfl, h31⟩
    rw [writeWindow_softReset _ h31]
    rfl
  · rintro rfl
    rw [writeWindow_intEn]
  · rintro rfl
    rw [writeWindow_intStat]
  · rintro rfl
    rw [writeWindow_status]
  · rw [writeWindow_locked (s := { s with schedule := rest }) h4 hk hv hb]
    rfl
  · rintro (hr | hro)
    · rw [writeWindow_reserved (s := { s with schedule := rest }) v h4 hr]
    · rw [writeWindow_readOnly v _ hro]

/-! ### Reserved bits read 0 (R56) -/

/-- A field of a word has no bit of a mask that is 0 where the field lies. -/
theorem placeAt_and_eq_zero {w lo : Nat} {x : BitVec w} {mask : Word}
    (h : ∀ i < 32, lo ≤ i ∧ i < lo + w → mask.getLsbD i = false) : placeAt lo x &&& mask = 0 := by
  apply BitVec.eq_of_getLsbD_eq
  intro i hi
  rw [BitVec.getLsbD_and, placeAt_getLsbD]
  by_cases hfield : lo ≤ i ∧ i < lo + w
  · simp [h i hi hfield]
  · by_cases hlo : lo ≤ i
    · simp [BitVec.getLsbD_of_ge x (i - lo) (by omega)]
    · simp [hlo]

/-- Word 16 of the point buffer is its byte 64 (R51). -/
theorem pbWord_last (pb : Vector Byte 65) : pbWord pb 16 = placeAt 0 (pbByte pb 64) := by
  simp [pbWord, pbByte_of_ge, placeAt]

/-- The reserved bits of each register read 0: the fields of its word lie elsewhere. -/
theorem readWindow_reservedBits (off : Nat) (s : State) : readWindow off s &&& reservedBits off = 0 := by
  unfold reservedBits
  split_ifs with hcfg hctrl hstatus hintEn hintStat hmlen hpflags hpblen hpb
  · simp (disch := decide) only [hcfg, readWindow, locate_cfg, readReg, cfgWord, placeAt_and_eq_zero]
  · simp (disch := decide) only [hctrl, readWindow, locate_ctrl, readReg, ctrlWord, BitVec.and_or_distrib_right,
      placeAt_and_eq_zero, BitVec.or_self]
  · simp (disch := decide) only [hstatus, readWindow, locate_status, readReg, statusWord,
      BitVec.and_or_distrib_right, placeAt_and_eq_zero, BitVec.or_self]
  · simp (disch := decide) only [hintEn, readWindow, locate_intEn, readReg, intEnWord, placeAt_and_eq_zero]
  · simp (disch := decide) only [hintStat, readWindow, locate_intStat, readReg, intStatWord, placeAt_and_eq_zero]
  · simp (disch := decide) only [hmlen, readWindow, locate_mlen, readReg, mlenWord, placeAt_and_eq_zero]
  · simp (disch := decide) only [hpflags, readWindow, locate_pflags, readReg, pflagsWord,
      BitVec.and_or_distrib_right, placeAt_and_eq_zero, BitVec.or_self]
  · simp (disch := decide) only [hpblen, readWindow, locate_pblen, readReg, pblenWord, placeAt_and_eq_zero]
  · have hlast : readWindow 0xD40 s = pbWord s.pb 16 := readWindow_pb s (j := 16) (by decide)
    simp (disch := decide) only [hpb, hlast, pbWord_last, placeAt_and_eq_zero]
  · exact BitVec.and_zero

/-! ### Reserved bits ignore writes (R56) -/

section agree

variable {v w mask : Word} (h : v &&& ~~~mask = w &&& ~~~mask)
include h

/-- Words that agree outside a mask agree at each bit outside it. -/
theorem getLsbD_eq_of_agree {i : Nat} (hi : i < 32) (hm : mask.getLsbD i = false) : v.getLsbD i = w.getLsbD i := by
  simpa only [BitVec.getLsbD_and, BitVec.getLsbD_not, hi, hm, decide_true, Bool.true_and, Bool.not_false, Bool.and_true]
    using congrArg (fun x => x.getLsbD i) h

/-- Words that agree outside a mask agree in each field outside it. -/
theorem extractLsb'_eq_of_agree {lo n : Nat} (hn : lo + n ≤ 32) (hm : ∀ i < n, mask.getLsbD (lo + i) = false) :
    v.extractLsb' lo n = w.extractLsb' lo n := by
  apply BitVec.eq_of_getLsbD_eq
  intro i hi
  simp only [BitVec.getLsbD_extractLsb', getLsbD_eq_of_agree h (show lo + i < 32 by omega) (hm i hi)]

end agree

theorem writeCtrl_eq_of_fields {v w : Word} (hstart : Word.start v = Word.start w) (hopc : Word.opc v = Word.opc w)
    (hmodsel : Word.modsel v = Word.modsel w) : writeCtrl v = writeCtrl w := by
  funext s
  simp only [writeCtrl, storeCtrl, hstart, hopc, hmodsel]

/-- Word 16 of the point buffer takes byte lane 0 only (R51). -/
theorem setPbWord_last_eq_of_lane {v w : Word} (pb : Vector Byte 65) (h : lane v 0 = lane w 0) :
    setPbWord pb 16 v = setPbWord pb 16 w := by
  apply Vector.ext
  intro i hi
  rw [setPbWord_getElem, setPbWord_getElem]
  by_cases hword : i / 4 = 16
  · rw [if_pos hword, if_pos hword, show i % 4 = 0 by omega, h]
  · rw [if_neg hword, if_neg hword]

/-- A write does not look at the reserved bits of its word: each register takes fields that lie elsewhere. -/
theorem writeWindow_eq_of_agree {off : Nat} {v w : Word} (s : State)
    (h : v &&& ~~~reservedBits off = w &&& ~~~reservedBits off) : writeWindow off v s = writeWindow off w s := by
  unfold reservedBits at h
  split_ifs at h with hcfg hctrl hstatus hintEn hintStat hmlen hpflags hpblen hpb
  · rw [writeWindow_readOnly v s (.inr (.inl hcfg)), writeWindow_readOnly w s (.inr (.inl hcfg))]
  · have hsrst : Word.srst v = Word.srst w := getLsbD_eq_of_agree h (by decide) (by decide)
    have hfields : writeCtrl v = writeCtrl w := writeCtrl_eq_of_fields (getLsbD_eq_of_agree h (by decide) (by decide))
      (extractLsb'_eq_of_agree h (by decide) (by decide)) (extractLsb'_eq_of_agree h (by decide) (by decide))
    simp only [hctrl, writeWindow, locate_ctrl, writeReg, hsrst, hfields]
  · rw [hstatus, writeWindow_status, writeWindow_status, getLsbD_eq_of_agree h (by decide) (by decide)]
  · rw [hintEn, writeWindow_intEn, writeWindow_intEn, getLsbD_eq_of_agree h (by decide) (by decide)]
  · rw [hintStat, writeWindow_intStat, writeWindow_intStat, getLsbD_eq_of_agree h (by decide) (by decide)]
  · rw [writeWindow_readOnly v s (.inr (.inr hmlen)), writeWindow_readOnly w s (.inr (.inr hmlen))]
  · have hflags : writePflags v = writePflags w := by
      funext s
      simp only [writePflags, getLsbD_eq_of_agree h (show 0 < 32 by decide) (by decide),
        getLsbD_eq_of_agree h (show 1 < 32 by decide) (by decide),
        getLsbD_eq_of_agree h (show 2 < 32 by decide) (by decide)]
    simp only [hpflags, writeWindow, locate_pflags, writeReg, hflags]
  · have hlen : writePblen v = writePblen w := by
      funext s
      rw [writePblen, extractLsb'_eq_of_agree h (by decide) (by decide), writePblen]
    simp only [hpblen, writeWindow, locate_pblen, writeReg, hlen]
  · have hlocate : locate 0xD40 = some (.PB, 16) := locate_pb (show 16 < 17 by decide)
    have hbyte : writePb 16 v = writePb 16 w := by
      funext s
      rw [writePb, setPbWord_last_eq_of_lane s.pb (extractLsb'_eq_of_agree h (by decide) (by decide)), writePb]
    simp only [hpb, writeWindow, hlocate, writeReg, hbyte]
  · have hvw : v = w := BitVec.eq_of_getLsbD_eq fun i hi => getLsbD_eq_of_agree h hi BitVec.getLsbD_zero
    rw [hvw]

/-- Settles O23: reserved offsets and bits have their read and write lemmas above; the other ignored writes are those
to read-only registers and a STATUS write whose bit 3 is 0. -/
theorem reservedReadZeroWriteIgnored : Obligations.ReservedReadZeroWriteIgnored := by
  unfold Obligations.ReservedReadZeroWriteIgnored
  intro s off h4 ho
  refine ⟨readWindow_reserved h4, fun _ => readWindow_reservedBits off s, fun v rest h hoff => ?_, fun v w h => ?_⟩
  · have hignored : writeWindow off v (popped s) = popped s := by
      rcases hoff with hr | hid | hcfg | hmlen | ⟨rfl, h3⟩
      · exact writeWindow_reserved (s := popped s) v h4 hr
      · exact writeWindow_readOnly v _ (.inl hid)
      · exact writeWindow_readOnly v _ (.inr (.inl hcfg))
      · exact writeWindow_readOnly v _ (.inr (.inr hmlen))
      · rw [writeWindow_status, h3, Bool.not_false, Bool.and_true]
    rw [step_write h ho h4, hignored, popped_of_hostWrites h]
  · rw [busWrite_at v ho h4, busWrite_at w ho h4, writeWindow_eq_of_agree s h]

end Sys2Proof.Machine
end

section
/-! A data word reads back as written, and no other word changes (R49 to R51, R55, R63). -/

namespace Sys2Proof.Machine

/-! ### The point buffer, word by word (R51) -/

/-- A bus word is its four byte lanes. -/
theorem eq_of_lanes {v w : Word} (h : ∀ k < 4, lane v k = lane w k) : v = w := by
  apply BitVec.eq_of_getLsbD_eq
  intro i hi
  have hbit := congrArg (fun x => x.getLsbD (i % 8)) (h (i / 8) (by omega))
  simpa only [lane, BitVec.getLsbD_extractLsb', Nat.mod_lt i (by decide : 8 > 0), decide_true, Bool.true_and,
    Nat.div_add_mod] using hbit

/-- The written word reads back; word 16 keeps only its byte. -/
theorem pbWord_setPbWord (pb : Vector Byte 65) {j : Nat} (v : Word) (hj : j < 17) :
    pbWord (setPbWord pb j v) j = if j = 16 then v &&& 0xFF else v := by
  refine eq_of_lanes fun k hk => ?_
  rw [lane_pbWord _ _ _ hk, pbByte_setPbWord, show (4 * j + k) / 4 = j by omega, show (4 * j + k) % 4 = k by omega,
    if_pos rfl]
  by_cases hlast : j = 16
  · have hmask : ∀ k < 4, lane 0xFF k = if k = 0 then BitVec.allOnes 8 else 0#8 := by decide
    rw [if_pos hlast]
    have hand : lane (v &&& 0xFF) k = lane v k &&& lane 0xFF k := BitVec.extractLsb'_and
    rw [hand, hmask k hk]
    by_cases hk0 : k = 0
    · rw [if_pos hk0, if_pos (by omega), BitVec.and_allOnes]
    · rw [if_neg hk0, if_neg (by omega)]
      exact BitVec.and_zero.symm
  · rw [if_neg hlast, if_pos (by omega)]

theorem pbByte_setPbWord_ne (pb : Vector Byte 65) {i j : Nat} (v : Word) (h : i / 4 ≠ j) :
    pbByte (setPbWord pb j v) i = pbByte pb i := by
  rw [pbByte_setPbWord, if_neg h]
  split
  · rfl
  · exact (pbByte_of_ge (by omega)).symm

theorem pbWord_setPbWord_ne (pb : Vector Byte 65) {i j : Nat} (v : Word) (h : i ≠ j) :
    pbWord (setPbWord pb j v) i = pbWord pb i := by
  refine eq_of_lanes fun k hk => ?_
  rw [lane_pbWord _ _ _ hk, lane_pbWord _ _ _ hk, pbByte_setPbWord_ne pb v (by omega)]

/-! ### Reads of the written word -/

section same

variable (j : Nat) (v : Word) (s : State)

@[simp] theorem getWide_invalidateModulus (q : WideReg) : getWide q (invalidateModulus s) = getWide q s := by
  cases q <;> rfl

theorem getWide_writeWide (r q : WideReg) :
    getWide q (writeWide r j v s) = getWide q (setWide r (setWord (getWide r s) j v) s) := by
  by_cases hr : r = .M
  · subst hr
    rw [writeWide_M, getWide_invalidateModulus]
  · rw [writeWide_of_ne _ _ _ hr]

@[simp] theorem writeWide_cfg (r : WideReg) : (writeWide r j v s).cfg = s.cfg := by
  unfold writeWide
  split <;> simp

/-- A word written to a 256-bit register leaves it a number of 256 bits. -/
theorem getCoord_writeCoord_toNat (r : CoordReg) (hj : j < 8) :
    (getCoord r (writeCoord r j v s)).toNat = setWord (getCoord r s).toNat j v := by
  have hlt : setWord (getCoord r s).toNat j v < 2 ^ (32 * 8) := setWord_lt v (getCoord r s).isLt hj
  rw [writeCoord, getCoord_setCoord, BitVec.toNat_ofNat, Nat.mod_eq_of_lt hlt]

end same

/-! ### Reads of every other word -/

/-- MRDY and MLEN show in STATUS and MLEN only. -/
theorem readReg_invalidateModulus {name : RegName} (i : Nat) (s : State) (hstatus : name ≠ .STATUS)
    (hmlen : name ≠ .MLEN) : readReg name i (invalidateModulus s) = readReg name i s := by
  cases name
  case STATUS => exact absurd rfl hstatus
  case MLEN => exact absurd rfl hmlen
  case wide q => cases q <;> rfl
  case coord q => cases q <;> rfl
  all_goals rfl

section other

variable {name : RegName} {i j : Nat} (v : Word) (s : State)

theorem readReg_setWide_setWord (r : WideReg) (hne : ¬ (name = .wide r ∧ i = j)) :
    readReg name i (setWide r (setWord (getWide r s) j v) s) = readReg name i s := by
  cases name
  case wide q =>
    simp only [readReg, setWide_cfg]
    by_cases hq : q = r
    · subst hq
      rw [getWide_setWide, wordOf_setWord_ne v fun hij => hne ⟨rfl, hij⟩]
    · rw [getWide_setWide_ne s _ hq]
  all_goals simp [readReg, cfgWord, ctrlWord, statusWord, intEnWord, intStatWord, mlenWord, pflagsWord, pblenWord]

theorem readReg_writeWide (r : WideReg) (hne : ¬ (name = .wide r ∧ i = j))
    (hM : r = .M → name ≠ .STATUS ∧ name ≠ .MLEN) : readReg name i (writeWide r j v s) = readReg name i s := by
  by_cases hr : r = .M
  · obtain ⟨hstatus, hmlen⟩ := hM hr
    subst hr
    rw [writeWide_M, readReg_invalidateModulus _ _ hstatus hmlen, readReg_setWide_setWord v s .M hne]
  · rw [writeWide_of_ne _ _ _ hr, readReg_setWide_setWord v s r hne]

theorem readReg_writeCoord (r : CoordReg) (hj : j < 8) (hne : ¬ (name = .coord r ∧ i = j)) :
    readReg name i (writeCoord r j v s) = readReg name i s := by
  cases name
  case coord q =>
    simp only [readReg]
    by_cases hq : q = r
    · subst hq
      rw [getCoord_writeCoord_toNat _ _ _ _ hj, wordOf_setWord_ne v fun hij => hne ⟨rfl, hij⟩]
    · rw [writeCoord, getCoord_setCoord_ne s _ hq]
  all_goals
    simp [writeCoord, readReg, cfgWord, ctrlWord, statusWord, intEnWord, intStatWord, mlenWord, pflagsWord, pblenWord]

theorem readReg_writePb (hne : ¬ (name = .PB ∧ i = j)) : readReg name i (writePb j v s) = readReg name i s := by
  cases name
  case PB => exact pbWord_setPbWord_ne s.pb v fun hij => hne ⟨rfl, hij⟩
  case wide q => cases q <;> rfl
  case coord q => cases q <;> rfl
  all_goals rfl

end other

/-- An offset reads alike in two states when each word it can name does. -/
theorem readWindow_eq_of_words {off : Nat} {s t : State} (ho : off < 0x1000) (h4 : off % 4 = 0)
    (h : ∀ name i, off = offsetOf name i → readReg name i t = readReg name i s) :
    readWindow off t = readWindow off s := by
  unfold readWindow
  cases hl : locate off with
  | none => rfl
  | some word =>
    obtain ⟨name, i⟩ := word
    exact h name i (locate_aligned ho h4 hl).1

/-! ### The data words -/

/-- The locked offsets from 0x200 up are the words of the data registers (R48, R59). -/
theorem dataOffset_cases {c : Config} {off : Nat} (h4 : off % 4 = 0) (hdata : 0x200 ≤ off)
    (hk : lockedOffset c off) :
    (∃ r j, j < 128 ∧ j < c.maxWords ∧ off = wideBase r + 4 * j) ∨ (∃ r j, j < 8 ∧ off = coordBase r + 4 * j) ∨
      ∃ j, j < 17 ∧ off = 0xD00 + 4 * j := by
  unfold lockedOffset at hk
  have ho : off < 0x1000 := by omega
  cases hl : locate off with
  | none =>
    have := locate_none ho h4 hl
    omega
  | some word =>
    obtain ⟨name, j⟩ := word
    obtain ⟨hoff, hj⟩ := locate_aligned ho h4 hl
    cases name <;> simp only [offsetOf, wordCount] at hoff hj
    case wide r =>
      have := wideBase_range r
      exact .inl ⟨r, j, hj, by omega, hoff⟩
    case coord r => exact .inr (.inl ⟨r, j, hj, hoff⟩)
    case PB => exact .inr (.inr ⟨j, hj, hoff⟩)
    all_goals omega

section data

variable {off : Nat} {s : State} (v : Word) (hb : s.busy = false) (h4 : off % 4 = 0) (hdata : 0x200 ≤ off)
  (hk : lockedOffset s.cfg off)
include hb h4 hdata hk

theorem readWindow_writeWindow_data :
    readWindow off (writeWindow off v s) = if off = 0xD40 then v &&& 0xFF else v := by
  rcases dataOffset_cases h4 hdata hk with ⟨r, j, hj, hw, rfl⟩ | ⟨r, j, hj, rfl⟩ | ⟨j, hj, rfl⟩
  · have hrange := wideBase_range r
    rw [writeWindow_wide v hb r hj hw, readWindow_wide _ r hj (by rwa [writeWide_cfg]), getWide_writeWide,
      getWide_setWide, wordOf_setWord, if_neg (by omega)]
  · have hrange := coordBase_range r
    rw [writeWindow_coord v hb r hj, readWindow_coord _ r hj, getCoord_writeCoord_toNat _ _ _ _ hj, wordOf_setWord,
      if_neg (by omega)]
  · rw [writeWindow_pb v hb hj, readWindow_pb _ hj, writePb_pb, pbWord_setPbWord _ _ hj]
    simp only [show 0xD00 + 4 * j = 0xD40 ↔ j = 16 by omega]

theorem readWindow_writeWindow_data_ne {other : Nat} (h4' : other % 4 = 0) (ho' : other < 0x1000) (hne : other ≠ off)
    (hM : 0x800 ≤ off ∧ off < 0xA00 → other ≠ 0x00C ∧ other ≠ 0x018) :
    readWindow other (writeWindow off v s) = readWindow other s := by
  refine readWindow_eq_of_words ho' h4' fun name i hother => ?_
  rcases dataOffset_cases h4 hdata hk with ⟨r, j, hj, hw, rfl⟩ | ⟨r, j, hj, rfl⟩ | ⟨j, hj, rfl⟩
  · rw [writeWindow_wide v hb r hj hw]
    refine readReg_writeWide v s r ?_ ?_
    · rintro ⟨rfl, rfl⟩
      exact hne hother
    · rintro rfl
      obtain ⟨hstatus, hmlen⟩ := hM (by simp only [wideBase]; omega)
      refine ⟨?_, ?_⟩
      · rintro rfl
        exact hstatus hother
      · rintro rfl
        exact hmlen hother
  · rw [writeWindow_coord v hb r hj]
    refine readReg_writeCoord v s r hj ?_
    rintro ⟨rfl, rfl⟩
    exact hne hother
  · rw [writeWindow_pb v hb hj]
    refine readReg_writePb v s ?_
    rintro ⟨rfl, rfl⟩
    exact hne hother

end data

/-- Settles O20: the step is the write's, and the two lemmas above say what each word reads after it. -/
theorem readAfterWrite : Obligations.ReadAfterWrite := by
  unfold Obligations.ReadAfterWrite
  intro s off v rest hb h h4 hdata hk
  have ho : off < 0x1000 := by
    unfold lockedOffset at hk
    omega
  refine ⟨writeWindow off v (popped s), step_write h ho h4,
    readWindow_writeWindow_data (s := popped s) v hb h4 hdata hk, fun other h4' ho' hne hM => ?_⟩
  rw [readWindow_writeWindow_data_ne (s := popped s) v hb h4 hdata hk h4' ho' hne hM, popped, readWindow_schedule]

end Sys2Proof.Machine
end

section
/-! Host accesses made while a command is in flight (R54, R59, R73). -/

namespace Sys2Proof.Machine

/-! ### What a harmless event leaves of the command in flight -/

/-- `s` with other values in the fields a command in flight neither reads nor keeps: WERR, DONE_IE, DONE_IP and the
host side. -/
def withSide (s : State) (w ie ip : Bool) (events : List Event) (lastReply : Option Word) : State :=
  { s with werr := w, doneIe := ie, doneIp := ip, schedule := events, reply := lastReply }

/-- A busy block's write, other than a soft reset, leaves its operands and its latch as they are (R59). -/
theorem writeWindow_busy {off : Nat} {v : Word} {s : State} (hb : s.busy = true) (ho : off < 0x1000)
    (h4 : off % 4 = 0) (hv : ¬ (off = 0x008 ∧ v.getLsbD 31 = true)) :
    ∃ w ie ip, writeWindow off v s = withSide s w ie ip s.schedule s.reply := by
  generalize hw : writeWindow off v s = t
  have hc := writeWindow_cases off v s ho h4
  rw [hw] at hc
  cases hc with
  | softReset h h31 => exact absurd ⟨h, h31⟩ hv
  | intEn => exact ⟨s.werr, v.getLsbD 0, s.doneIp, rfl⟩
  | ack => exact ⟨s.werr, s.doneIe, false, rfl⟩
  | clearWerr => exact ⟨false, s.doneIe, s.doneIp, rfl⟩
  | ignored => exact ⟨s.werr, s.doneIe, s.doneIp, rfl⟩
  | dropped => exact ⟨true, s.doneIe, s.doneIp, rfl⟩
  | ctrl _ _ hidle | wide _ _ _ _ _ hidle | coord _ _ _ _ hidle | pflags _ hidle | pblen _ hidle | pb _ _ _ hidle =>
    rw [hb] at hidle
    cases hidle

/-- A harmless event leaves the command in flight as it is (R59, R60). -/
theorem step_harmless {s : State} {ev : Event} {rest : List Event} (hb : s.busy = true) (hs : s.schedule = ev :: rest)
    (hev : harmless s.cfg ev) : ∃ w ie ip lastReply, step s = .next (withSide s w ie ip rest lastReply) := by
  cases ev with
  | read size addr =>
    have hserved : served s.cfg size addr := hev
    refine ⟨s.werr, s.doneIe, s.doneIp, some (readWindow (addr - s.cfg.mmBase) { s with schedule := rest }), ?_⟩
    simp only [step, hs, eventStep]
    exact busRead_served (s := { s with schedule := rest }) hserved
  | write size addr v =>
    obtain ⟨hserved, hreset⟩ := hev
    obtain ⟨-, haddr, ho, h4⟩ := served_offset hserved
    have hv : ¬ (addr - s.cfg.mmBase = 0x008 ∧ v.getLsbD 31 = true) := fun ⟨h, h31⟩ => hreset ⟨by omega, h31⟩
    obtain ⟨w, ie, ip, hw⟩ := writeWindow_busy (s := { s with schedule := rest }) hb ho h4 hv
    refine ⟨w, ie, ip, s.reply, ?_⟩
    simp only [step, hs, eventStep]
    exact (busWrite_served (s := { s with schedule := rest }) v hserved).trans (congrArg _ hw)
  | engine => exact hev.elim
  | hardReset => exact hev.elim

/-! ### The completion after harmless events -/

/-- Whatever harmless events come first, the completion writes what it would have written at once. -/
theorem run_harmless {i : Instr} {rest : List Event} (evs : List Event) : ∀ s : State, s.busy = true →
    decodeCommand s.latchOpc s.latchModsel = .ok i → (∀ ev ∈ evs, harmless s.cfg ev) →
    s.schedule = evs ++ .engine :: rest → ∃ w ie lastReply, run (evs.length + 1) s =
      .next { complete (outcome i s) s with werr := w, doneIe := ie, schedule := rest, reply := lastReply } := by
  induction evs with
  | nil =>
    intro s hb hd _ hs
    refine ⟨s.werr, s.doneIe, s.reply, ?_⟩
    have hstep := step_completes (.inr ⟨rest, hs⟩) hb hd
    rw [popped, hs] at hstep
    simp only [run, List.length_nil, hstep, exec_eq]
    exact congrArg _ (complete_side i s s.werr s.doneIe s.doneIp rest s.reply)
  | cons ev evs ih =>
    intro s hb hd hev hs
    obtain ⟨w, ie, ip, lastReply, hstep⟩ := step_harmless hb hs (hev ev (by simp))
    obtain ⟨w', ie', lastReply', hrun⟩ := ih (withSide s w ie ip (evs ++ .engine :: rest) lastReply) hb hd
      (fun e he => hev e (by simp [he])) rfl
    refine ⟨w', ie', lastReply', ?_⟩
    rw [List.length_cons, run, hstep]
    refine hrun.trans ?_
    rw [withSide, complete_side]

/-- Settles O35: `run_harmless` for the run, and `complete_side` for the completion at once. -/
theorem interleavingDoesNotMatter : Obligations.InterleavingDoesNotMatter := by
  unfold Obligations.InterleavingDoesNotMatter
  intro s i evs rest hb hd hev hs
  obtain ⟨w, ie, lastReply, hrun⟩ := run_harmless evs s hb hd hev hs
  refine ⟨_, _, exec_eq i _, hrun, ?_⟩
  have hside := complete_side i s s.werr s.doneIe s.doneIp rest s.reply
  rw [hside]

end Sys2Proof.Machine
end

section
/-! Command words: the fields of a word, the words of a command, and encoding (R68, R70, R71, R74, R75). -/

namespace Sys2Proof.Machine

/-! ### OPC and MODSEL choose the command (R70, R71, R74) -/

theorem modsel_bits_ofBits (b : BitVec 2) : (ModSel.ofBits b).bits = b := by
  revert b
  decide

/-- The latched fields of a command decode to it (R70, R71). -/
theorem decodeCommand_fields (i : Instr) : decodeCommand i.opc i.modselField = .ok i := by
  cases i with
  | nop | setmod | ecadd | ecmul | ecmulLadder | compress | decompress => rfl
  | montmul ms | tomont ms | frommont ms | modmul ms | modadd ms | modsub ms | modred ms | modexp ms | modinv ms =>
    cases ms <;> rfl

/-- A command that ignores MODSEL decodes alike at every MODSEL (R71). -/
theorem decodeCommand_ignores_modsel {i : Instr} (ms : BitVec 2) (h : i.modsel? = none) :
    decodeCommand i.opc ms = .ok i := by
  cases i with
  | nop | setmod | ecadd | ecmul | ecmulLadder | compress | decompress => rfl
  | montmul | tomont | frommont | modmul | modadd | modsub | modred | modexp | modinv => cases h

/-- A command is decoded from its own OPC only, and from its own MODSEL where it uses the field. -/
theorem fields_of_decodeCommand {opc : BitVec 8} {ms : BitVec 2} {i : Instr} (h : decodeCommand opc ms = .ok i) :
    opc = i.opc ∧ (i.modsel?.isSome → ms = i.modselField) := by
  unfold decodeCommand at h
  split at h <;> cases h
  all_goals exact ⟨BitVec.eq_of_toNat_eq ‹_›, by simp [Instr.modsel?, Instr.modselField, modsel_bits_ofBits]⟩

theorem decodeCommand_ok_iff {opc : BitVec 8} {ms : BitVec 2} {i : Instr} :
    decodeCommand opc ms = .ok i ↔ opc = i.opc ∧ (i.modsel?.isSome → ms = i.modselField) := by
  refine ⟨fields_of_decodeCommand, ?_⟩
  rintro ⟨rfl, hms⟩
  cases hi : i.modsel? with
  | none => exact decodeCommand_ignores_modsel ms hi
  | some _ =>
    rw [hms (by rw [hi]; rfl)]
    exact decodeCommand_fields i

/-- Decoding fails exactly at the opcodes R74 lists, and says which it met. -/
theorem decodeCommand_error_iff {opc : BitVec 8} {ms : BitVec 2} {r : DecodeReject} :
    decodeCommand opc ms = .error r ↔ illegalOpc opc ∧ r = .illegalOpcode opc := by
  unfold decodeCommand illegalOpc
  split
  case h_17 =>
    rw [Except.error.injEq, eq_comm, iff_and_self]
    intro _
    simp only [imp_false] at *
    omega
  all_goals
    simp only [reduceCtorEq, false_iff]
    omega

/-! ### The fields of a word (R68) -/

/-- The word with the given fields, its reserved bits 0 (R68). -/
def commandWord (srst : Bool) (ms : BitVec 2) (opc : BitVec 8) (start : Bool) : Word :=
  placeAt 31 (BitVec.ofBool srst) ||| placeAt 16 ms ||| placeAt 8 opc ||| placeAt 0 (BitVec.ofBool start)

theorem encode_eq_commandWord (i : Instr) : encode i = commandWord false i.modselField i.opc true := by
  simp [encode, commandWord, placeAt]

section fields

variable (srst start : Bool) (ms : BitVec 2) (opc : BitVec 8)

theorem commandWord_getLsbD (b : Nat) : (commandWord srst ms opc start).getLsbD b =
    if b = 0 then start else if 8 ≤ b ∧ b < 16 then opc.getLsbD (b - 8)
    else if 16 ≤ b ∧ b < 18 then ms.getLsbD (b - 16) else if b = 31 then srst else false := by
  simp (disch := decide) only [commandWord, BitVec.getLsbD_or, placeAt_ofBool_getLsbD]
  simp (disch := decide) only [placeAt_getLsbD_field]
  by_cases hopc : 8 ≤ b ∧ b < 16
  · simp [hopc, show b ≠ 0 by omega, show b ≠ 31 by omega, show ¬ 16 ≤ b by omega]
  by_cases hms : 16 ≤ b ∧ b < 18
  · simp [hms, show b ≠ 0 by omega, show b ≠ 31 by omega, show ¬ b < 16 by omega]
  · by_cases h0 : b = 0 <;> simp [h0, hopc, hms]

@[simp] theorem srst_commandWord : Word.srst (commandWord srst ms opc start) = srst :=
  commandWord_getLsbD srst start ms opc 31

@[simp] theorem start_commandWord : Word.start (commandWord srst ms opc start) = start :=
  commandWord_getLsbD srst start ms opc 0

@[simp] theorem opc_commandWord : Word.opc (commandWord srst ms opc start) = opc := by
  apply BitVec.eq_of_getLsbD_eq
  intro b hb
  rw [Word.opc, BitVec.getLsbD_extractLsb', commandWord_getLsbD, if_neg (by omega), if_pos (by omega)]
  simp [hb]

@[simp] theorem modsel_commandWord : Word.modsel (commandWord srst ms opc start) = ms := by
  apply BitVec.eq_of_getLsbD_eq
  intro b hb
  rw [Word.modsel, BitVec.getLsbD_extractLsb', commandWord_getLsbD, if_neg (by omega), if_neg (by omega),
    if_pos (by omega)]
  simp [hb]

end fields

theorem commandWord_inj {srst srst' start start' : Bool} {ms ms' : BitVec 2} {opc opc' : BitVec 8} :
    commandWord srst ms opc start = commandWord srst' ms' opc' start' ↔
      srst = srst' ∧ start = start' ∧ opc = opc' ∧ ms = ms' := by
  constructor
  · intro h
    exact ⟨by simpa using congrArg Word.srst h, by simpa using congrArg Word.start h,
      by simpa using congrArg Word.opc h, by simpa using congrArg Word.modsel h⟩
  · rintro ⟨rfl, rfl, rfl, rfl⟩
    rfl

/-- Clearing the reserved bits, and MODSEL where it is ignored, leaves the word of the other fields (R71, R75). -/
theorem and_mask_eq_commandWord (v : Word) (used : Bool) :
    v &&& (if used then 0x8003FF01#32 else 0x8000FF01#32) =
      commandWord (Word.srst v) (if used then Word.modsel v else 0) (Word.opc v) (Word.start v) := by
  have hmask : ∀ b < 32, (if used then 0x8003FF01#32 else 0x8000FF01#32).getLsbD b =
      decide (b = 0 ∨ (8 ≤ b ∧ b < 16) ∨ (used ∧ 16 ≤ b ∧ b < 18) ∨ b = 31) := by
    cases used <;> decide
  apply BitVec.eq_of_getLsbD_eq
  intro b hb
  rw [BitVec.getLsbD_and, hmask b hb, commandWord_getLsbD]
  by_cases hopc : 8 ≤ b ∧ b < 16
  · simp [hopc, Word.opc, show b ≠ 0 by omega, show b - 8 < 8 by omega, show 8 + (b - 8) = b by omega]
  by_cases hms : 16 ≤ b ∧ b < 18
  · cases used <;> simp [hms, Word.modsel, show b ≠ 0 by omega, show b ≠ 31 by omega, show ¬ b < 16 by omega,
      show b - 16 < 2 by omega, show 16 + (b - 16) = b by omega]
  by_cases h0 : b = 0
  · simp [h0, Word.start]
  · by_cases h31 : b = 31 <;> simp [h0, hopc, hms, h31, Word.srst]

/-! ### The words of a command -/

theorem decode_ok_iff_fields {v : Word} {i : Instr} : decode v = .ok i ↔
    Word.srst v = false ∧ Word.start v = true ∧ decodeCommand (Word.opc v) (Word.modsel v) = .ok i := by
  unfold decode
  cases Word.srst v <;> cases Word.start v <;> simp

theorem modselField_of_none {i : Instr} (h : i.modsel? = none) : i.modselField = 0 := by
  rw [Instr.modselField, h]

/-- Settles O2: the masked word and the encoding are both a `commandWord`, and their four fields are those that
`decode` looks at. -/
theorem wordsOfACommand : Obligations.WordsOfACommand := by
  unfold Obligations.WordsOfACommand
  intro v i
  have hencode : (i.modselField.setWidth 32 <<< 16) ||| (i.opc.setWidth 32 <<< 8) ||| 1#32 =
      commandWord false i.modselField i.opc true := encode_eq_commandWord i
  rw [hencode, and_mask_eq_commandWord, commandWord_inj, decode_ok_iff_fields, decodeCommand_ok_iff]
  cases hi : i.modsel? with
  | none => simp [modselField_of_none hi]
  | some => simp

/-! ### Encoding (R68, R79) -/

@[simp] theorem decode_encode (i : Instr) : decode (encode i) = .ok i := by
  rw [encode_eq_commandWord, decode_ok_iff_fields]
  simp [decodeCommand_fields]

/-- Settles O3: `decode_encode`, which also makes the encoding injective. -/
theorem encodeThenDecode : Obligations.EncodeThenDecode := by
  unfold Obligations.EncodeThenDecode
  intro i
  obtain ⟨-, -, hlatch⟩ := decode_ok_iff_fields.mp (decode_encode i)
  refine ⟨decode_encode i, hlatch, ?_, fun j h => ?_⟩
  · have hw : (encode i).toNat % 2 ^ 32 = (encode i).toNat := Nat.mod_eq_of_lt (encode i).isLt
    rw [decodeTableWord, hw, BitVec.ofNat_toNat, BitVec.setWidth_eq, decode_encode]
  · have hdecode := decode_encode i
    rw [h, decode_encode, Except.ok.injEq] at hdecode
    exact hdecode.symm

/-- Settles O4: decoding answers a command or an error, and each answer has its lemma above. -/
theorem decodeIsTotal : Obligations.DecodeIsTotal := by
  unfold Obligations.DecodeIsTotal
  intro opc ms
  refine ⟨fun hill => decodeCommand_error_iff.mpr ⟨hill, rfl⟩, fun hlegal => ?_⟩
  cases hd : decodeCommand opc ms with
  | ok i =>
    obtain ⟨hopc, hms⟩ := decodeCommand_ok_iff.mp hd
    exact ⟨i, rfl, hopc.symm, fun hi => (hms hi).symm⟩
  | error r => exact absurd (decodeCommand_error_iff.mp hd).1 hlegal

/-- Settles O1: each word is the encoding of its command, which decodes to it. -/
theorem specWordsDecode : Obligations.SpecWordsDecode :=
  ⟨decode_encode .nop, decode_encode .setmod, decode_encode (.montmul .p), decode_encode (.montmul .n),
    decode_encode (.montmul .user), decode_encode (.tomont .user), decode_encode (.modmul .p),
    decode_encode (.modexp .user), decode_encode (.modinv .n), decode_encode .ecadd, decode_encode .ecmul,
    decode_encode .ecmulLadder, decode_encode .compress, decode_encode .decompress⟩

end Sys2Proof.Machine
end

section
/-! Issue and completion: a command word from its write to CTRL to the end of its command (R72, R73, R132, R135,
R136, R141). -/

namespace Sys2Proof.Machine

/-! ### Issue (R72) -/

/-- A CTRL write to an idle block, without SRST and with START, issues the command it stores (R72). -/
theorem writeWindow_ctrl_issues {s : State} (v : Word) (hb : s.busy = false) (h31 : v.getLsbD 31 = false)
    (h0 : v.getLsbD 0 = true) : writeWindow 0x008 v s = issueCommand (storeCtrl v s) := by
  have hsrst : Word.srst v = false := h31
  have hstart : Word.start v = true := h0
  simp [writeWindow, writeReg, unlessBusy_idle _ hb, writeCtrl, hsrst, hstart]

/-- Settles O6: the step is the write's (`step_hostWrites`); an idle block issues, and a busy one drops the write as
it does at every locked offset. -/
theorem acceptedStartIssues : Obligations.AcceptedStartIssues := by
  unfold Obligations.AcceptedStartIssues
  intro s v rest h h31 h0
  rw [step_hostWrites h (by decide) (by decide)]
  refine ⟨fun hb => ?_, fun hb => ?_⟩
  · rw [writeWindow_ctrl_issues (s := { s with schedule := rest }) v hb h31 h0]
    rfl
  · rw [writeWindow_locked (s := { s with schedule := rest }) (by decide) (.inl rfl) (by rw [h31]; simp) hb]
    rfl

/-! ### The engine's turn (R73) -/

/-- Settles O5: `popped` takes the engine's event from the schedule (`step_completes`). -/
theorem stepRunsLatchedCommand : Obligations.StepRunsLatchedCommand := by
  unfold Obligations.StepRunsLatchedCommand
  intro s i hturn hb hd
  exact step_completes hturn hb hd

/-! ### A command word runs its command -/

theorem run_succ_of_step {s t : State} (n : Nat) (h : step s = .next t) : run (n + 1) s = run n t := by
  rw [run, h]

theorem run_one (s : State) : run 1 s = step s := by
  rw [run]
  cases step s <;> rfl

/-- Placing a command word puts its command in flight, with the engine's turn next (R72). -/
theorem placeCommand_eq {v : Word} (s : State) (hsrst : Word.srst v = false) (hstart : Word.start v = true) :
    placeCommand v s = { issueCommand (storeCtrl v s) with schedule := .engine :: s.schedule } := by
  simp [placeCommand, hsrst, hstart]

/-- The command placed by a word is executed by the next step, on the state the issue leaves. -/
theorem step_placeCommand {v : Word} {i : Instr} (s : State) (h : decode v = .ok i) :
    step (placeCommand v s) = exec i (issueCommand (storeCtrl v s)) := by
  obtain ⟨hsrst, hstart, hlatch⟩ := decode_ok_iff_fields.mp h
  rw [placeCommand_eq s hsrst hstart]
  exact step_completes (.inr ⟨s.schedule, rfl⟩) rfl hlatch

theorem decodeTableWord_eq_some {nbits w : Nat} {i : Instr} (h : decodeTableWord nbits w = some i) :
    decode (BitVec.ofNat 32 (w % 2 ^ nbits)) = .ok i := by
  unfold decodeTableWord at h
  split at h
  · rename_i hd
    rw [hd, Option.some.inj h]
  · cases h

/-- Settles O7: the first step issues the command (`acceptedStartIssues`) and leaves the engine's turn, and the second
completes it. -/
theorem commandWordRuns : Obligations.CommandWordRuns := by
  unfold Obligations.CommandWordRuns
  refine ⟨fun s v i rest h hb hwrite => ?_, fun s nbits w i h => ?_⟩
  · obtain ⟨hsrst, hstart, hlatch⟩ := decode_ok_iff_fields.mp h
    obtain ⟨hissue, -⟩ := acceptedStartIssues s v _ hwrite hsrst hstart
    rw [run_succ_of_step 1 (hissue hb), run_one]
    exact step_completes (.inr ⟨rest, rfl⟩) rfl hlatch
  · refine ⟨_, step_placeCommand s (decodeTableWord_eq_some h), ?_⟩
    simp

/-! ### Completion (R73, R132, R141) -/

/-- A completion keeps CTRL and the latch, and shows ERR exactly with an error code (R28, R32, R44). -/
theorem complete_control (i : Instr) (s : State) :
    (complete (outcome i s) s).opc = s.opc ∧ (complete (outcome i s) s).modsel = s.modsel ∧
      (complete (outcome i s) s).latchOpc = s.latchOpc ∧ (complete (outcome i s) s).latchModsel = s.latchModsel ∧
      ((complete (outcome i s) s).err = true ↔ (complete (outcome i s) s).errcode ≠ .none) := by
  have hc := outcome_cases i s
  revert hc
  generalize outcome i s = o
  intro hc
  cases hc with
  | error code hne => simp [hne]
  | _ => simp

/-- Settles O9, from the two frames of a completion. -/
theorem everyCommandCompletes : Obligations.EveryCommandCompletes := by
  unfold Obligations.EveryCommandCompletes
  intro i s
  obtain ⟨hcfg, hschedule, hreply, hwerr, hdoneIe, hbusy, hdone, hdoneIp⟩ := complete_frame i s
  obtain ⟨hopc, hmodsel, hlatchOpc, hlatchModsel, herr⟩ := complete_control i s
  exact ⟨_, exec_eq i s, hbusy, hdone, hdoneIp, herr, hschedule, hreply, hcfg, hopc, hmodsel, hlatchOpc, hlatchModsel,
    hwerr, hdoneIe⟩

/-! ### The errors of MODSEL (R71, R135, R136) -/

/-- A command of `MODCMDS` whose modulus is not selected fails with the error of that check (R73, R81). -/
theorem exec_of_not_selected {i : Instr} {ms : ModSel} {s : State} {code : ErrCode} (h : i.modsel? = some ms)
    (hsel : selectModulus ms s = .error code) : exec i s = .next (failed code s) := by
  have houtcome : outcome i s = .error code := by rw [outcome_modcmd s h, modCommand, hsel]
  exact exec_of_error houtcome

/-- Settles O13: the two checks of `selectModulus` fail, and `decodeCommand_ignores_modsel` for the other seven. -/
theorem modselErrors : Obligations.ModselErrors := by
  unfold Obligations.ModselErrors
  refine ⟨fun i s h => exec_of_not_selected h rfl, fun i s h hr => exec_of_not_selected h ?_,
    fun i ms h => decodeCommand_ignores_modsel ms h⟩
  rw [selectModulus, hr]
  rfl

end Sys2Proof.Machine
end

section
/-! Loading a register word by word leaves the loaded number (R49, R50, R79, R162). -/

namespace Sys2Proof.Machine

/-! ### A number with its low words replaced -/

/-- `y` after its words `0` to `j - 1` have been written with those of `x`, the lowest first (R49, R79). -/
def loadWords (x y : Nat) : Nat → Nat
  | 0 => y
  | j + 1 => setWord (loadWords x y j) j (wordOf x j)

theorem loadWords_testBit (x y j i : Nat) :
    (loadWords x y j).testBit i = if i < 32 * j then x.testBit i else y.testBit i := by
  induction j with
  | zero => simp [loadWords]
  | succ j ih =>
    rw [loadWords, setWord_testBit, wordOf_getLsbD, ih]
    by_cases hword : 32 * j ≤ i ∧ i < 32 * j + 32
    · rw [if_pos hword, if_pos (by omega), Nat.add_sub_cancel' hword.1, decide_eq_true (by omega), Bool.true_and]
    · rw [if_neg hword]
      simp only [show i < 32 * (j + 1) ↔ i < 32 * j by omega]

/-- Writing every word leaves nothing of what the register held. -/
theorem loadWords_all {x y n : Nat} (hx : x < 2 ^ (32 * n)) (hy : y < 2 ^ (32 * n)) : loadWords x y n = x := by
  apply Nat.eq_of_testBit_eq
  intro i
  rw [loadWords_testBit]
  by_cases hi : i < 32 * n
  · rw [if_pos hi]
  · have hpow : 2 ^ (32 * n) ≤ 2 ^ i := Nat.pow_le_pow_right (by decide) (by omega)
    rw [if_neg hi, Nat.testBit_lt_two_pow (hx.trans_le hpow), Nat.testBit_lt_two_pow (hy.trans_le hpow)]

theorem loadWords_lt {x y n : Nat} (hy : y < 2 ^ (32 * n)) : ∀ j ≤ n, loadWords x y j < 2 ^ (32 * n)
  | 0, _ => hy
  | j + 1, hj => setWord_lt _ (loadWords_lt hy j (by omega)) hj

/-! ### The run of a load (R79) -/

/-- A run whose steps go through the states of a sequence ends in the last of them. -/
theorem run_of_steps (n : Nat) : ∀ f : Nat → State, (∀ j < n, step (f j) = .next (f (j + 1))) →
    run n (f 0) = .next (f n) := by
  induction n with
  | zero => exact fun _ _ => rfl
  | succ n ih =>
    intro f h
    rw [run_succ_of_step n (h 0 (by omega))]
    exact ih (fun j => f (j + 1)) fun j hj => h (j + 1) (by omega)

/-- The state after the first `j` events of a load of the words of `x` from offset `base` up (R79). -/
def afterLoad (base x : Nat) (s : State) : Nat → State
  | 0 => s
  | j + 1 => writeWindow (base + 4 * j) (wordOf x j) (popped (afterLoad base x s j))

section load

variable {base x n : Nat} {s : State} {rest : List Event} (hbase : base + 4 * n ≤ 0x1000) (h4 : base % 4 = 0)
include hbase h4

theorem afterLoad_host : ∀ j ≤ n, (afterLoad base x s j).cfg = s.cfg ∧
    (afterLoad base x s j).schedule = s.schedule.drop j := by
  intro j
  induction j with
  | zero => exact fun _ => ⟨rfl, rfl⟩
  | succ j ih =>
    intro hj
    obtain ⟨hcfg, hschedule⟩ := ih (by omega)
    obtain ⟨hcfg', hschedule', -⟩ := writeWindow_host (base + 4 * j) (wordOf x j) (popped (afterLoad base x s j))
      (by omega) (by omega)
    refine ⟨hcfg'.trans hcfg, hschedule'.trans ?_⟩
    rw [popped_schedule, hschedule, List.tail_drop]

/-- The events of a load are its writes, in order. -/
theorem run_load (hs : s.schedule = (List.range n).map (fun j => mmwr s.cfg (base + 4 * j) (wordOf x j)) ++ rest) :
    run n s = .next (afterLoad base x s n) := by
  refine run_of_steps n (afterLoad base x s) fun j hj => ?_
  obtain ⟨hcfg, hschedule⟩ := afterLoad_host (x := x) (s := s) hbase h4 j (by omega)
  refine step_write (rest := s.schedule.drop (j + 1)) ?_ (by omega) (by omega)
  rw [hostWrites, hschedule, hcfg, hs, List.drop_eq_getElem_cons (by simp; omega)]
  simp [hj, mmwr]

end load

/-! ### Wide registers (R49, R57) -/

/-- A wide register given a number by accepted writes: M also loses its prepared modulus (R34, R37, R57). -/
def putWide (r : WideReg) (x : Nat) (s : State) : State :=
  if r = .M then invalidateModulus (setWide r x s) else setWide r x s

section wide

variable (r : WideReg) (x y : Nat) (s : State)

theorem writeWide_eq_putWide (j : Nat) (v : Word) : writeWide r j v s = putWide r (setWord (getWide r s) j v) s := rfl

@[simp] theorem getWide_putWide : getWide r (putWide r x s) = x := by cases r <;> rfl

@[simp] theorem putWide_putWide : putWide r y (putWide r x s) = putWide r y s := by cases r <;> rfl

@[simp] theorem popped_putWide : popped (putWide r x s) = putWide r x (popped s) := by cases r <;> rfl

@[simp] theorem putWide_busy : (putWide r x s).busy = s.busy := by cases r <;> rfl

@[simp] theorem putWide_cfg : (putWide r x s).cfg = s.cfg := by cases r <;> rfl

end wide

theorem popped_drop (s : State) (j : Nat) :
    popped { s with schedule := s.schedule.drop j } = { s with schedule := s.schedule.drop (j + 1) } := by
  rw [popped, List.tail_drop]

/-- A load of a wide register of an idle block puts its words, and nothing else changes. -/
theorem afterLoad_wide (r : WideReg) (x : Nat) {s : State} (hb : s.busy = false) : ∀ j < 128,
    j < s.cfg.maxWords → afterLoad (wideBase r) x s (j + 1) =
      putWide r (loadWords x (getWide r s) (j + 1)) { s with schedule := s.schedule.drop (j + 1) } := by
  intro j
  induction j with
  | zero =>
    intro hj hw
    rw [afterLoad, afterLoad, writeWindow_wide (s := popped s) _ hb r hj hw, writeWide_eq_putWide, getWide_popped,
      popped, ← List.drop_one]
    rfl
  | succ j ih =>
    intro hj hw
    rw [afterLoad, ih (by omega) (by omega), popped_putWide, popped_drop,
      writeWindow_wide _ (by simpa using hb) r hj (by simpa using hw), writeWide_eq_putWide, getWide_putWide,
      putWide_putWide]
    rfl

/-! ### 256-bit registers (R50) -/

section coord

variable (r : CoordReg) (x y : Coord) (s : State)

@[simp] theorem setCoord_getCoord : setCoord r (getCoord r s) s = s := by cases r <;> rfl

@[simp] theorem setCoord_setCoord : setCoord r y (setCoord r x s) = setCoord r y s := by cases r <;> rfl

@[simp] theorem popped_setCoord : popped (setCoord r x s) = setCoord r x (popped s) := by cases r <;> rfl

end coord

/-- A load of a 256-bit register of an idle block sets its words, and nothing else changes. -/
theorem afterLoad_coord (r : CoordReg) (x : Nat) {s : State} (hb : s.busy = false) : ∀ j ≤ 8,
    afterLoad (coordBase r) x s j = setCoord r (BitVec.ofNat 256 (loadWords x (getCoord r s).toNat j))
      { s with schedule := s.schedule.drop j } := by
  intro j
  induction j with
  | zero =>
    intro _
    rw [loadWords, BitVec.ofNat_toNat, BitVec.setWidth_eq, List.drop_zero]
    exact (setCoord_getCoord r s).symm
  | succ j ih =>
    intro hj
    have hlt : loadWords x (getCoord r s).toNat j < 2 ^ 256 :=
      loadWords_lt (n := 8) (getCoord r s).isLt j (by omega)
    rw [afterLoad, ih (by omega), popped_setCoord, popped_drop, writeWindow_coord _ (by simpa using hb) r hj,
      writeCoord, getCoord_setCoord, setCoord_setCoord, BitVec.toNat_ofNat, Nat.mod_eq_of_lt hlt]
    rfl

theorem maxWords_range {c : Config} (h : c.wf = true) : 8 ≤ c.maxWords ∧ c.maxWords ≤ 128 := by
  simp [Config.wf] at h
  omega

/-- Settles O24: the run of a load is its writes (`run_load`), the writes put the words of the number
(`afterLoad_wide`, `afterLoad_coord`), and all the words together are the number (`loadWords_all`). -/
theorem loadingARegister : Obligations.LoadingARegister := by
  unfold Obligations.LoadingARegister
  refine ⟨fun s r x rest hi hb hx hs => ?_, fun s r x rest hb hs => ?_⟩
  · have hwords := maxWords_range hi.cfg
    have hrange := wideBase_range r
    obtain ⟨n, hn⟩ : ∃ n, s.cfg.maxWords = n + 1 := ⟨s.cfg.maxWords - 1, by omega⟩
    have hdrop : s.schedule.drop s.cfg.maxWords = rest := by
      rw [hs, List.drop_left' (by simp [mmldWide])]
    rw [run_load (by omega) (by omega) hs, hn, afterLoad_wide r x hb n (by omega) (by omega), ← hn, hdrop,
      loadWords_all hx (hi.wide r)]
    by_cases hr : r = .M
    · subst hr
      rfl
    · rw [putWide, if_neg hr, if_neg hr]
  · have hrange := coordBase_range r
    have hdrop : s.schedule.drop 8 = rest := by
      rw [hs, List.drop_left' (by simp [mmldCoord])]
    rw [run_load (by omega) (by omega) hs, afterLoad_coord r x.toNat hb 8 le_rfl, hdrop,
      loadWords_all (n := 8) x.isLt (getCoord r s).isLt, BitVec.ofNat_toNat, BitVec.setWidth_eq]

end Sys2Proof.Machine
end

section
/-! The results of NOP and of the modular commands, as whole next states (R80 to R93). -/

namespace Sys2Proof.Machine

/-- Settles O36: NOP's outcome is the state itself. -/
theorem nopCompletes : Obligations.NopCompletes := by
  unfold Obligations.NopCompletes
  intro s
  exact exec_eq .nop s

/-- A command of `MODCMDS` whose modulus is selected writes its result to D and nothing else (R73, R82). -/
theorem exec_modResult {i : Instr} {ms : ModSel} {s : State} {m l : Nat} (h : i.modsel? = some ms)
    (hs : Selects ms s m l) : exec i s = .next (succeeded { s with d := modResult i s m l }) :=
  exec_of_selects h hs

/-- An integer differs from its least nonnegative residue by a multiple of the modulus (R12). -/
theorem dvd_sub_residue (a : Int) {m : Nat} (h : 0 < m) : (m : Int) ∣ a - residue a m := by
  rw [residue_cast a h]
  exact Int.dvd_self_sub_emod

/-- Settles O39: three results are remainders as they stand, and MODSUB's is a `residue`. -/
theorem ringResults : Obligations.RingResults := by
  unfold Obligations.RingResults
  intro s ms m l hs hm
  have hmodsub : ∃ r : Nat, r < m ∧ (m : Int) ∣ (s.a : Int) - s.b - r ∧
      exec (.modsub ms) s = .next (succeeded { s with d := r }) :=
    ⟨residue ((s.a : Int) - s.b) m, residue_lt _ hm, dvd_sub_residue _ hm, exec_modResult rfl hs⟩
  exact ⟨exec_modResult rfl hs, exec_modResult rfl hs, exec_modResult rfl hs, hmodsub⟩

/-- `radixInv` is an inverse of the radix for an odd modulus (R80). -/
theorem isRadixInverse_radixInv {m : Nat} (l : Nat) (h : m % 2 = 1) : IsRadixInverse m l (radixInv m l) :=
  ⟨radixInv_lt l (by omega), radix_mul_radixInv l h⟩

/-- Settles O38 with `radixInv`, which is the one inverse of the radix because the modulus is odd. -/
theorem montgomeryResults : Obligations.MontgomeryResults := by
  unfold Obligations.MontgomeryResults
  intro s ms m l hs hodd
  have hunique : ∀ r, IsRadixInverse m l r → r = radixInv m l :=
    fun r ⟨hlt, hinverse⟩ => radixInv_unique hodd hlt hinverse
  exact ⟨radixInv m l, isRadixInverse_radixInv l hodd, hunique, exec_modResult rfl hs, exec_modResult rfl hs,
    exec_modResult rfl hs⟩

/-- Settles O43: the result is below the modulus (`modResult_lt`), which is odd, hence positive, and fits a wide
register in every state that meets the invariant. -/
theorem resultsBelowModulus : Obligations.ResultsBelowModulus := by
  unfold Obligations.ResultsBelowModulus
  intro i s ms m l hmod hi hs
  have hodd : m % 2 = 1 := selects_odd hi hs
  have hlt : modResult i s m l < m := modResult_lt i s l (by omega)
  exact ⟨modResult i s m l, hlt, hlt.trans (selects_lt hi hs), exec_modResult hmod hs⟩

end Sys2Proof.Machine
end

section
/-! The powers MODEXP and MODINV write, as whole next states (R98 to R100). -/

namespace Sys2Proof.Machine

/-- MODEXP's result is the power with the whole exponent, reduced once (R98, R100). -/
theorem modResult_modexp (ms : ModSel) (s : State) (m l : Nat) :
    modResult (.modexp ms) s m l = s.a ^ s.e % m :=
  powMod_eq s.a s.e m

/-- MODINV's result is the Fermat power, for every A and whether or not the modulus is prime (R99). -/
theorem modResult_modinv (ms : ModSel) (s : State) (m l : Nat) :
    modResult (.modinv ms) s m l = if m = 1 then 0 else s.a ^ (m - 2) % m :=
  fermatInv_eq s.a m

/-- Settles O40: the loop of squarings computes the power of the unreduced exponent (`powMod_eq`). -/
theorem modexpResult : Obligations.ModexpResult := by
  unfold Obligations.ModexpResult
  intro s ms m l hs
  rw [exec_modResult rfl hs, modResult_modexp]

/-- Settles O41: the Fermat power is the same loop at the exponent `m - 2`, and modulo 1 it is 0 (`fermatInv_eq`). -/
theorem modinvResult : Obligations.ModinvResult := by
  unfold Obligations.ModinvResult
  intro s ms m l hs
  rw [exec_modResult rfl hs, modResult_modinv]

end Sys2Proof.Machine
end

section
/-! The field inverse and the point addition (R106 to R110). -/

namespace Sys2Proof.Machine

/-! ### The field inverse -/

/-- Modulo `p` MODINV computes the field inverse: both are the same Fermat power (R99, R107). -/
theorem modResult_modinv_p (s : State) (l : Nat) : modResult (.modinv .p) s fieldP l = finv s.a := by
  rw [modResult_modinv, if_neg fieldP_prime.ne_one, finv_eq, ← Nat.pow_mod]

/-- A residue other than 0 times its `finv` is 1 (R107). -/
theorem mul_finv_mod {a : Nat} (h : a % fieldP ≠ 0) : a * finv a % fieldP = 1 := by
  have := fact_fieldP
  have ha : (a : FieldP) ≠ 0 := by
    rwa [Ne, ZMod.natCast_eq_zero_iff, Nat.dvd_iff_mod_eq_zero]
  have hone : ((a * finv a : Nat) : FieldP) = (1 : Nat) := by
    rw [Nat.cast_mul, finv_cast, mul_inv_cancel₀ ha, Nat.cast_one]
  rw [(ZMod.natCast_eq_natCast_iff' _ _ _).mp hone, Nat.mod_eq_of_lt fieldP_prime.one_lt]

theorem finv_lt (a : Nat) : finv a < fieldP := by
  rw [finv_eq]
  exact Nat.mod_lt _ fieldP_prime.pos

/-- `finv` of a multiple of `p` is 0 (R107). -/
theorem finv_of_dvd {a : Nat} (h : fieldP ∣ a) : finv a = 0 := by
  have := fact_fieldP
  have hdvd : fieldP ∣ finv a := by
    rw [← ZMod.natCast_eq_zero_iff, finv_cast, (ZMod.natCast_eq_zero_iff a fieldP).mpr h, inv_zero]
  exact Nat.eq_zero_of_dvd_of_lt hdvd (finv_lt a)

/-- Settles O45: the power is `finv_eq`, the inverse is taken in the field, and MODINV computes the same power. -/
theorem fieldInverse : Obligations.FieldInverse := by
  unfold Obligations.FieldInverse
  intro a
  refine ⟨finv_eq a, finv_of_dvd (dvd_zero fieldP), mul_finv_mod, ?_⟩
  rintro s rfl
  have hsel : Selects .p s fieldP 256 := .inl ⟨rfl, rfl, rfl⟩
  rw [exec_modResult rfl hsel, modResult_modinv_p]

/-! ### An identity operand -/

/-- ECADD writes the sum of its two operands to R and nothing else (R109). -/
theorem exec_ecadd (s : State) : exec .ecadd s = .next (succeeded (writeR (ecadd (pointP s) (pointQ s)) s)) :=
  exec_eq .ecadd s

/-- The sum of two identities is the identity in its one form, whatever their words (R108). -/
theorem ecadd_of_inf {P Q : Point} (hP : P.inf = true) (hQ : Q.inf = true) : ecadd P Q = identityPoint := by
  rw [ecadd, if_pos hP, if_pos hQ]

/-- An identity on the left, whatever its words, leaves the other operand verbatim (R108). -/
theorem ecadd_of_inf_left {P Q : Point} (hP : P.inf = true) (hQ : Q.inf = false) : ecadd P Q = Q := by
  rw [ecadd, if_pos hP, if_neg (by simp [hQ]), ← hQ]

/-- An identity on the right, whatever its words, leaves the other operand verbatim (R108). -/
theorem ecadd_of_inf_right {P Q : Point} (hP : P.inf = false) (hQ : Q.inf = true) : ecadd P Q = P := by
  rw [ecadd, if_neg (by simp [hP]), if_pos hQ, ← hP]

/-- Settles O46: one lemma on `ecadd` for each combination of the two flags. -/
theorem ecaddIdentity : Obligations.EcaddIdentity := by
  unfold Obligations.EcaddIdentity
  intro s
  rw [exec_ecadd]
  refine ⟨fun hp hq => ?_, fun hp hq => ?_, fun hp hq => ?_⟩
  · rw [ecadd_of_inf hp hq]
    rfl
  · rw [ecadd_of_inf_left hp hq, ← hq]
    rfl
  · rw [ecadd_of_inf_right hp hq, ← hp]
    rfl

/-! ### Two affine operands -/

section slope

variable [Fact (Nat.Prime fieldP)] {x1 y1 x2 y2 : FieldP}

/-- The tangent's slope, at a point that is not its own opposite (R108). -/
theorem fieldSlope_tangent (hx : x1 = x2) (hy : y1 = y2) (hopp : y1 ≠ -y2) :
    fieldSlope x1 y1 x2 y2 * (2 * y1) = 3 * x1 ^ 2 := by
  have hy0 : y1 ≠ 0 := by
    rintro rfl
    exact hopp (by rw [← hy, neg_zero])
  rw [fieldSlope, if_pos ⟨hx, hy⟩, div_mul_cancel₀ _ (mul_ne_zero two_ne_zero_fieldP hy0)]

/-- Two points that only share X have slope 0, because the inverse of 0 is 0 (R107, R108). -/
theorem fieldSlope_shared_x (hx : x1 = x2) (hy : y1 ≠ y2) : fieldSlope x1 y1 x2 y2 = 0 := by
  rw [fieldSlope, if_neg (fun h => hy h.2), sub_eq_zero.mpr hx, div_zero]

/-- The chord's slope (R108). -/
theorem fieldSlope_chord (hx : x1 ≠ x2) : fieldSlope x1 y1 x2 y2 * (x1 - x2) = y1 - y2 := by
  rw [fieldSlope, if_neg (fun h => hx h.1), div_mul_cancel₀ _ (sub_ne_zero.mpr hx)]

/-- `pointOf` writes reduced coordinates (R106). -/
theorem pointOf_lt (x y : FieldP) : (pointOf x y).x.toNat < fieldP ∧ (pointOf x y).y.toNat < fieldP := by
  rw [pointOf, val_toNat, val_toNat]
  exact ⟨ZMod.val_lt x, ZMod.val_lt y⟩

end slope

/-- Settles O47: `ecadd_affine` gives the sum in the field, and the three lemmas on `fieldSlope` its slope. The
obligation's own name is the model's function `ecaddAffine`. -/
theorem ecaddAffine_formulas : Obligations.EcaddAffine := by
  unfold Obligations.EcaddAffine
  intro s x1 y1 x2 y2 hp hq hx1 hy1 hx2 hy2
  have := fact_fieldP
  have hsum := ecadd_affine (P := pointP s) (Q := pointQ s) hp hq hx1.symm hy1.symm hx2.symm hy2.symm
  rw [exec_ecadd]
  generalize ecadd (pointP s) (pointQ s) = R at hsum ⊢
  refine ⟨fun hopp => ?_, fun hopp => ?_⟩
  · rw [hsum, if_pos hopp]
    rfl
  · rw [if_neg hopp] at hsum
    have hlt : R.x.toNat < fieldP ∧ R.y.toNat < fieldP := hsum ▸ pointOf_lt _ _
    have hx3 : (R.x.toNat : FieldP) = fieldSlope x1 y1 x2 y2 ^ 2 - x1 - x2 := by rw [hsum, pointOf_x]
    have hy3 : (R.y.toNat : FieldP) = fieldSlope x1 y1 x2 y2 * (x1 - (R.x.toNat : FieldP)) - y1 := by
      rw [hx3, hsum, pointOf_y]
    have hinf : R.inf = false := by rw [hsum, pointOf_inf]
    have htangent : x1 = x2 → y1 = y2 → fieldSlope x1 y1 x2 y2 * (2 * y1) = 3 * x1 ^ 2 :=
      fun hx hy => fieldSlope_tangent hx hy fun hneg => hopp ⟨hx, hneg⟩
    refine ⟨fieldSlope x1 y1 x2 y2, R.x, R.y, htangent, fieldSlope_shared_x, fieldSlope_chord, hlt.1, hx3, hlt.2,
      hy3, ?_⟩
    rw [← hinf]
    rfl

end Sys2Proof.Machine
end

section
/-! The passes of the two scalar multiplications, and the invariant of the ladder (R113, R114, R116, R117). -/

namespace Sys2Proof.Machine

/-! ### Double-and-add -/

/-- ECMUL writes the result of the last pass of double-and-add to R and nothing else (R113, R114). -/
theorem exec_ecmul (s : State) : exec .ecmul s =
    .next (succeeded (writeR (ecmulPass s.k.toNat identityPoint (ecOperand (pointP s)) 256).1 s)) := by
  rw [← ecmulLoop_eq_pass]
  exact exec_eq .ecmul s

/-- Settles O51 with the two components of `ecmulPass`, whose equations are the passes. -/
theorem ecmulPasses : Obligations.EcmulPasses := by
  unfold Obligations.EcmulPasses
  intro s
  simp only [← BitVec.testBit_toNat]
  exact ⟨fun i => (ecmulPass s.k.toNat identityPoint (ecOperand (pointP s)) i).1,
    fun i => (ecmulPass s.k.toNat identityPoint (ecOperand (pointP s)) i).2,
    rfl, rfl, fun _ _ => rfl, fun _ _ => rfl, exec_ecmul s⟩

/-! ### The ladder -/

/-- ECMUL_LADDER writes the first point after the last pass of the ladder to R and nothing else (R116, R117). -/
theorem exec_ecmulLadder (s : State) : exec .ecmulLadder s =
    .next (succeeded (writeR (ladderPass s.k.toNat 256 identityPoint (ecOperand (pointP s)) 256).1 s)) := by
  rw [← ladderLoop_eq_pass]
  exact exec_eq .ecmulLadder s

section passes

variable (k n : Nat) (R0 R1 : Point)

/-- `(R0, R1)` of the ladder of `n` passes before the pass for bit `i − 1`, so with the bits from `i` up done; the
spec counts the passes by their bits, downwards (R116). -/
def ladderAbove (i : Nat) : Point × Point := ladderPass k n R0 R1 (n - i)

/-- The pass for bit `i`; both sides are taken from before it (R116). -/
theorem ladderAbove_bit {i : Nat} (hi : i < n) : ladderAbove k n R0 R1 i =
    if k.testBit i then
      (ecadd (ladderAbove k n R0 R1 (i + 1)).1 (ladderAbove k n R0 R1 (i + 1)).2,
        ecadd (ladderAbove k n R0 R1 (i + 1)).2 (ladderAbove k n R0 R1 (i + 1)).2)
    else
      (ecadd (ladderAbove k n R0 R1 (i + 1)).1 (ladderAbove k n R0 R1 (i + 1)).1,
        ecadd (ladderAbove k n R0 R1 (i + 1)).1 (ladderAbove k n R0 R1 (i + 1)).2) := by
  have hpass : n - i = n - (i + 1) + 1 := by omega
  have hbit : n - 1 - (n - (i + 1)) = i := by omega
  rw [ladderAbove, hpass, ladderPass, hbit]
  rfl

end passes

/-- Every pass of the ladder keeps the difference of its two points, as group elements (R116). -/
theorem ladderPass_difference [Fact (Nat.Prime fieldP)] {b : FieldP} (k n : Nat) (A D : (curve b).Point) (j : Nat) :
    ∃ B, ladderPass k n (canonical A) (canonical (A + D)) j = (canonical B, canonical (B + D)) := by
  induction j with
  | zero => exact ⟨A, rfl⟩
  | succ j ih =>
    obtain ⟨B, hB⟩ := ih
    simp only [ladderPass, hB, ecadd_canonical]
    split
    · exact ⟨B + (B + D), by rw [show B + D + (B + D) = B + (B + D) + D by abel]⟩
    · exact ⟨B + B, by rw [← add_assoc]⟩

/-- The ladder's invariant `R1 = R0 + P`, for an operand on the curve (R116). -/
theorem ladderPass_invariant {P : Point} (h : OnCurve P) (k n j : Nat) :
    (ladderPass k n identityPoint (ecOperand P) j).2 =
      ecadd (ladderPass k n identityPoint (ecOperand P) j).1 P := by
  have := fact_fieldP
  obtain ⟨D, rfl⟩ := onCurve_iff.mp h
  have hstart : canonical (0 + D) = ecOperand (canonical D) := by rw [zero_add, ecOperand_canonical]
  obtain ⟨B, hB⟩ : ∃ B, ladderPass k n identityPoint (ecOperand (canonical D)) j = (canonical B, canonical (B + D)) :=
    hstart ▸ ladderPass_difference k n 0 D j
  rw [hB, ecadd_canonical]

/-- Settles O52 with the two components of `ladderAbove`: `ladderAbove_bit` is the pass, and `ladderPass_invariant`
what every pass keeps. -/
theorem ladderPasses : Obligations.LadderPasses := by
  unfold Obligations.LadderPasses
  intro s
  simp only [← BitVec.testBit_toNat]
  refine ⟨fun i => (ladderAbove s.k.toNat 256 identityPoint (ecOperand (pointP s)) i).1,
    fun i => (ladderAbove s.k.toNat 256 identityPoint (ecOperand (pointP s)) i).2,
    rfl, rfl, fun i hi => ?_, fun i hi => ?_, fun hP _ _ => ladderPass_invariant hP _ _ _, exec_ecmulLadder s⟩
  · exact (congrArg Prod.fst (ladderAbove_bit _ _ _ _ hi)).trans (apply_ite Prod.fst _ _ _)
  · exact (congrArg Prod.snd (ladderAbove_bit _ _ _ _ hi)).trans (apply_ite Prod.snd _ _ _)

end Sys2Proof.Machine
end

section
/-! The encoding of a point, and COMPRESS's result as a whole next state (R121, R122). -/

namespace Sys2Proof.Machine

/-! ### The encoding (R121) -/

theorem encodePoint_identity {R : Point} (h : R.inf = true) : encodePoint R = .error .identityNoEncoding := by
  rw [encodePoint, if_pos h]

/-- Every affine point, reduced or not, has an encoding, whose bytes are those of `encodeByte`. -/
theorem encodePoint_affine {R : Point} (h : R.inf = false) :
    ∃ b, encodePoint R = .ok b ∧ ∀ i (hi : i < 33), b[i] = encodeByte R.x R.y i := by
  refine ⟨_, by rw [encodePoint, if_neg (by simp [h])], fun i hi => ?_⟩
  rw [Vector.getElem_ofFn]

theorem encodeByte_zero (x y : Coord) : encodeByte x y 0 = parityPrefix y.toNat := if_pos rfl

theorem encodeByte_one_add (x y : Coord) (i : Nat) : encodeByte x y (1 + i) = be32Byte (fred x.toNat) i := by
  rw [encodeByte, if_neg (by omega), Nat.add_sub_cancel_left]

/-- A reduced coordinate fits the 32 bytes of the encoding (R121). -/
theorem fred_lt_two_pow (x : Nat) : fred x < 2 ^ 256 :=
  (Nat.mod_lt x fieldP_prime.pos).trans (by decide)

/-! ### The point buffer after COMPRESS (R122) -/

/-- COMPRESS puts the encoding at the start of PB; `pbByte_compressedPb` says it keeps the rest. -/
theorem pbByte_compressedPb_lt {i : Nat} (b : Vector Byte 33) (pb : Vector Byte 65) (hi : i < 33) :
    pbByte (compressedPb b pb) i = b[i] := by
  rw [pbByte_of_lt (by omega), compressedPb_getElem, dif_pos hi]

section encoded

variable {x y : Coord} {b : Vector Byte 33} (pb : Vector Byte 65) (hb : ∀ i (hi : i < 33), b[i] = encodeByte x y i)
include hb

/-- The first byte is the prefix for the parity of `Y mod p`. -/
theorem pbByte_zero_of_encoded : pbByte (compressedPb b pb) 0 = parityPrefix y.toNat := by
  rw [pbByte_compressedPb_lt b pb (by omega), hb, encodeByte_zero]

/-- The 32 bytes after the prefix are `be32(X mod p)`. -/
theorem bytesValue_one_of_encoded : bytesValue (compressedPb b pb) 1 = fred x.toNat := by
  refine bytesValue_be32 (fred_lt_two_pow _) fun i hi => ?_
  rw [pbByte_compressedPb_lt b pb (by omega), hb, encodeByte_one_add]

end encoded

/-! ### COMPRESS (R122) -/

theorem exec_compress_of_encoded {s : State} {b : Vector Byte 33} (h : encodePoint (pointR s) = .ok b) :
    exec .compress s = .next (succeeded (writeCompressed b s)) := by
  rw [exec_eq, outcome, compressOutcome, h]
  rfl

theorem exec_compress_of_error {s : State} {code : ErrCode} (h : encodePoint (pointR s) = .error code) :
    exec .compress s = .next (failed code s) :=
  exec_of_error (by rw [outcome, compressOutcome, h])

/-- Settles O57: an affine R has an encoding (`encodePoint_affine`), which COMPRESS puts at the start of PB, and the
identity has none. -/
theorem compressResult : Obligations.CompressResult := by
  unfold Obligations.CompressResult
  intro s
  refine ⟨fun haffine => ?_, fun hidentity => exec_compress_of_error (encodePoint_identity hidentity)⟩
  obtain ⟨b, hencode, hbytes⟩ := encodePoint_affine (R := pointR s) haffine
  exact ⟨compressedPb b s.pb, pbByte_zero_of_encoded s.pb hbytes, bytesValue_one_of_encoded s.pb hbytes,
    fun _ hi => pbByte_compressedPb b s.pb hi, exec_compress_of_encoded hencode⟩

end Sys2Proof.Machine
end

section
/-! Which step stops: only an access of the host that the block does not serve (R53, R58, R141, R142). -/

namespace Sys2Proof.Machine

/-- The engine's turn always answers a next state, whatever the latch holds (R132, R141). -/
theorem step_next_of_engineTurn {s : State} (h : engineTurn s) : ∃ t, step s = .next t := by
  rw [step_engineTurn h, engineStep]
  split
  · rw [completeStep]
    split
    · exact ⟨_, exec_eq _ _⟩
    · exact ⟨_, rfl⟩
  · exact ⟨_, rfl⟩

/-- An access steps when the block serves it, and stops the run otherwise (R53, R129). -/
theorem step_access {s : State} {ev : Event} {rest : List Event} {size addr : Nat} (hs : s.schedule = ev :: rest)
    (hev : ev = .read size addr ∨ ∃ v, ev = .write size addr v) :
    (∃ t, step s = .next t) ∨ ¬ served s.cfg size addr ∧ ∃ f, step s = .fault f := by
  cases hoff : busOffset s.cfg size addr with
  | ok off => exact .inl (step_access_ok hs hev hoff)
  | error f =>
    refine .inr ⟨fun hserved => ?_, f, step_access_error hs hev hoff⟩
    rw [busOffset_served hserved] at hoff
    cases hoff

/-- A step answers a next state, or its event is unlawful and stops the run; it is never refused. -/
theorem step_next_or_fault (s : State) : (∃ t, step s = .next t) ∨
    (∃ ev rest, s.schedule = ev :: rest ∧ ¬ lawful s.cfg ev) ∧ ∃ f, step s = .fault f := by
  cases hs : s.schedule with
  | nil => exact .inl (step_next_of_engineTurn (.inl hs))
  | cons ev rest =>
    cases ev with
    | engine => exact .inl (step_next_of_engineTurn (.inr ⟨rest, hs⟩))
    | hardReset => exact .inl ⟨resetBlock { s with schedule := rest }, by simp only [step, hs, eventStep]⟩
    | read size addr =>
      exact (step_access hs (.inl rfl)).imp_right fun ⟨hserved, hfault⟩ => ⟨⟨_, _, rfl, hserved⟩, hfault⟩
    | write size addr v =>
      exact (step_access hs (.inr ⟨v, rfl⟩)).imp_right fun ⟨hserved, hfault⟩ => ⟨⟨_, _, rfl, hserved⟩, hfault⟩

/-- A lawful schedule steps, and what is left of it is lawful. -/
theorem step_of_safeSchedule {s : State} (h : SafeSchedule s) : ∃ t, step s = .next t ∧ SafeSchedule t := by
  rcases step_next_or_fault s with ⟨t, ht⟩ | ⟨⟨ev, rest, hs, hunlawful⟩, -⟩
  · obtain ⟨hcfg, hschedule, -⟩ := stepTakesOneEvent s t ht
    refine ⟨t, ht, fun ev hev => ?_⟩
    rw [hschedule] at hev
    rw [hcfg]
    exact h ev (List.mem_of_mem_tail hev)
  · exact absurd (h ev (by simp [hs])) hunlawful

/-- A lawful schedule is run for as many steps as asked. -/
theorem run_of_safeSchedule (n : Nat) : ∀ s : State, SafeSchedule s → ∃ t, run n s = .next t ∧ SafeSchedule t := by
  induction n with
  | zero => exact fun s h => ⟨s, rfl, h⟩
  | succ n ih =>
    intro s h
    obtain ⟨t, ht, hsafe⟩ := step_of_safeSchedule h
    rw [run_succ_of_step n ht]
    exact ih t hsafe

/-- Settles O29: a step is a next state or the fault of an unlawful event (`step_next_or_fault`), and a lawful
schedule stays lawful as its events are taken. -/
theorem onlyBadAccessesStop : Obligations.OnlyBadAccessesStop := by
  unfold Obligations.OnlyBadAccessesStop
  refine ⟨run_of_safeSchedule, fun s r hrefused => ?_, fun s f hfault => ?_⟩
  · rcases step_next_or_fault s with ⟨t, h⟩ | ⟨-, f, h⟩ <;> rw [h] at hrefused <;> cases hrefused
  · rcases step_next_or_fault s with ⟨t, h⟩ | ⟨hunlawful, -⟩
    · rw [h] at hfault
      cases hfault
    · exact hunlawful

end Sys2Proof.Machine
end

section
/-! Error completions: the illegal opcode, and what every error leaves alone (R134, R144). -/

namespace Sys2Proof.Machine

/-- A latch that decodes to no command completes with ILLEGAL_OPCODE (R73, R134). -/
theorem completeStep_illegal {s : State} (h : illegalOpc s.latchOpc) :
    completeStep s = .next (failed .illegalOpcode s) := by
  rw [completeStep, decodeCommand_error_iff.mpr ⟨h, rfl⟩]
  rfl

/-- Settles O8: the engine's turn decodes the latch before anything else. -/
theorem illegalOpcodeCompletes : Obligations.IllegalOpcodeCompletes := by
  unfold Obligations.IllegalOpcodeCompletes
  refine ⟨rfl, fun s hturn hb h => ?_⟩
  rw [step_engineTurn hturn, engineStep, if_pos (show (popped s).busy = true from hb)]
  exact completeStep_illegal h

/-- A completion that shows an error has written the status fields only (R144). -/
theorem complete_of_err {o : Except ErrCode State} {s : State} (h : (complete o s).err = true) :
    complete o s = failed (complete o s).errcode s := by
  cases o with
  | ok t => cases h
  | error code => rfl

/-- Settles O11: the engine's turn ends in a completion (`complete_of_err`) or in the illegal opcode's error. -/
theorem errorWritesNothingElse : Obligations.ErrorWritesNothingElse := by
  unfold Obligations.ErrorWritesNothingElse
  refine ⟨fun i s t h herr => ?_, fun s t ⟨hb, hturn⟩ h herr => ?_⟩
  · rw [exec_eq] at h
    cases h
    exact complete_of_err herr
  · rw [step_engineTurn hturn] at h
    rcases engineStep_cases h with ⟨hidle, -⟩ | ⟨-, ⟨i, -, rfl⟩ | ⟨r, -, rfl⟩⟩
    · exact absurd (hb.symm.trans hidle) (by decide)
    · exact complete_of_err herr
    · rfl

end Sys2Proof.Machine
end

section
/-! SETMOD's result as a whole next state (R11, R84, R137, R138). -/

namespace Sys2Proof.Machine

theorem radixBits_mod (m : Nat) : radixBits m % 32 = 0 := Nat.mul_mod_right 32 _

/-- The radix of R11 is the least multiple of 32 whose power of 2 exceeds the modulus. -/
theorem radixBits_least {m L : Nat} (hL : L % 32 = 0) (h : m < 2 ^ L) : radixBits m ≤ L := by
  obtain ⟨k, rfl⟩ := Nat.dvd_of_mod_eq_zero hL
  exact radixBits_le h

theorem exec_setmod_odd {s : State} (h : s.m % 2 = 1) :
    exec .setmod s = .next (succeeded (writeModulus s.m (radixBits s.m) s)) := by
  rw [exec_eq, outcome, setmodOutcome, if_neg (by omega), if_neg (by omega)]
  rfl

theorem exec_setmod_zero {s : State} (h : s.m = 0) : exec .setmod s = .next (failed .modZero s) :=
  exec_of_error (by rw [outcome, setmodOutcome, if_pos h])

theorem exec_setmod_even {s : State} (h0 : s.m ≠ 0) (h : s.m % 2 = 0) :
    exec .setmod s = .next (failed .modEven s) :=
  exec_of_error (by rw [outcome, setmodOutcome, if_neg h0, if_pos h])

/-- Settles O37: SETMOD's three cases, with `radixBits` for the least multiple of 32. -/
theorem setmodPreparesModulus : Obligations.SetmodPreparesModulus := by
  unfold Obligations.SetmodPreparesModulus
  exact fun s => ⟨fun h => ⟨radixBits s.m, radixBits_mod s.m, lt_two_pow_radixBits s.m,
    fun _ => radixBits_least, exec_setmod_odd h⟩, exec_setmod_zero, exec_setmod_even⟩

end Sys2Proof.Machine
end

section
/-! The decoding of a point, and DECOMPRESS's result as a whole next state (R123, R124). -/

namespace Sys2Proof.Machine

/-! ### The decoding (R123) -/

section decoding

variable {len : Nat} {pb : Vector Byte 65}

/-- An uncompressed string: both coordinates as its bytes give them. -/
theorem decodePoint_uncompressed (hlen : len = 65) (h : pbByte pb 0 = 0x04) : decodePoint len pb =
    .ok { x := BitVec.ofNat 256 (bytesValue pb 1), y := BitVec.ofNat 256 (bytesValue pb 33), inf := false } := by
  rw [pbByte_of_lt (by decide)] at h
  rw [decodePoint, if_pos ⟨hlen, h⟩, beField_eq_bytesValue pb (by decide), beField_eq_bytesValue pb (by decide)]

/-- A compressed string: X as its bytes give it, and the root that the prefix chooses. -/
theorem decodePoint_compressed (hlen : len = 33) (h : pbByte pb 0 = 0x02 ∨ pbByte pb 0 = 0x03) :
    decodePoint len pb = .ok
      { x := BitVec.ofNat 256 (bytesValue pb 1),
        y := BitVec.ofNat 256 (decodeY (bytesValue pb 1) (pbByte pb 0)), inf := false } := by
  rw [pbByte_of_lt (by decide)] at h ⊢
  rw [decodePoint, if_neg (by omega), if_pos ⟨hlen, h⟩, beField_eq_bytesValue pb (by decide)]

/-- Every other length and prefix is rejected. -/
theorem decodePoint_rejected (h : ¬ ((len = 65 ∧ pbByte pb 0 = 0x04) ∨
    (len = 33 ∧ (pbByte pb 0 = 0x02 ∨ pbByte pb 0 = 0x03)))) : decodePoint len pb = .error .invalidEncoding := by
  rw [pbByte_of_lt (by decide)] at h
  rw [decodePoint, if_neg fun hfull => h (.inl hfull), if_neg fun hshort => h (.inr hshort)]

end decoding

/-! ### DECOMPRESS (R124) -/

theorem exec_decompress_of_decoded {s : State} {P : Point} (h : decodePoint s.pblen.toNat s.pb = .ok P) :
    exec .decompress s = .next (succeeded (writeP P s)) := by
  rw [exec_eq, outcome, decompressOutcome, h]
  rfl

theorem exec_decompress_of_error {s : State} {code : ErrCode} (h : decodePoint s.pblen.toNat s.pb = .error code) :
    exec .decompress s = .next (failed code s) :=
  exec_of_error (by rw [outcome, decompressOutcome, h])

/-- Settles O58: one lemma on `decodePoint` for each kind of string, and `decodeY_eq` for the root. -/
theorem decompressResult : Obligations.DecompressResult := by
  unfold Obligations.DecompressResult
  intro s x y e root hx hy he hroot
  rw [hx] at hroot ⊢
  rw [hy]
  have hlen (n : BitVec 7) : s.pblen.toNat = n.toNat ↔ s.pblen = n := BitVec.toNat_inj
  refine ⟨fun h65 h4 => ?_, fun h33 hprefix => ?_, fun hbad => ?_, bytesValue_lt s.pb (by decide),
    bytesValue_lt s.pb (by decide)⟩
  · rw [exec_decompress_of_decoded (decodePoint_uncompressed ((hlen 65).mpr h65) h4)]
    rfl
  · rw [exec_decompress_of_decoded (decodePoint_compressed ((hlen 33).mpr h33) hprefix),
      decodeY_eq (pbByte s.pb 0) he hroot]
    rfl
  · rw [← hlen 65, ← hlen 33] at hbad
    exact exec_decompress_of_error (decodePoint_rejected hbad)

end Sys2Proof.Machine
end

section
/-! The error every command reports, read off its whole next state (R133, R135 to R140, R143). -/

namespace Sys2Proof.Machine

/-- When neither check of MODSEL fails, a modulus is selected (R42, R80, R81). -/
theorem exists_selects {ms : ModSel} {s : State} (hi : Inv s) (hreserved : ms ≠ .reserved)
    (hready : ¬ (ms = .user ∧ s.mrdy = false)) : ∃ m l, Selects ms s m l := by
  cases ms with
  | p => exact ⟨_, _, .inl ⟨rfl, rfl, rfl⟩⟩
  | n => exact ⟨_, _, .inr (.inl ⟨rfl, rfl, rfl⟩)⟩
  | user =>
    have hmrdy : s.mrdy = true := by simpa using hready
    obtain ⟨-, hconst, -⟩ := hi.ready hmrdy
    exact ⟨_, _, .inr (.inr ⟨rfl, hmrdy, hconst⟩)⟩
  | reserved => exact absurd rfl hreserved

section codes

variable {i : Instr} {s t u : State} (h : exec i s = .next t)
include h

theorem errcode_of_succeeded (hexec : exec i s = .next (succeeded u)) : t.errcode = .none := by
  cases h.symm.trans hexec
  rfl

theorem errcode_of_failed {code : ErrCode} (hexec : exec i s = .next (failed code u)) : t.errcode = code := by
  cases h.symm.trans hexec
  rfl

/-- The checks of MODSEL, in their order (R73, R143). -/
theorem errcode_modcmd {ms : ModSel} (hi : Inv s) (hms : i.modsel? = some ms) : t.errcode =
    if ms = .reserved then .badModsel else if ms = .user ∧ s.mrdy = false then .modNotReady else .none := by
  obtain ⟨hbad, hnotReady, -⟩ := modselErrors
  split
  case isTrue hreserved =>
    subst hreserved
    exact errcode_of_failed h (hbad i s hms)
  case isFalse hreserved =>
    split
    case isTrue hunready =>
      obtain ⟨rfl, hmrdy⟩ := hunready
      exact errcode_of_failed h (hnotReady i s hms hmrdy)
    case isFalse hready =>
      obtain ⟨m, l, hsel⟩ := exists_selects hi hreserved hready
      exact errcode_of_succeeded h (exec_modResult hms hsel)

end codes

theorem errcode_setmod {s t : State} (h : exec .setmod s = .next t) :
    t.errcode = if s.m = 0 then .modZero else if s.m % 2 = 0 then .modEven else .none := by
  split
  · exact errcode_of_failed h (exec_setmod_zero ‹_›)
  · split
    · exact errcode_of_failed h (exec_setmod_even ‹_› ‹_›)
    · exact errcode_of_succeeded h (exec_setmod_odd (by omega))

theorem errcode_compress {s t : State} (h : exec .compress s = .next t) :
    t.errcode = if s.rinf then .identityNoEncoding else .none := by
  obtain ⟨haffine, hidentity⟩ := compressResult s
  split
  case isTrue hinf => exact errcode_of_failed h (hidentity hinf)
  case isFalse hinf =>
    obtain ⟨pb, -, -, -, hexec⟩ := haffine (by simpa using hinf)
    exact errcode_of_succeeded h hexec

theorem errcode_decompress {s t : State} (h : exec .decompress s = .next t) : t.errcode =
    if (s.pblen = 65 ∧ pbByte s.pb 0 = 0x04) ∨ (s.pblen = 33 ∧ pbByte s.pb 0 = 0x02) ∨
      (s.pblen = 33 ∧ pbByte s.pb 0 = 0x03) then .none else .invalidEncoding := by
  obtain ⟨hfull, hshort, hbad, -⟩ := decompressResult s _ _ sqrtExponent _ rfl rfl (by decide) rfl
  simp only [← and_or_left]
  split
  case isTrue hgood =>
    rcases hgood with ⟨hlen, hprefix⟩ | ⟨hlen, hprefix⟩
    · exact errcode_of_succeeded h (hfull hlen hprefix)
    · exact errcode_of_succeeded h (hshort hlen hprefix)
  case isFalse hrejected => exact errcode_of_failed h (hbad hrejected)

/-- Settles O12: the commands that check something have their lemma above, and the other four succeed. -/
theorem errorCodes : Obligations.ErrorCodes := by
  unfold Obligations.ErrorCodes
  refine ⟨by decide, fun i s t hi h => ⟨fun ms hms => errcode_modcmd h hi hms, ?_, ?_, ?_, ?_⟩⟩
  · rintro rfl
    exact errcode_setmod h
  · rintro rfl
    exact errcode_compress h
  · rintro rfl
    exact errcode_decompress h
  · rintro (rfl | rfl | rfl | rfl)
    · exact errcode_of_succeeded h (nopCompletes s)
    · exact errcode_of_succeeded h (exec_ecadd s)
    · exact errcode_of_succeeded h (exec_ecmul s)
    · exact errcode_of_succeeded h (exec_ecmulLadder s)

end Sys2Proof.Machine
end

section
/-! Reset: the state both resets leave, what the window reads in it, and the invariant (R155 to R157). -/

namespace Sys2Proof.Machine

/-! ### Words of the window -/

@[simp] theorem placeAt_zero (lo w : Nat) : placeAt lo (0 : BitVec w) = 0 := by simp [placeAt]

/-- CFG reads MAXBITS, in its 16 bits (R27). -/
theorem readWindow_cfg (s : State) : readWindow 0x004 s = BitVec.ofNat 32 (s.cfg.maxBits % 2 ^ 16) := by
  simp only [readWindow, locate_cfg, readReg]
  apply BitVec.eq_of_toNat_eq
  rw [cfgWord, placeAt_zero_toNat _ (by decide), BitVec.toNat_ofNat, BitVec.toNat_ofNat]
  omega

/-! ### What the reset state reads (R156) -/

section resetWith

variable (c : Config) (events : List Event) (lastReply : Option Word)

@[simp] theorem getWide_resetWith (r : WideReg) : getWide r (State.resetWith c events lastReply) = 0 := by
  cases r <;> rfl

@[simp] theorem getCoord_resetWith (r : CoordReg) : getCoord r (State.resetWith c events lastReply) = 0 := by
  cases r <;> rfl

@[simp] theorem pbByte_resetWith (i : Nat) : pbByte (State.resetWith c events lastReply).pb i = 0 := by
  by_cases hi : i < 65
  · rw [pbByte_of_lt hi]
    exact Vector.getElem_replicate hi
  · exact pbByte_of_ge (by omega)

/-- The reset value of P is `(0, 0)`, and 0 is not 7 modulo `p`. -/
theorem not_onCurve_resetWith : ¬ OnCurve (pointP (State.resetWith c events lastReply)) := by
  have horigin : pointP (State.resetWith c events lastReply) = { x := 0, y := 0, inf := false } := rfl
  rw [horigin]
  rintro (hidentity | ⟨-, -, -, hcurve⟩)
  · exact absurd hidentity (by decide)
  · exact absurd hcurve (by decide)

/-- Every word of every register but ID and CFG is 0. -/
theorem readReg_resetWith {name : RegName} (j : Nat) (hid : name ≠ .ID) (hcfg : name ≠ .CFG) :
    readReg name j (State.resetWith c events lastReply) = 0 := by
  cases name with
  | ID => exact absurd rfl hid
  | CFG => exact absurd rfl hcfg
  | wide r => simp [readReg, wordOf]
  | coord r => simp [readReg, wordOf]
  | PB => simp only [readReg, pbWord, pbByte_resetWith, placeAt_zero, BitVec.or_self]
  | CTRL => simp only [readReg, ctrlWord, State.resetWith, placeAt_zero, BitVec.or_self]
  | STATUS => simp only [readReg, statusWord, State.resetWith, BitVec.ofBool_false, ErrCode.code, placeAt_zero,
      BitVec.or_self]
  | PFLAGS => simp only [readReg, pflagsWord, State.resetWith, BitVec.ofBool_false, placeAt_zero, BitVec.or_self]
  | _ => rfl

/-- Every aligned offset of the window but ID's and CFG's reads 0, reserved or not. -/
theorem readWindow_resetWith {off : Nat} (h4 : off % 4 = 0) (ho : off < 0x1000) (hid : off ≠ 0x000)
    (hcfg : off ≠ 0x004) : readWindow off (State.resetWith c events lastReply) = 0 := by
  cases hl : locate off with
  | none => simp only [readWindow, hl]
  | some word =>
    obtain ⟨name, j⟩ := word
    have hoff : off = offsetOf name j := (locate_aligned ho h4 hl).1
    have hname : name ≠ .ID ∧ name ≠ .CFG :=
      ⟨fun h => hid (hoff.trans (by rw [h, offsetOf])), fun h => hcfg (hoff.trans (by rw [h, offsetOf]))⟩
    simp only [readWindow, hl, readReg_resetWith c events lastReply j hname.1 hname.2]

end resetWith

/-! ### The obligations -/

/-- Settles O25: the reset input is `resetBlock`, and so is a CTRL write with SRST = 1 (`writeWindow_softReset`);
`resetBlock` reads nothing of the state but the parameters and the host side. -/
theorem softResetIsHardReset : Obligations.SoftResetIsHardReset := by
  unfold Obligations.SoftResetIsHardReset
  intro s rest
  refine ⟨fun hreset => ?_, fun v h31 hwrite => ?_⟩
  · simp only [step, hreset, eventStep, resetBlock]
  · rw [step_hostWrites hwrite (by decide) (by decide), writeWindow_softReset _ h31, resetBlock]

/-- Settles O26: the registers and the window have their lemmas above; the status, control and hidden fields are
their values in `State.resetWith`. -/
theorem resetState : Obligations.ResetState := by
  unfold Obligations.ResetState
  rintro c events reply s rfl
  have hid : readWindow 0x000 (State.resetWith c events reply) = 0x4D4D0100 := by
    simp only [readWindow, locate_id, readReg, idWord]
  exact ⟨getWide_resetWith c events reply, getCoord_resetWith c events reply, pbByte_resetWith c events reply, rfl,
    ⟨rfl, rfl, rfl⟩, ⟨rfl, rfl⟩, ⟨rfl, rfl, rfl, rfl, rfl, rfl⟩, ⟨rfl, rfl, rfl⟩, rfl, ⟨rfl, rfl, rfl⟩,
    not_onCurve_resetWith c events reply, hid, readWindow_cfg _,
    fun _ h4 ho => readWindow_resetWith c events reply h4 ho⟩

/-- Settles O27: the reset state is what `resetBlock` makes of itself, and `resetBlock` meets the invariant for every
block size in range (`inv_resetBlock`); the default block is one. -/
theorem invAtReset : Obligations.InvAtReset := by
  unfold Obligations.InvAtReset
  have hreset : ∀ (c : Config) (events : List Event) (reply : Option Word), c.wf = true →
      Inv (State.resetWith c events reply) := fun c events reply hwf =>
    inv_resetBlock (s := State.resetWith c events reply) hwf
  exact ⟨hreset Config.default [] none (by decide), hreset⟩

end Sys2Proof.Machine
end

section
/-! MODINV as the inverse modulo a prime, and the laws of the Montgomery domain (R85 to R87, R92, R99, R104). -/

namespace Sys2Proof.Machine

/-! ### The inverse modulo a prime -/

/-- The moduli for which R104 promises an inverse are odd primes: `p` and `n` are, and a user modulus by premise. -/
theorem selects_odd_prime {ms : ModSel} {s : State} {m l : Nat} (hs : Selects ms s m l)
    (h : ms = .p ∨ ms = .n ∨ (Nat.Prime m ∧ m % 2 = 1)) : Nat.Prime m ∧ m % 2 = 1 := by
  rcases hs with ⟨-, rfl, -⟩ | ⟨-, rfl, -⟩ | ⟨rfl, -, -⟩
  · exact ⟨fieldP_prime, fieldP_odd⟩
  · exact ⟨orderN_prime, orderN_odd⟩
  · simpa using h

/-- Fermat: modulo a prime the power R99 writes is the inverse of every nonzero residue (R104). -/
theorem mul_pow_sub_two_mod {m a : Nat} (hm : Nat.Prime m) (ha : a % m ≠ 0) : a * (a ^ (m - 2) % m) % m = 1 := by
  have hco : Nat.Coprime a m :=
    Nat.Coprime.symm (hm.coprime_iff_not_dvd.mpr fun hdvd => ha (Nat.mod_eq_zero_of_dvd hdvd))
  have hpow : a * a ^ (m - 2) = a ^ (m - 1) := by
    have := hm.two_le
    rw [← pow_succ', show m - 2 + 1 = m - 1 by omega]
  have hfermat : a ^ (m - 1) % m = 1 % m := Nat.totient_prime hm ▸ Nat.ModEq.pow_totient hco
  rw [Nat.mul_mod_mod, hpow, hfermat, Nat.mod_eq_of_lt hm.one_lt]

/-- The power R99 writes is 0 for a multiple of the modulus, because the exponent is not 0. -/
theorem pow_sub_two_mod_of_dvd {m a : Nat} (hm : 2 < m) (ha : a % m = 0) : a ^ (m - 2) % m = 0 := by
  rw [Nat.pow_mod, ha, zero_pow (by omega), Nat.zero_mod]

/-- Settles O42: MODINV's power is an inverse by Fermat, and the exponent `m - 2` is positive for an odd prime. -/
theorem modinvIsInverse : Obligations.ModinvIsInverse := by
  unfold Obligations.ModinvIsInverse
  intro s ms m l hs hms
  obtain ⟨hprime, hodd⟩ := selects_odd_prime hs hms
  have hresult : modResult (.modinv ms) s m l = s.a ^ (m - 2) % m := by
    rw [modResult_modinv, if_neg hprime.ne_one]
  have hm : 2 < m := by
    have := hprime.two_le
    omega
  refine ⟨modResult (.modinv ms) s m l, modResult_lt _ s l hprime.pos, exec_modResult rfl hs, ?_, ?_⟩
  · rw [hresult]
    exact mul_pow_sub_two_mod hprime
  · rw [hresult]
    exact pow_sub_two_mod_of_dvd hm

/-! ### The Montgomery domain -/

section domain

variable {m : Nat} (l : Nat) (h : m % 2 = 1)
include h

/-- The radix times its inverse, as residues (R80). -/
theorem radix_mul_radixInv_cast : (2 : ZMod m) ^ l * (radixInv m l : ZMod m) = 1 := by
  have hone := (ZMod.natCast_eq_natCast_iff' (2 ^ l * radixInv m l) 1 m).mpr (radix_mul_radixInv l h)
  exact_mod_cast hone

/-- FROMMONT's formula undoes TOMONT's (R86, R87). -/
theorem fromMont_toMont (a : Nat) : a * 2 ^ l % m * radixInv m l % m = a % m := by
  rw [← ZMod.natCast_eq_natCast_iff']
  push_cast [ZMod.natCast_mod]
  linear_combination (a : ZMod m) * radix_mul_radixInv_cast l h

/-- MONTMUL's formula on two converted numbers gives the converted product (R85, R86). -/
theorem montMul_toMont (a b : Nat) :
    a * 2 ^ l % m * (b * 2 ^ l % m) * radixInv m l % m = a * b % m * 2 ^ l % m := by
  rw [← ZMod.natCast_eq_natCast_iff']
  push_cast [ZMod.natCast_mod]
  linear_combination (a : ZMod m) * b * 2 ^ l * radix_mul_radixInv_cast l h

end domain

/-- The completion of a command of `MODCMDS`, from the number its formula comes to (R82). -/
theorem exec_of_modResult {i : Instr} {ms : ModSel} {s : State} {m l r : Nat} (h : i.modsel? = some ms)
    (hs : Selects ms s m l) (hr : modResult i s m l = r) : exec i s = .next (succeeded { s with d := r }) :=
  hr ▸ exec_modResult h hs

/-- Settles O44: every state here selects the modulus of `s`, so each result is its formula, and the laws are those
of the formulas. -/
theorem montgomeryDomain : Obligations.MontgomeryDomain := by
  unfold Obligations.MontgomeryDomain
  intro s ms m l hs hodd
  have hsel : ∀ a b, Selects ms { s with a := a, b := b } m l := fun _ _ => hs
  have hone : s.a * 1 * radixInv m l % m = s.a * radixInv m l % m := by rw [mul_one]
  exact ⟨_, _, _, exec_modResult rfl hs, exec_modResult rfl (hsel s.b s.b),
    exec_modResult rfl (hsel (s.a * s.b % m) s.b), exec_of_modResult rfl (hsel _ s.b) (fromMont_toMont l hodd s.a),
    exec_of_modResult rfl (hsel _ _) (montMul_toMont l hodd s.a s.b), _, exec_modResult rfl hs,
    exec_of_modResult rfl (hsel s.a 1) hone⟩

end Sys2Proof.Machine
end

section
/-! Where `ecadd` commutes, its group law on the curve, and the commands that keep the curve (R110, R111). -/

namespace Sys2Proof.Machine

/-! ### Commutativity on affine operands (R110) -/

section commutes

variable [Fact (Nat.Prime fieldP)]

/-- The chord's slope does not depend on the order of its two points. -/
theorem fieldSlope_comm {x1 x2 : FieldP} (y1 y2 : FieldP) (hx : x1 ≠ x2) :
    fieldSlope x1 y1 x2 y2 = fieldSlope x2 y2 x1 y1 := by
  rw [fieldSlope, fieldSlope, if_neg fun h => hx h.1, if_neg fun h => hx h.1.symm, ← neg_div_neg_eq, neg_sub, neg_sub]

/-- `ecadd` commutes on affine operands, but for two that only share X (R110). -/
theorem ecadd_comm_affine {P Q : Point} (hP : P.inf = false) (hQ : Q.inf = false)
    (h : (P.x.toNat : FieldP) ≠ Q.x.toNat ∨ (P.y.toNat : FieldP) = Q.y.toNat ∨
      (P.y.toNat : FieldP) = -(Q.y.toNat : FieldP)) : ecadd P Q = ecadd Q P := by
  rw [ecadd_affine hP hQ rfl rfl rfl rfl, ecadd_affine hQ hP rfl rfl rfl rfl]
  generalize (P.x.toNat : FieldP) = x1, (P.y.toNat : FieldP) = y1, (Q.x.toNat : FieldP) = x2,
    (Q.y.toNat : FieldP) = y2 at h
  by_cases hx : x1 = x2
  · subst hx
    rcases h with hne | rfl | rfl
    · exact absurd rfl hne
    · rfl
    · rw [if_pos ⟨rfl, rfl⟩, if_pos ⟨rfl, (neg_neg y2).symm⟩]
  · have hchord := fieldSlope_chord (y1 := y1) (y2 := y2) hx
    rw [if_neg fun h => hx h.1, if_neg fun h => hx h.1.symm, ← fieldSlope_comm y1 y2 hx]
    congr 1
    · ring
    · linear_combination hchord

/-- Two affine operands that only share X: the slope is 0, and the sum is `(−2·x1, −y1)` (R110). -/
theorem ecadd_shared_x {P Q : Point} (hP : P.inf = false) (hQ : Q.inf = false)
    (hx : (P.x.toNat : FieldP) = Q.x.toNat) (hne : (P.y.toNat : FieldP) ≠ Q.y.toNat)
    (hopp : (P.y.toNat : FieldP) ≠ -(Q.y.toNat : FieldP)) :
    ecadd P Q = pointOf (-(2 * (P.x.toNat : FieldP))) (-(P.y.toNat : FieldP)) := by
  rw [ecadd_affine hP hQ rfl rfl rfl rfl, if_neg fun h => hopp h.2, fieldSlope_shared_x hx hne, ← hx]
  congr 1 <;> ring

/-- Two numbers are opposite modulo `p` when their sum is 0 there. -/
theorem add_mod_eq_zero_iff {a b : Nat} : (a + b) % fieldP = 0 ↔ (a : FieldP) = -(b : FieldP) := by
  rw [← Nat.dvd_iff_mod_eq_zero, ← ZMod.natCast_eq_zero_iff, Nat.cast_add, add_eq_zero_iff_eq_neg]

end commutes

/-- Settles O48: the premises and the two values, read in the field, are those of `ecadd_comm_affine` and
`ecadd_shared_x`. -/
theorem ecaddCommutes : Obligations.EcaddCommutes := by
  unfold Obligations.EcaddCommutes
  intro P Q hP hQ
  have := fact_fieldP
  simp only [ne_eq, ← ZMod.natCast_eq_natCast_iff', add_mod_eq_zero_iff]
  refine ⟨ecadd_comm_affine hP hQ, fun hx hne hopp => ?_⟩
  rw [ecadd_shared_x hP hQ hx hne hopp, pointOf_x, pointOf_y]
  exact ⟨rfl, by push_cast; rfl, rfl⟩

/-! ### The group law (R111) -/

section group

variable [Fact (Nat.Prime fieldP)]

theorem onCurve_canonical (A : (curve 7).Point) : OnCurve (canonical A) := onCurve_iff.mpr ⟨A, rfl⟩

theorem canonical_zero {b : FieldP} : canonical (0 : (curve b).Point) = identityPoint := rfl

end group

/-- Settles O49: the points of the curve are the group elements in the engine's form (`onCurve_iff`), and `ecadd` is
the group law on that form (`ecadd_canonical`). -/
theorem curveGroupLaw : Obligations.CurveGroupLaw := by
  unfold Obligations.CurveGroupLaw
  intro P Q R hP hQ hR
  have := fact_fieldP
  obtain ⟨A, rfl⟩ := onCurve_iff.mp hP
  obtain ⟨B, rfl⟩ := onCurve_iff.mp hQ
  obtain ⟨C, rfl⟩ := onCurve_iff.mp hR
  rw [← canonical_zero (b := 7)]
  simp only [ecadd_canonical]
  refine ⟨onCurve_canonical (A + B), by rw [add_comm], by rw [add_assoc], by rw [add_zero], canonical (-A),
    onCurve_canonical (-A), ?_⟩
  rw [ecadd_canonical, add_neg_cancel]

/-! ### Closure of the curve commands (R111) -/

theorem onCurve_ecadd {P Q : Point} (hP : OnCurve P) (hQ : OnCurve Q) : OnCurve (ecadd P Q) :=
  (curveGroupLaw P Q Q hP hQ hQ).1

/-- Both multiplications keep the curve, for every scalar the engine holds. -/
theorem onCurve_mul {P : Point} {k : Nat} (hP : OnCurve P) (hk : k < 2 ^ 256) :
    OnCurve (ecmul k P) ∧ OnCurve (ladder k P) := by
  have := fact_fieldP
  obtain ⟨A, rfl⟩ := onCurve_iff.mp hP
  rw [ecmul_canonical A hk, ladder_canonical A hk]
  exact ⟨onCurve_canonical (k • A), onCurve_canonical (k • A)⟩

/-- Settles O50: each command writes the value of its function to R, and the functions keep the curve. -/
theorem curveClosure : Obligations.CurveClosure := by
  unfold Obligations.CurveClosure
  intro s hP
  obtain ⟨hmul, hladder⟩ := onCurve_mul hP s.k.isLt
  exact ⟨fun hQ => ⟨_, exec_ecadd s, onCurve_ecadd hP hQ⟩, ⟨_, exec_eq .ecmul s, hmul⟩,
    ⟨_, exec_eq .ecmulLadder s, hladder⟩⟩

end Sys2Proof.Machine
end

section
/-! The two scalar multiplications: corner cases, equality, homomorphism, and the multiples of G (R115, R117 to
R119). -/

namespace Sys2Proof.Machine

/-! ### Both commands at once -/

/-- What both multiplications come to, both commands write to R, and nothing else (R114, R117). -/
theorem exec_of_mul {i : Instr} {s : State} {R : Point} (hi : i = .ecmul ∨ i = .ecmulLadder)
    (h : ecmul s.k.toNat (pointP s) = R ∧ ladder s.k.toNat (pointP s) = R) :
    exec i s = .next (succeeded { s with rx := R.x, ry := R.y, rinf := R.inf }) := by
  obtain ⟨hmul, hladder⟩ := h
  rcases hi with rfl | rfl
  · exact hmul ▸ exec_eq .ecmul s
  · exact hladder ▸ exec_eq .ecmulLadder s

/-- A verbatim copy of an affine P (R115). -/
theorem exec_of_mul_verbatim {i : Instr} {s : State} (hi : i = .ecmul ∨ i = .ecmulLadder) (hinf : s.pinf = false)
    (h : ecmul s.k.toNat (pointP s) = pointP s ∧ ladder s.k.toNat (pointP s) = pointP s) :
    exec i s = .next (succeeded { s with rx := s.px, ry := s.py, rinf := false }) := by
  rw [exec_of_mul hi h, ← hinf]
  rfl

/-- Settles O53: the corner cases of the two functions, each for both at once. -/
theorem scalarCorners : Obligations.ScalarCorners := by
  unfold Obligations.ScalarCorners
  intro s i hi
  have := fact_fieldP
  have hzero : s.py.toNat % fieldP = 0 → (s.py.toNat : FieldP) = 0 :=
    fun hy => (ZMod.natCast_eq_zero_iff _ _).mpr (Nat.dvd_of_mod_eq_zero hy)
  refine ⟨fun h => exec_of_mul (R := identityPoint) hi ?_, fun hk hinf => exec_of_mul_verbatim hi hinf ?_,
    fun hinf hy hk => exec_of_mul (R := identityPoint) hi ?_,
    fun hinf hy hk => exec_of_mul_verbatim hi hinf ?_⟩
  · rcases h with hk | hinf
    · rw [hk]
      exact mul_scalar_zero (pointP s)
    · exact mul_of_identity hinf s.k.toNat
  · rw [hk]
    exact mul_scalar_one hinf
  · have hmul := mul_of_zero (P := pointP s) hinf (hzero hy) s.k.isLt
    rwa [if_pos hk] at hmul
  · have hmul := mul_of_zero (P := pointP s) hinf (hzero hy) s.k.isLt
    rwa [if_neg (by omega)] at hmul

/-! ### The two multiplications agree (R118) -/

/-- The ladder and double-and-add agree on every operand: an identity, an affine one of order 2, and any other affine
one, which lies on some curve `y² = x³ + b` and whose double is not the identity there. -/
theorem ladder_eq_ecmul (P : Point) {k : Nat} (hk : k < 2 ^ 256) : ladder k P = ecmul k P := by
  have := fact_fieldP
  cases hinf : P.inf with
  | true =>
    obtain ⟨hmul, hladder⟩ := mul_of_identity hinf k
    rw [hmul, hladder]
  | false =>
    by_cases hy : (P.y.toNat : FieldP) = 0
    · obtain ⟨hmul, hladder⟩ := mul_of_zero hinf hy hk
      rw [hmul, hladder]
    · obtain ⟨b, A, hA⟩ := exists_denotes hinf hy
      have hdouble := add_self_ne_zero hinf hA hy
      rw [ladder_affine hinf hA hdouble hk, ecmul_affine hinf hA hdouble hk]

/-- Settles O54: each command writes the value of its function, and the functions agree (`ladder_eq_ecmul`). -/
theorem ladderEqualsDoubleAndAdd : Obligations.LadderEqualsDoubleAndAdd := by
  unfold Obligations.LadderEqualsDoubleAndAdd
  intro s
  have hboth : ecmul s.k.toNat (pointP s) = ecmul s.k.toNat (pointP s) ∧
      ladder s.k.toNat (pointP s) = ecmul s.k.toNat (pointP s) := ⟨rfl, ladder_eq_ecmul (pointP s) s.k.isLt⟩
  rw [exec_of_mul (.inr rfl) hboth, exec_of_mul (.inl rfl) hboth]

/-! ### Multiples on the curve (R111, R115, R119) -/

/-- `(j + k)·P = j·P + k·P` for double-and-add, by the same law of the group (R111). -/
theorem ecmul_add {P : Point} {j k : Nat} (hP : OnCurve P) (hlt : j + k < 2 ^ 256) :
    ecmul (j + k) P = ecadd (ecmul j P) (ecmul k P) := by
  have := fact_fieldP
  obtain ⟨A, rfl⟩ := onCurve_iff.mp hP
  rw [ecmul_canonical A hlt, ecmul_canonical A (by omega), ecmul_canonical A (by omega), ecadd_canonical, add_nsmul]

/-- G has order `n`, so its multiples depend on the scalar modulo `n` only (R115). -/
theorem ecmul_mod_orderN {k : Nat} (hk : k < 2 ^ 256) : ecmul k baseG = ecmul (k % orderN) baseG := by
  have := fact_fieldP
  obtain ⟨A, hbase, -, horder⟩ := exists_base
  rw [hbase, ecmul_canonical A hk, ecmul_canonical A ((Nat.mod_le k orderN).trans_lt hk), ← horder,
    mod_addOrderOf_nsmul]

/-- Settles O55: the law of double-and-add (`ecmul_add`) is the ladder's too, because the two agree. -/
theorem scalarHomomorphism : Obligations.ScalarHomomorphism := by
  unfold Obligations.ScalarHomomorphism
  refine ⟨fun P j k hP hlt => ⟨ecmul_add hP hlt, ?_⟩, fun k hk => ecmul_mod_orderN hk⟩
  rw [ladder_eq_ecmul P hlt, ladder_eq_ecmul P (by omega), ladder_eq_ecmul P (by omega), ecmul_add hP hlt]

/-- No multiple of G with a scalar from 1 to `n − 1` is the identity, because G has order `n` (R119). -/
theorem ecmul_baseG_ne_identity {k : Nat} (h1 : 1 ≤ k) (hn : k < orderN) : ecmul k baseG ≠ identityPoint := by
  have := fact_fieldP
  obtain ⟨A, hbase, -, horder⟩ := exists_base
  rw [hbase, ecmul_canonical A (hn.trans orderN_lt), ← canonical_zero (b := 7)]
  intro h
  have hdvd : orderN ∣ k := horder ▸ addOrderOf_dvd_iff_nsmul_eq_zero.mpr (canonical_injective h)
  exact absurd (Nat.le_of_dvd h1 hdvd) (not_le.mpr hn)

/-- Settles O56: the multiple is on the curve (`onCurve_mul`) and not the identity, so it is affine and reduced. -/
theorem scalarClosure : Obligations.ScalarClosure := by
  unfold Obligations.ScalarClosure
  intro s i hi hG h1 hn
  have hcurve : OnCurve (ecmul s.k.toNat baseG) := (onCurve_mul onCurve_baseG s.k.isLt).1
  obtain ⟨hinf, hx, hy, heq⟩ := hcurve.resolve_left (ecmul_baseG_ne_identity h1 hn)
  have hexec := exec_of_mul (s := s) (R := ecmul s.k.toNat baseG) hi
    (by rw [hG]; exact ⟨rfl, ladder_eq_ecmul baseG s.k.isLt⟩)
  rw [hinf] at hexec
  exact ⟨_, _, hx, hy, heq, hexec⟩

end Sys2Proof.Machine
end

section
/-! The root a compressed decoding takes: its parity, and the round-trip of compression (R123, R125, R126). -/

namespace Sys2Proof.Machine

/-! ### The root (R123) -/

/-- The number R123 takes for a square root of `X³ + 7`, whether or not that has one. -/
def rootOf (x : Nat) : Nat := ((x ^ 3 + 7) % fieldP) ^ sqrtExponent % fieldP

theorem four_mul_sqrtExponent : 4 * sqrtExponent = fieldP + 1 := by decide

theorem decodeY_eq_rootOf (x : Nat) (b : Byte) : decodeY x b =
    if rootOf x % 2 = b.toNat - 2 then rootOf x else (fieldP - rootOf x) % fieldP :=
  decodeY_eq b four_mul_sqrtExponent rfl

theorem rootOf_lt (x : Nat) : rootOf x < fieldP := Nat.mod_lt _ fieldP_pos

theorem decodeY_lt (x : Nat) (b : Byte) : decodeY x b < fieldP := by
  rw [decodeY_eq_rootOf]
  split
  · exact rootOf_lt x
  · exact Nat.mod_lt _ fieldP_pos

section root

variable [Fact (Nat.Prime fieldP)]

theorem rootOf_cast (x : Nat) : (rootOf x : FieldP) = ((x : FieldP) ^ 3 + 7) ^ sqrtExponent := by
  unfold rootOf
  push_cast [ZMod.natCast_mod]
  rfl

/-- The root is never 0, because `X³ + 7` never is (R125). -/
theorem rootOf_pos (x : Nat) : 0 < rootOf x := by
  have hne : (rootOf x : FieldP) ≠ 0 := by
    rw [rootOf_cast]
    exact pow_ne_zero _ (neg_seven_not_cube x)
  exact Nat.pos_of_ne_zero fun h => hne (by rw [h, Nat.cast_zero])

/-- When `X³ + 7` is the square of `y`, the root squares to it too, by Fermat (R10, R126). -/
theorem rootOf_sq {x y : Nat} (h : (y : FieldP) ^ 2 = (x : FieldP) ^ 3 + 7) :
    (rootOf x : FieldP) ^ 2 = (y : FieldP) ^ 2 := by
  have hexp : 2 * sqrtExponent * 2 = fieldP + 1 := by
    rw [← four_mul_sqrtExponent]
    ring
  rw [rootOf_cast, ← h, ← pow_mul, ← pow_mul, ← mul_assoc, hexp, pow_succ, ZMod.pow_card, ← pow_two]

/-- The decoded Y is the root or its opposite. -/
theorem decodeY_sq (x : Nat) (b : Byte) : (decodeY x b : FieldP) ^ 2 = (rootOf x : FieldP) ^ 2 := by
  rw [decodeY_eq_rootOf]
  split
  · rfl
  · rw [ZMod.natCast_mod, Nat.cast_sub (rootOf_lt x).le, ZMod.natCast_self, zero_sub, neg_sq]

/-- The decoded Y has the parity that the prefix names: `p` is odd, so the root and its opposite differ in it
(R125). -/
theorem decodeY_parity (x : Nat) {b : Byte} (hb : b = 0x02 ∨ b = 0x03) : decodeY x b % 2 = b.toNat - 2 := by
  have hbit : b.toNat - 2 = 0 ∨ b.toNat - 2 = 1 := by
    rcases hb with rfl | rfl
    · exact .inl rfl
    · exact .inr rfl
  rw [decodeY_eq_rootOf]
  split
  · assumption
  · have hpos := rootOf_pos x
    have hlt := rootOf_lt x
    have hodd := fieldP_odd
    rw [Nat.mod_eq_of_lt (Nat.sub_lt fieldP_pos hpos)]
    omega

/-- Of a residue and its opposite, only one has a given parity. -/
theorem eq_of_sq_eq_of_parity {u v : Nat} (hu : u < fieldP) (hv : v < fieldP)
    (hsq : (u : FieldP) ^ 2 = (v : FieldP) ^ 2) (hparity : u % 2 = v % 2) : u = v := by
  rcases sq_eq_sq_iff_eq_or_eq_neg.mp hsq with heq | hopp
  · rw [ZMod.natCast_eq_natCast_iff', Nat.mod_eq_of_lt hu, Nat.mod_eq_of_lt hv] at heq
    exact heq
  · have hsum : fieldP ∣ u + v := by
      rw [← ZMod.natCast_eq_zero_iff, Nat.cast_add, hopp, neg_add_cancel]
    obtain ⟨c, hc⟩ := hsum
    have hodd := fieldP_odd
    have hc2 : c < 2 := by
      by_contra hge
      have := Nat.mul_le_mul_left fieldP (not_lt.mp hge)
      omega
    interval_cases c <;> omega

end root

/-! ### A compressed decoding (R124, R125) -/

/-- DECOMPRESS of a compressed string writes X as the bytes give it and `decodeY` of it (R123, R124). -/
theorem exec_decompress_of_compressed {s : State} (hlen : s.pblen = 33)
    (h : pbByte s.pb 0 = 0x02 ∨ pbByte s.pb 0 = 0x03) : exec .decompress s = .next (succeeded { s with
      px := BitVec.ofNat 256 (bytesValue s.pb 1)
      py := BitVec.ofNat 256 (decodeY (bytesValue s.pb 1) (pbByte s.pb 0))
      pinf := false }) := by
  have hlen33 : s.pblen.toNat = 33 := congrArg BitVec.toNat hlen
  rw [exec_decompress_of_decoded (decodePoint_compressed hlen33 h)]
  rfl

/-- A decoded Y fits its register. -/
theorem decodeY_toNat (x : Nat) (b : Byte) : (BitVec.ofNat 256 (decodeY x b)).toNat = decodeY x b := by
  rw [BitVec.toNat_ofNat, Nat.mod_eq_of_lt ((decodeY_lt x b).trans fieldP_lt)]

/-- Settles O59: DECOMPRESS writes `decodeY`, which is reduced and has the prefix's parity. -/
theorem decompressParity : Obligations.DecompressParity := by
  unfold Obligations.DecompressParity
  intro s hlen hprefix
  have := fact_fieldP
  refine ⟨_, exec_decompress_of_compressed hlen hprefix, rfl, ?_, ?_, succeeded_pb _⟩
  · rw [succeeded_py, decodeY_toNat]
    exact decodeY_lt _ _
  · rw [succeeded_py, decodeY_toNat]
    exact decodeY_parity _ hprefix

/-! ### The round-trip (R126) -/

theorem parityPrefix_cases (y : Nat) : parityPrefix y = 0x02 ∨ parityPrefix y = 0x03 := by
  unfold parityPrefix
  split
  · exact .inl rfl
  · exact .inr rfl

theorem parityPrefix_parity (y : Nat) : (parityPrefix y).toNat - 2 = fred y % 2 := by
  unfold parityPrefix
  split
  next heven => exact heven.symm
  next hodd => exact (Nat.mod_two_ne_zero.mp hodd).symm

/-- The prefix of a point of the curve picks its own Y, reduced (R126). -/
theorem decodeY_parityPrefix {x y : Nat} (h : y ^ 2 % fieldP = (x ^ 3 + 7) % fieldP) :
    decodeY (fred x) (parityPrefix y) = fred y := by
  have := fact_fieldP
  refine eq_of_sq_eq_of_parity (decodeY_lt _ _) (Nat.mod_lt y fieldP_pos) ?_ ?_
  · rw [decodeY_sq]
    refine rootOf_sq ?_
    rw [fred_cast, fred_cast]
    exact equation_iff_mod.mpr h
  · rw [decodeY_parity _ (parityPrefix_cases y), parityPrefix_parity]

theorem ofNat_fred_toNat (x : Nat) : (BitVec.ofNat 256 (fred x)).toNat = fred x := by
  rw [BitVec.toNat_ofNat, Nat.mod_eq_of_lt (fred_lt_two_pow x)]

/-- A reduced coordinate is its own reduction. -/
theorem ofNat_fred_of_lt {x : Coord} (h : x.toNat < fieldP) : BitVec.ofNat 256 (fred x.toNat) = x :=
  BitVec.eq_of_toNat_eq (by rw [ofNat_fred_toNat, fred, Nat.mod_eq_of_lt h])

/-- Settles O60: COMPRESS leaves the prefix and `be32` of R in PB, from which DECOMPRESS takes X, reduced, and the Y
that the prefix picks (`decodeY_parityPrefix`). -/
theorem compressionRoundTrip : Obligations.CompressionRoundTrip := by
  unfold Obligations.CompressionRoundTrip
  intro s hinf hcurve
  obtain ⟨b, hencode, hbytes⟩ := encodePoint_affine (R := pointR s) hinf
  have hprefix : pbByte (compressedPb b s.pb) 0 = parityPrefix s.ry.toNat := pbByte_zero_of_encoded s.pb hbytes
  have hx : bytesValue (compressedPb b s.pb) 1 = fred s.rx.toNat := bytesValue_one_of_encoded s.pb hbytes
  have hdecompress := exec_decompress_of_compressed (s := succeeded (writeCompressed b s)) rfl
    (hprefix ▸ parityPrefix_cases s.ry.toNat)
  have hpb : (succeeded (writeCompressed b s)).pb = compressedPb b s.pb := rfl
  rw [hpb, hprefix, hx, decodeY_parityPrefix hcurve] at hdecompress
  exact ⟨_, _, exec_compress_of_encoded hencode, hdecompress, rfl, rfl, ofNat_fred_toNat _, ofNat_fred_toNat _,
    fun hxlt hylt => ⟨ofNat_fred_of_lt hxlt, ofNat_fred_of_lt hylt⟩⟩

end Sys2Proof.Machine
end
